-- ==== Sys2Proof/Word.lean ====
section
/-! DEFINITION. The data widths of spec/00_scope.md rule R9 and the pulse-symbol format of
spec/30_encoding.md rules R100 and R101. -/

namespace Sys2Proof

/-- A byte, 8 bits (R9). -/
abbrev Byte := BitVec 8

/-- A nibble, 4 bits (R9). -/
abbrev Nibble := BitVec 4

/-- A code word of the nibble alphabet, 6 bits (R9). -/
abbrev CodeWord := BitVec 6

/-- A packed group, 24 bits (R9, R105). -/
abbrev Group := BitVec 24

/-- The level of one segment of the transmitter's output line (R101). -/
inductive Level where
  /-- the emitter is not driven -/
  | inact
  /-- the emitter is driven -/
  | act
deriving DecidableEq, Repr, Inhabited

/-- The numeric values `ACT` = 1 and `INACT` = 0 of R101. -/
def Level.bit : Level → BitVec 1
  | .inact => 0
  | .act => 1

/-- A symbol pair `((l0, d0), (l1, d1))`, held as the 4-tuple of R100: durations are counts of
transmit ticks. -/
structure Pair where
  /-- level of the first segment -/
  l0 : Level
  /-- ticks of the first segment -/
  d0 : Nat
  /-- level of the second segment -/
  l1 : Level
  /-- ticks of the second segment -/
  d1 : Nat
deriving DecidableEq, Repr, Inhabited

/-- A carrier duty cycle, as a fraction (R8 gives only "≈ 33%"; DESIGN CHOICE, assumption 4). -/
structure Duty where
  /-- numerator -/
  num : Nat
  /-- denominator -/
  den : Nat
deriving DecidableEq, Repr, Inhabited

end Sys2Proof
end

