-- ==== Sys2Proof/Config.lean ====
section
/-! DEFINITION. What the source fixes and what it leaves open: the parameters of
spec/00_scope.md rule R8 with their constraints, and the free values of spec/93. An OPEN parameter
of the machine after reset is an opaque constant, so no claim can rest on its value. -/

namespace Sys2Proof

/-- `RX_CAP`, the receive buffer's capacity (R8, R49). -/
abbrev rxCap : Nat := 10

/-- `A_MAX_PAYLOAD`, the largest Protocol-A payload (R8, R104). -/
abbrev aMaxPayload : Nat := 512

/-- `A_CARRIER_HZ` (R8, R108). -/
abbrev aCarrierHz : Nat := 38000

/-- `BOOT_CMD`, the literal bootloader command "BOOT" (R8, R238). -/
def bootCmd : List Byte := [0x42, 0x4F, 0x4F, 0x54]

/-- The constraints R8, R102, R112 and R140 put on the open parameters: a parameter set that breaks
one is not admitted. `A_DUTY`, which R8 gives as about 33 % with no tolerance, is under none: every fraction
is admitted, 0/0 and those above 1 among them (DESIGN CHOICE, assumption 33). -/
def admissible (nibTable : Vector CodeWord 16) (pTicks durMax bHbTicks queueDepth tmrMax : Nat)
    (bPreByte : Byte) : Bool :=
  decide nibTable.toList.Nodup
    && (decide (1 ≤ pTicks) && decide (4 * pTicks ≤ durMax))
    && (decide (1 ≤ bHbTicks) && decide (bHbTicks ≤ durMax))
    && (bPreByte == 0x55 || bPreByte == 0xAA)
    && decide (1 ≤ queueDepth) && decide (1 ≤ tmrMax)

/-- The OPEN parameters of R8, with the proof that they are admissible: a set that breaks a constraint
cannot be built, which is how the model refuses it at configuration (R102, R140). R8 gives the rates and the
speed no number format; they are natural numbers here (DESIGN CHOICE, assumption 34). The default values
only show that an admissible set exists; nothing in the model uses them. -/
structure OpenParams where
  /-- `NIB_TABLE`, 16 six-bit code words -/
  nibTable : Vector CodeWord 16 := #v[0, 1, 2, 3, 4, 5, 6, 7, 8, 9, 10, 11, 12, 13, 14, 15]
  /-- `P_TICKS`, the Protocol-A reference active-pulse duration -/
  pTicks : Nat := 1
  /-- `TX_RES_HZ`, the transmit tick rate; a natural number (DESIGN CHOICE, assumption 34) -/
  txResHz : Nat := 0
  /-- `DUR_MAX`, the largest duration of one symbol half -/
  durMax : Nat := 4
  /-- `A_DUTY`, the carrier duty cycle of Protocol A; any fraction (DESIGN CHOICE, assumptions 4, 33) -/
  aDuty : Duty := ⟨0, 0⟩
  /-- `B_PRE_BYTE`, the preamble byte -/
  bPreByte : Byte := 0x55
  /-- `B_SPEED`, the "speed" of Protocol B, whose unit the source does not give; a natural number
  (DESIGN CHOICE, assumption 34) -/
  bSpeed : Nat := 0
  /-- `B_HB_TICKS`, half a Protocol-B bit -/
  bHbTicks : Nat := 1
  /-- `B_IN_CAP`, the size of `IN_B` -/
  bInCap : Nat := 0
  /-- `B_OUT_CAP`, the size of `OUT_B` -/
  bOutCap : Nat := 0
  /-- `QUEUE_DEPTH`, the most pairs staged in one resume call -/
  queueDepth : Nat := 1
  /-- `TX_PIN_A` -/
  txPinA : Nat := 0
  /-- `TX_PIN_B`, which may equal `TX_PIN_A` -/
  txPinB : Nat := 0
  /-- `TMR_MAX`, the largest value of the receiver timer -/
  tmrMax : Nat := 1
  /-- `RX_TICK_HZ`, the receiver's tick rate; a natural number (DESIGN CHOICE, assumption 34) -/
  rxTickHz : Nat := 0
  /-- the constraints of R8 -/
  ok : admissible nibTable pTicks durMax bHbTicks queueDepth tmrMax bPreByte = true := by decide
deriving DecidableEq, Repr, Inhabited

/-- All parameters of R8 that the source does not fix: the open ones and the configurable preamble
count `B_NPRE`, whose default is 12. -/
structure Params extends OpenParams where
  /-- `B_NPRE` -/
  bNpre : Nat := 12
deriving DecidableEq, Repr

/-- The open parameters of the machine after reset: FREE, nothing constrains them but R8
(DESIGN CHOICE, assumption 1). -/
opaque Config.openParams : OpenParams

/-- The parameters of the machine after reset: the open ones free, `B_NPRE` at its default. -/
def Config.params : Params := { toOpenParams := Config.openParams, bNpre := 12 }

/-- A FREE byte: draw number and index (R148, R330; DESIGN CHOICE, assumption 2). -/
opaque Config.freeByte : Nat → Nat → Byte

/-- A FREE number: draw number and which field (R42; DESIGN CHOICE, assumption 2). -/
opaque Config.freeNat : Nat → Nat → Nat

/-- A FREE duty cycle (R42; DESIGN CHOICE, assumption 2). -/
opaque Config.freeDuty : Nat → Duty

end Sys2Proof
end

