-- ==== Sys2Proof/Syntax.lean ====
section
/-! DEFINITION. The operations of spec/30_encoding.md rule R120, one constructor per row of the
operation map, each with the operands that arrive on its ports (R117); the agents of
spec/00_scope.md rule R7; and the operand ports. -/

namespace Sys2Proof

/-- A transmit channel, one per protocol (R42). -/
inductive Chan where
  | a
  | b
deriving DecidableEq, Repr, Inhabited

/-- The other channel. -/
def Chan.other : Chan → Chan
  | .a => .b
  | .b => .a

/-- The encoder a transmit drives (R264). -/
inductive Enc where
  | pa
  | pb
deriving DecidableEq, Repr, Inhabited

/-- The four byte spaces of R70. The fifth, `NIBROM`, has 6-bit entries and is the parameter
`NIB_TABLE`. -/
inductive Space where
  | inA
  | inB
  | outB
  | rxBuf
deriving DecidableEq, Repr, Inhabited

/-- What the drawn outcome of a channel call can be (R261): `OK` or `E_HW`. -/
inductive Hw where
  | ok
  | eHw
deriving DecidableEq, Repr, Inhabited

/-- The agents of R7. `TX_CALLER` is one per protocol (R321); `nodeReset` is the "node reset" that R120
lists for `RX_RESET` (DEDUCED, assumption 23). -/
inductive Agent where
  | txCaller (c : Chan)
  | txPeriph
  | rxIsr
  | rxMain
  | env
  | nodeReset
deriving DecidableEq, Repr, Inhabited

/-- The operations of R120 with their operands (R117). Operands are held wider than their ports, so
that a value outside a port's range can be presented and refused (R118). -/
inductive Instr where
  /-- `NIB_ENC v` (R142) -/
  | nibEnc (v : Nat)
  /-- `PACK2 b0 b1` (R145) -/
  | pack2 (b0 b1 : Byte)
  /-- `PACK` of `n` bytes of `src` from index `src0`, into `dst` from `dst0` with room `dcap` (R146) -/
  | pack (src : Space) (src0 n : Nat) (dst : Space) (dst0 dcap : Nat)
  /-- `PA_RESET` (R160) -/
  | paReset
  /-- `PA_RESUME` of the payload `IN_A[0..len-1]` (R161) -/
  | paResume (len budget : Nat)
  /-- `PB_FRAME` of the input `IN_B[0..n-1]` (R195) -/
  | pbFrame (n : Nat)
  /-- `PB_RESET` (R198) -/
  | pbReset
  /-- `PB_RESUME` (R199) -/
  | pbResume (budget : Nat)
  /-- `CH_CONFIG` (R262) -/
  | chConfig (c : Chan) (carrier : Nat) (duty : Duty) (res depth pin : Nat)
  /-- `CH_ENABLE` (R263) -/
  | chEnable (c : Chan)
  /-- `CH_TRANSMIT`; `len` is the Protocol-A payload's length (R264) -/
  | chTransmit (c : Chan) (enc : Enc) (len : Nat)
  /-- `CH_DISABLE` (R265) -/
  | chDisable (c : Chan)
  /-- `CH_DELETE` (R266) -/
  | chDelete (c : Chan)
  /-- `RX_RESET` (R220) -/
  | rxReset
  /-- `RX_TICK` (R221) -/
  | rxTick
  /-- `RX_FALL` (R226) -/
  | rxFall
  /-- `RX_RISE` (R231) -/
  | rxRise
  /-- `RX_OVF` (R236) -/
  | rxOvf
  /-- `RX_CLAIM` (R251) -/
  | rxClaim
  /-- `RX_READ_LEN` (R252) -/
  | rxReadLen
  /-- `RX_READ_BUF i` (R253) -/
  | rxReadBuf (i : Nat)
  /-- `RX_CLEAR_LEN` (R250) -/
  | rxClearLen
  /-- `RX_READ_ACTIVE` (R254) -/
  | rxReadActive
deriving DecidableEq, Repr

/-- The named operand ports of R117, with the values of an idle port as defaults: zero, or the first
name of the port's set; `depth` idles at 1, the least value of its range (DESIGN CHOICE,
assumption 7). -/
structure Ports where
  /-- `NIB_ENC`'s nibble -/
  v : Nat := 0
  /-- `PACK2`'s first byte -/
  b0 : Byte := 0
  /-- `PACK2`'s second byte -/
  b1 : Byte := 0
  /-- `PACK`'s source space -/
  src : Space := .inA
  /-- `PACK`'s first source index -/
  src0 : Nat := 0
  /-- byte count of `PACK` and `PB_FRAME` -/
  n : Nat := 0
  /-- `PACK`'s destination space -/
  dst : Space := .outB
  /-- `PACK`'s first destination index -/
  dst0 : Nat := 0
  /-- `PACK`'s destination capacity -/
  dcap : Nat := 0
  /-- `N`, the Protocol-A payload's length -/
  len : Nat := 0
  /-- the resume operations' budget -/
  budget : Nat := 0
  /-- the channel -/
  c : Chan := .a
  /-- carrier frequency, Hz, 0 for none -/
  carrier : Nat := 0
  /-- carrier duty cycle -/
  duty : Duty := ⟨0, 1⟩
  /-- transmit tick rate, Hz -/
  res : Nat := 0
  /-- symbol pairs staged per resume call -/
  depth : Nat := 1
  /-- output line identifier -/
  pin : Nat := 0
  /-- the encoder of a transmit -/
  enc : Enc := .pa
  /-- `RX_READ_BUF`'s index -/
  i : Nat := 0
deriving DecidableEq, Repr, Inhabited

/-- Every port idle. -/
def Ports.idle : Ports := {}

end Sys2Proof
end

