-- ==== Sys2Proof/WellFormed.lean ====
section
/-! DEFINITION. Which operand values a port admits (spec/30_encoding.md rules R117 and R118), for
given parameters. -/

namespace Sys2Proof

/-- `v` is at most `bound`. Zero is tested first, so that the test evaluates at zero even where the
bound is an open parameter. -/
def fits (v bound : Nat) : Bool := v == 0 || decide (v ≤ bound)

/-- The size of each byte space (R70). -/
def spaceSize (p : Params) : Space → Nat
  | .inA => aMaxPayload
  | .inB => p.bInCap
  | .outB => p.bOutCap
  | .rxBuf => rxCap

/-- Every operand is in its port's range (R117, R118). `PACK` reads a space of its own node (R7: the
nodes share no state) and writes `OUT_B` (R146; DESIGN CHOICE, assumption 18). Its source range lies in its
space; where it is empty, it starts at most at the space's end (DESIGN CHOICE, assumption 36). -/
def wellFormed (p : Params) : Instr → Bool
  | .nibEnc v => decide (v ≤ 15)
  | .pack2 _ _ => true
  | .pack src src0 n dst dst0 dcap =>
      src != .rxBuf && fits (src0 + n) (spaceSize p src) && dst == .outB
        && fits (dst0 + dcap) p.bOutCap
  | .paReset => true
  | .paResume len budget => fits len aMaxPayload && fits budget p.queueDepth
  | .pbFrame n => fits n p.bInCap
  | .pbReset => true
  | .pbResume budget => fits budget p.queueDepth
  | .chConfig _ _ _ _ depth _ => decide (1 ≤ depth)
  | .chEnable _ => true
  | .chTransmit _ enc len => enc == .pb || fits len aMaxPayload
  | .chDisable _ => true
  | .chDelete _ => true
  | .rxReset => true
  | .rxTick => true
  | .rxFall => true
  | .rxRise => true
  | .rxOvf => true
  | .rxClaim => true
  | .rxReadLen => true
  | .rxReadBuf i => decide (i < rxCap)
  | .rxClearLen => true
  | .rxReadActive => true

end Sys2Proof
end

