-- ==== Sys2Proof/Decode.lean ====
section
/-! DEFINITION. The operation word of spec/30_encoding.md rules R116 to R120: one format, one byte,
every operand on a named port. Decoding is total and rejects by name; the encoder writes the word and
drives the ports. -/

namespace Sys2Proof

/-- Why an operation word is refused (R118, R119). -/
inductive DecodeError where
  /-- the word is not in the operation map of R120 -/
  | unusedWord (w : Byte)
  /-- there is only one word length, one byte (R119) -/
  | wordLength (n : Nat)
deriving DecidableEq, Repr

/-- `op[7:4]`, the unit (R116). -/
def opUnit (op : Byte) : Nibble := op.extractLsb' 4 4

/-- `op[3:0]`, the function within the unit (R116). -/
def opFunction (op : Byte) : Nibble := op.extractLsb' 0 4

/-- The operation map of R120, by unit and function, with the operands read from their ports. -/
def decodeOp (op : Byte) (p : Ports) : Except DecodeError Instr :=
  match (opUnit op).toNat, (opFunction op).toNat with
  | 0x0, 0x0 => .ok (.nibEnc p.v)
  | 0x0, 0x1 => .ok (.pack2 p.b0 p.b1)
  | 0x0, 0x2 => .ok (.pack p.src p.src0 p.n p.dst p.dst0 p.dcap)
  | 0x1, 0x0 => .ok .paReset
  | 0x1, 0x1 => .ok (.paResume p.len p.budget)
  | 0x2, 0x0 => .ok (.pbFrame p.n)
  | 0x2, 0x1 => .ok .pbReset
  | 0x2, 0x2 => .ok (.pbResume p.budget)
  | 0x3, 0x0 => .ok (.chConfig p.c p.carrier p.duty p.res p.depth p.pin)
  | 0x3, 0x1 => .ok (.chEnable p.c)
  | 0x3, 0x2 => .ok (.chTransmit p.c p.enc p.len)
  | 0x3, 0x3 => .ok (.chDisable p.c)
  | 0x3, 0x4 => .ok (.chDelete p.c)
  | 0x4, 0x0 => .ok .rxReset
  | 0x4, 0x1 => .ok .rxTick
  | 0x4, 0x2 => .ok .rxFall
  | 0x4, 0x3 => .ok .rxRise
  | 0x4, 0x4 => .ok .rxOvf
  | 0x5, 0x0 => .ok .rxClaim
  | 0x5, 0x1 => .ok .rxReadLen
  | 0x5, 0x2 => .ok (.rxReadBuf p.i)
  | 0x5, 0x3 => .ok .rxClearLen
  | 0x5, 0x4 => .ok .rxReadActive
  | _, _ => .error (.unusedWord op)

/-- Decoding of the bytes of an operation word: exactly one byte (R119). -/
def decode (bytes : List Byte) (p : Ports) : Except DecodeError Instr :=
  match bytes with
  | [op] => decodeOp op p
  | bs => .error (.wordLength bs.length)

/-- The operation word of each operation (the op column of R120). -/
def opWord : Instr → Byte
  | .nibEnc _ => 0x00
  | .pack2 _ _ => 0x01
  | .pack _ _ _ _ _ _ => 0x02
  | .paReset => 0x10
  | .paResume _ _ => 0x11
  | .pbFrame _ => 0x20
  | .pbReset => 0x21
  | .pbResume _ => 0x22
  | .chConfig _ _ _ _ _ _ => 0x30
  | .chEnable _ => 0x31
  | .chTransmit _ _ _ => 0x32
  | .chDisable _ => 0x33
  | .chDelete _ => 0x34
  | .rxReset => 0x40
  | .rxTick => 0x41
  | .rxFall => 0x42
  | .rxRise => 0x43
  | .rxOvf => 0x44
  | .rxClaim => 0x50
  | .rxReadLen => 0x51
  | .rxReadBuf _ => 0x52
  | .rxClearLen => 0x53
  | .rxReadActive => 0x54

/-- The encoder's words: the one byte of the operation word (R116, R119). -/
def encode (i : Instr) : List Byte := [opWord i]

/-- The encoder's operand ports: each operand driven on its own port, every other port idle (R117). -/
def encodePorts : Instr → Ports
  | .nibEnc v => { Ports.idle with v := v }
  | .pack2 b0 b1 => { Ports.idle with b0 := b0, b1 := b1 }
  | .pack src src0 n dst dst0 dcap =>
      { Ports.idle with src := src, src0 := src0, n := n, dst := dst, dst0 := dst0, dcap := dcap }
  | .paReset => Ports.idle
  | .paResume len budget => { Ports.idle with len := len, budget := budget }
  | .pbFrame n => { Ports.idle with n := n }
  | .pbReset => Ports.idle
  | .pbResume budget => { Ports.idle with budget := budget }
  | .chConfig c carrier duty res depth pin =>
      { Ports.idle with c := c, carrier := carrier, duty := duty, res := res, depth := depth, pin := pin }
  | .chEnable c => { Ports.idle with c := c }
  | .chTransmit c enc len => { Ports.idle with c := c, enc := enc, len := len }
  | .chDisable c => { Ports.idle with c := c }
  | .chDelete c => { Ports.idle with c := c }
  | .rxReset => Ports.idle
  | .rxTick => Ports.idle
  | .rxFall => Ports.idle
  | .rxRise => Ports.idle
  | .rxOvf => Ports.idle
  | .rxClaim => Ports.idle
  | .rxReadLen => Ports.idle
  | .rxReadBuf i => { Ports.idle with i := i }
  | .rxClearLen => Ports.idle
  | .rxReadActive => Ports.idle

/-- The bytes of a word of `nbits` bits, the least significant first. -/
def wordBytes (nbits w : Nat) : List Byte :=
  (List.range (nbits / 8)).map fun j => BitVec.ofNat 8 (w >>> (8 * j))

/-- What the decoder reads from a table word, with every operand port idle: an operation word holds no
operand (R116). A number that does not fit the word is no word. -/
def decodeTableWord (nbits w : Nat) : Option Instr :=
  if w < 2 ^ nbits then
    match decode (wordBytes nbits w) Ports.idle with
    | .ok i => some i
    | .error _ => none
  else none

end Sys2Proof
end

