-- ==== Sys2Proof/Machine/State.lean ====
section
/-! DEFINITION. The machine's state as plain data: every piece of state of spec/10_state.md, the byte
spaces of spec/20_memory.md, the observations of R57, and the model's own fields (the pending inputs,
the sends and transmits in progress, the latched draw and the free-value counter). -/

namespace Sys2Proof.Machine

/-- The faults of R307. -/
inductive Fault where
  /-- Raised by `CH_TRANSMIT` beginning on a pin another channel is transmitting on (R264, R318). The
  spec names this fault; safe. -/
  | pinConflict
  /-- Raised by any access at an index outside its space (R71). The spec names this fault and no rule
  reaches it; safe. -/
  | outOfRange
deriving DecidableEq, Repr

/-- What the model refuses (R308), each under its own name. All are safe: a refused step has no
successor, so no claim about a next state can be proved of it. -/
inductive Refusal where
  /-- Raised by `exec` for an operation without a meaning; no arm of this model does. -/
  | notModelled (mnemonic : String)
  /-- Raised when a presented operation word does not decode (R118). -/
  | undecodable (e : DecodeError)
  /-- Raised by an operation whose operand is outside its port's range (R118). -/
  | operandRange
  /-- Raised when an agent issues an operation R120 does not list for it (R308, R317); so also by a `PACK`
  word that can stand inside no `PB_FRAME`, while a frame is loaded (R120, R195; DEDUCED, assumption 18). -/
  | wrongAgent
  /-- Raised when a caller issues an operation while its transmit or send is still blocking it
  (R264: "the caller takes no step until the end step"). -/
  | callerBlocked
  /-- Raised by a channel operation in a lifecycle state without a transition for it (R260). -/
  | lifecycle
  /-- Raised by a channel operation that needs the channel not to be transmitting (R264, R265, R271). -/
  | channelBusy
  /-- Raised by `CH_TRANSMIT` with encoder `PB` while no frame is loaded (R264). -/
  | frameNotLoaded
  /-- Raised by `PB_FRAME` while a frame is loaded (R195, R308). -/
  | frameLoaded
  /-- Raised by a main-loop access, or the start or end of a critical section, after the bootloader jump
  (R223). -/
  | booted
  /-- Raised by `RX_OVF` while no overflow is pending: it is not enabled then (R235). -/
  | overflowNotPending
  /-- Raised by a handler presented inside a critical section of the main loop (R84). -/
  | criticalSection
  /-- Raised by a transmit's resume or end step that the transmit in progress does not take next (R264). -/
  | noTransmitStep
  /-- Raised by a send's step while that send takes none: there is no send, or it waits for its
  transmit (R172, R203). -/
  | noSendStep
deriving DecidableEq, Repr

/-- What a step of the machine answers. -/
abbrev StepOut (σ : Type) := Host.Outcome σ Fault Refusal

/-- `pa.st` (R33). -/
inductive PaSt where
  | payload
  | terminator
deriving DecidableEq, Repr, Inhabited

/-- The Protocol-A session (R33 to R35). -/
structure PaSession where
  /-- `pa.st` -/
  st : PaSt
  /-- `pa.bi`, the byte cursor -/
  bi : Nat
  /-- `pa.k`, the bit cursor -/
  k : Fin 8
  /-- `pa.tc`, the terminator copy cursor -/
  tc : Fin 2
deriving DecidableEq, Repr

/-- The values `PA_RESET` writes (R160). -/
def paInitial : PaSession := ⟨.payload, 0, 0, 0⟩

/-- `pb.st` (R38). -/
inductive PbSt where
  | empty
  | loaded
deriving DecidableEq, Repr, Inhabited

/-- The Protocol-B session and its configuration (R38 to R41). -/
structure PbSession where
  /-- `pb.st` -/
  st : PbSt
  /-- `pb.len`, the staged frame's length -/
  len : Nat
  /-- `pb.bi`, the byte cursor -/
  bi : Nat
  /-- `pb.k`, the bit cursor -/
  k : Fin 8
  /-- `pb.npre`, the preamble count -/
  npre : Nat
  /-- `pb.pre_byte`, the preamble byte -/
  preByte : Byte
deriving DecidableEq, Repr

/-- `ch[c].state` (R42). -/
inductive ChState where
  | absent
  | disabled
  | enabled
deriving DecidableEq, Repr, Inhabited

/-- A `CH_TRANSMIT` between its begin and end steps (R264). -/
structure Transmit where
  /-- the encoder it drives -/
  enc : Enc
  /-- the Protocol-A payload's length -/
  len : Nat
  /-- the caller it blocks -/
  caller : Chan
  /-- a resume step has returned `COMPLETE`: only the end step is left -/
  staged : Bool
deriving DecidableEq, Repr

/-- A transmit channel (R42). -/
structure Channel where
  /-- `ch[c].state` -/
  state : ChState
  /-- `ch[c].carrier_hz` -/
  carrierHz : Nat
  /-- `ch[c].duty` -/
  duty : Duty
  /-- `ch[c].res_hz` -/
  resHz : Nat
  /-- `ch[c].depth` -/
  depth : Nat
  /-- `ch[c].pin` -/
  pin : Nat
  /-- the transmit in progress, if any -/
  tx : Option Transmit
  /-- the caller that owns the channel from its `CH_CONFIG` to its `CH_DELETE` (R87); a record, which stops no
  operation (DEDUCED, assumption 35) -/
  owner : Option Chan
deriving DecidableEq, Repr

/-- `ch[c].busy` (R42): a transmit is in progress. -/
def Channel.busy (x : Channel) : Bool := x.tx.isSome

/-- A channel after reset: `ABSENT`, not busy, its configuration fields at the values assumption 3
names (DESIGN CHOICE). -/
def channelInitial : Channel := ⟨.absent, 0, ⟨0, 1⟩, 0, 0, 0, none, none⟩

/-- The receiver decoder's fields (R43 to R48, R50 to R52); `rx.rx_buf` is the byte space `RXBUF`. -/
structure Rx where
  /-- `rx.tmr` -/
  tmr : Nat
  /-- `rx.ovf_pend` -/
  ovfPend : Bool
  /-- `rx.ref` -/
  ref : Nat
  /-- `rx.rx_byte` -/
  rxByte : Byte
  /-- `rx.rx_bits` -/
  rxBits : Fin 8
  /-- `rx.rx_idx` -/
  rxIdx : Nat
  /-- `rx.rx_buf_len` -/
  rxBufLen : Nat
  /-- `rx.comm_active` -/
  commActive : Bool
  /-- `rx.booted` -/
  booted : Bool
deriving DecidableEq, Repr

/-- The values `RX_RESET` writes (R220). -/
def rxInitial : Rx := ⟨0, false, 0, 0, 0, 0, 0, false, false⟩

/-- One byte space: its bytes that differ from what an unlisted index reads as, indices strictly
rising (R70; DESIGN CHOICE, assumption 5). -/
abbrev Bank := List Host.Cell

/-- The four byte spaces (R70); they share no address (R72). -/
structure Memory where
  /-- `IN_A` -/
  inA : Bank
  /-- `IN_B` -/
  inB : Bank
  /-- `OUT_B` -/
  outB : Bank
  /-- `RXBUF` -/
  rxBuf : Bank
deriving DecidableEq, Repr

/-- Status codes of R301. -/
inductive Status where
  | ok
  | eCapacity
  | eAlign
  | eHw
deriving DecidableEq, Repr, Inhabited

/-- Resume statuses of R301. -/
inductive ResumeStatus where
  | complete
  | yielded
deriving DecidableEq, Repr, Inhabited

/-- Warnings of R56 and R301. -/
structure Warn where
  /-- `W_TRUNC` -/
  trunc : Bool
  /-- `W_SHORT` -/
  short : Bool
deriving DecidableEq, Repr, Inhabited

/-- The result ports (R117) of one operation, and of the pseudo-operations of R122. -/
inductive Result where
  /-- no result -/
  | none
  /-- `NIB_ENC` -/
  | code (v : CodeWord)
  /-- `PACK2` -/
  | group (o0 o1 o2 : Byte)
  /-- `PACK`: status and bytes written -/
  | packed (st : Status) (written : Nat)
  /-- a status -/
  | status (st : Status)
  /-- a resume operation: pairs and status -/
  | pairs (out : List Pair) (st : ResumeStatus)
  /-- `RX_CLAIM` -/
  | claimed (len : Nat) (data : List Byte)
  /-- `RX_READ_LEN` -/
  | len (n : Nat)
  /-- `RX_READ_BUF` -/
  | byte (b : Byte)
  /-- `RX_READ_ACTIVE` -/
  | active (b : Bool)
  /-- a byte-source read: bytes collected and warnings -/
  | sourceRead (n : Nat) (w : Warn)
  /-- the end of `PA_SEND` or `PB_SEND`: status and the read's warnings -/
  | sent (st : Status) (w : Warn)
deriving DecidableEq, Repr

/-- The block's outputs in the step that produced this state (R55, R57): no status persists beyond it. -/
structure Outputs where
  /-- the result ports -/
  result : Result
  /-- the `boot_jump` strobe -/
  bootJump : Bool
deriving DecidableEq, Repr

/-- A pair as an output line has carried it: with the tick rate and the carrier its channel was configured
with (R269). -/
structure Sent where
  /-- the pair -/
  pair : Pair
  /-- ticks of the pair's durations per second -/
  resHz : Nat
  /-- carrier frequency on active segments, 0 for none -/
  carrierHz : Nat
  /-- carrier duty cycle -/
  duty : Duty
deriving DecidableEq, Repr

/-- The observations of R57. -/
structure Obs where
  /-- `obs.nboot` -/
  nboot : Nat
  /-- `obs.line[pin]`: by pin, strictly rising, only pins that have carried a pair -/
  line : List (Nat × List Sent)
deriving DecidableEq, Repr

/-- Where a send in progress stands (R172, R203). -/
inductive SendStage where
  /-- `PA_RESET`, or `PB_FRAME` -/
  | prepare
  /-- `CH_CONFIG` -/
  | config
  /-- `CH_ENABLE` -/
  | enable
  /-- `CH_TRANSMIT`'s begin step -/
  | transmit
  /-- blocked until the transmit's end -/
  | blocked
  /-- `CH_DISABLE` -/
  | disable
  /-- `CH_DELETE` -/
  | delete
  /-- `PA_RESET` or `PB_RESET`, and the return -/
  | release
deriving DecidableEq, Repr, Inhabited

/-- Where `PA_SEND` resets its session before the transmit: R172 and R122 give it different places, and the
model admits both (assumption 19). -/
inductive ResetOrder where
  /-- before `CH_CONFIG` (R172) -/
  | beforeConfig
  /-- between `CH_ENABLE` and `CH_TRANSMIT` (R122) -/
  | beforeTransmit
deriving DecidableEq, Repr, Inhabited

/-- A `PA_SEND` or `PB_SEND` in progress (R172, R203). -/
structure Send where
  /-- the next operation -/
  stage : SendStage
  /-- bytes the byte-source read collected -/
  n : Nat
  /-- the read's warnings -/
  warn : Warn
  /-- some channel call has answered `E_HW` -/
  failed : Bool
  /-- where `PA_SEND` resets its session; `PB_SEND` frames before `CH_CONFIG` in either case -/
  order : ResetOrder
deriving DecidableEq, Repr

/-- What the environment supplies with the operation being run: its issuing agent and the outcome it
draws for a channel call (R261; DESIGN CHOICE, assumption 9). -/
structure Issue where
  /-- the agent -/
  agent : Agent
  /-- `draw f in {OK, E_HW}` -/
  f : Hw
deriving DecidableEq, Repr

/-- The two nodes (R7, R321). -/
inductive Node where
  | transmitting
  | receiving
deriving DecidableEq, Repr

/-- One input from outside the block, presented as one step (R6, R85; the inputs without an operation
word are DEDUCED, assumption 10). -/
inductive Event where
  /-- an agent issues an operation word with its operand ports; `f` is the draw of a channel call -/
  | op (agent : Agent) (word : Byte) (ports : Ports) (f : Hw)
  /-- `TX_PERIPH` takes a resume step of channel `c`'s transmit, drawing `f` and the budget `b` (R264): the
  step that the word `PA_RESUME` or `PB_RESUME` takes for a transmit of its encoder -/
  | txResume (c : Chan) (f : Hw) (b : Nat)
  /-- the end step of channel `c`'s transmit, drawing `f` (R264) -/
  | txEnd (c : Chan) (f : Hw)
  /-- caller `c` reads the byte source, which offers `bytes`, into `IN_A` or `IN_B` (R74) -/
  | readSource (c : Chan) (bytes : List Byte)
  /-- caller `c` starts `PA_SEND` or `PB_SEND` with its byte-source read (R122), with the place of
  `PA_SEND`'s reset -/
  | send (c : Chan) (bytes : List Byte) (order : ResetOrder)
  /-- caller `c` takes the next step of its send, drawing `f` (R172, R203) -/
  | sendStep (c : Chan) (f : Hw)
  /-- `RX_MAIN` enters a critical section (R84) -/
  | critBegin
  /-- `RX_MAIN` leaves its critical section (R84) -/
  | critEnd
  /-- power-on reset of one node (R330, R331) -/
  | powerOn (node : Node)
deriving DecidableEq, Repr

/-- The whole machine: both nodes, their observations, and what the outside presents next. -/
structure State where
  /-- the parameters of R8, fixed for the machine -/
  params : Params
  /-- Protocol-A session -/
  pa : PaSession
  /-- Protocol-B session -/
  pb : PbSession
  /-- `ch[A]` -/
  chA : Channel
  /-- `ch[B]` -/
  chB : Channel
  /-- receiver decoder -/
  rx : Rx
  /-- the byte spaces -/
  mem : Memory
  /-- inside a critical section of `RX_MAIN` (R84) -/
  crit : Bool
  /-- observations -/
  obs : Obs
  /-- `PA_SEND` in progress -/
  sendA : Option Send
  /-- `PB_SEND` in progress -/
  sendB : Option Send
  /-- outputs of the last step -/
  out : Outputs
  /-- issuer and draw of the operation being run -/
  issue : Issue
  /-- the model's own counter of free values drawn -/
  fresh : Nat
  /-- the inputs still to come, the next one first -/
  events : List Event
deriving DecidableEq, Repr

/-- No outputs. -/
def outputsIdle : Outputs := ⟨.none, false⟩

/-- `ch[c]`. -/
def State.ch (s : State) : Chan → Channel
  | .a => s.chA
  | .b => s.chB

/-- The send of caller `c`. -/
def State.send (s : State) : Chan → Option Send
  | .a => s.sendA
  | .b => s.sendB

/-- Replace the Protocol-A session. -/
def State.setPa (s : State) (x : PaSession) : State := { s with pa := x }

/-- Replace the Protocol-B session. -/
def State.setPb (s : State) (x : PbSession) : State := { s with pb := x }

/-- Replace `ch[c]`. -/
def State.setCh (s : State) (c : Chan) (x : Channel) : State :=
  match c with
  | .a => { s with chA := x }
  | .b => { s with chB := x }

/-- Replace the receiver's fields. -/
def State.setRx (s : State) (x : Rx) : State := { s with rx := x }

/-- Replace the byte spaces. -/
def State.setMem (s : State) (x : Memory) : State := { s with mem := x }

/-- Replace the critical-section mark. -/
def State.setCrit (s : State) (x : Bool) : State := { s with crit := x }

/-- Replace the observations. -/
def State.setObs (s : State) (x : Obs) : State := { s with obs := x }

/-- Replace the send of caller `c`. -/
def State.setSend (s : State) (c : Chan) (x : Option Send) : State :=
  match c with
  | .a => { s with sendA := x }
  | .b => { s with sendB := x }

/-- Replace the outputs. -/
def State.setOut (s : State) (x : Outputs) : State := { s with out := x }

/-- Replace the issuer and draw. -/
def State.setIssue (s : State) (x : Issue) : State := { s with issue := x }

/-- Replace the counter of free values. -/
def State.setFresh (s : State) (x : Nat) : State := { s with fresh := x }

/-- Replace the inputs still to come. -/
def State.setEvents (s : State) (x : List Event) : State := { s with events := x }

/-- Both nodes right after power-on reset, for given parameters (R60, R330). -/
def State.resetWith (p : Params) : State where
  params := p
  pa := paInitial
  pb := ⟨.empty, 0, 0, 0, p.bNpre, p.bPreByte⟩
  chA := channelInitial
  chB := channelInitial
  rx := rxInitial
  mem := ⟨[], [], [], []⟩
  crit := false
  obs := ⟨0, []⟩
  sendA := none
  sendB := none
  out := outputsIdle
  issue := ⟨.env, .ok⟩
  fresh := 0
  events := []

/-- The machine right after reset: the open parameters free, `pb.npre` = 12 (R60). -/
def State.reset : State := State.resetWith Config.params

end Sys2Proof.Machine
end

