-- ==== Sys2Proof/Machine/Flags.lean ====
section
/-! DEFINITION. The block has no condition codes (R55). What decides a flag, a decoded bit or a status:
the receiver's threshold tests, the overflow of its timer, and the numbering of statuses and warnings. -/

namespace Sys2Proof.Machine

/-- `bit_of(e, ref)`: a gap longer than twice the reference is a 1 bit (R227). -/
def bitOf (e ref : Nat) : Bool := decide (e > 2 * ref)

/-- `is_term(e, ref)`: with a recorded reference, a pulse longer than twice it is the terminator (R232). -/
def isTerm (e ref : Nat) : Bool := decide (ref ≠ 0) && decide (e > 2 * ref)

/-- The tick that wraps the timer sets `ovf_pend`; no other tick changes it (R221). -/
def tickOverflow (tmrMax tmr : Nat) (pend : Bool) : Bool := decide (tmr = tmrMax) || pend

/-- Edges are ignored while a frame awaits consumption or the node has left for the bootloader (R223,
R224). -/
def edgesIgnored (rx : Rx) : Bool := rx.booted || decide (rx.rxBufLen ≠ 0)

/-- The status of a drawn channel call (R261). -/
def statusOfDraw : Hw → Status
  | .ok => .ok
  | .eHw => .eHw

/-- Status numbers of R301. -/
def Status.code : Status → Nat
  | .ok => 0
  | .eCapacity => 1
  | .eAlign => 2
  | .eHw => 3

/-- Resume status numbers of R301. -/
def ResumeStatus.code : ResumeStatus → Nat
  | .complete => 0
  | .yielded => 1

/-- The 2-bit warning mask of R301: bit 0 `W_TRUNC`, bit 1 `W_SHORT`. -/
def Warn.mask (w : Warn) : BitVec 2 :=
  (BitVec.ofBool w.short) ++ (BitVec.ofBool w.trunc)

/-- The warnings of a byte-source read that was offered `n` bytes for a space of size `cap` (R75): the
stream still has bytes exactly when it offered more than were read (DEDUCED, assumption 22). -/
def sourceWarn (n cap : Nat) : Warn := ⟨decide (0 < cap ∧ cap < n), decide (n = 0)⟩

/-- The receiver states of the document, derived from the fields (R53). -/
inductive RxView where
  | booted
  | frameReady
  | idleArmed
  | tracking
deriving DecidableEq, Repr

/-- Which receiver state the fields stand for (R53). -/
def rxView (rx : Rx) : RxView :=
  if rx.booted then .booted
  else if rx.rxBufLen ≠ 0 then .frameReady
  else if rx.ref = 0 ∧ rx.rxBits = 0 ∧ rx.rxIdx = 0 then .idleArmed
  else .tracking

end Sys2Proof.Machine
end

