-- ==== Sys2Proof/Machine/Ops.lean ====
section
/-! DEFINITION. The named operations every meaning is built from: the byte spaces
(spec/20_memory.md), the output line (R269), the answer of a step, the two places a step can stop, and
the entry into an interrupt handler with its return (R309, R314, R315). -/

namespace Sys2Proof.Machine

/-- What a byte that nothing has written reads as (DESIGN CHOICE, assumption 5). -/
def unlistedByte : Byte := 0

/-- The byte a bank holds at an index. -/
def bankGet : Bank → Nat → Byte
  | [], _ => unlistedByte
  | (x, v) :: m, a => if x = a then v else bankGet m a

/-- A bank with one byte written, in canonical form again. -/
def bankSet : Bank → Nat → Byte → Bank
  | [], a, b => if b = unlistedByte then [] else [(a, b)]
  | (x, v) :: m, a, b =>
      if a < x then (if b = unlistedByte then (x, v) :: m else (a, b) :: (x, v) :: m)
      else if a = x then (if b = unlistedByte then m else (a, b) :: m)
      else (x, v) :: bankSet m a b

/-- The canonical form of a bank: indices strictly rising, no entry that reads as unlisted. -/
abbrev Bank.wf (m : Bank) : Prop :=
  m.Pairwise (fun x y => x.1 < y.1) ∧ ∀ x ∈ m, x.2 ≠ unlistedByte

/-- The bank of a space. -/
def Memory.bank (m : Memory) : Space → Bank
  | .inA => m.inA
  | .inB => m.inB
  | .outB => m.outB
  | .rxBuf => m.rxBuf

/-- Replace the bank of a space. -/
def Memory.setBank (m : Memory) (sp : Space) (b : Bank) : Memory :=
  match sp with
  | .inA => { m with inA := b }
  | .inB => { m with inB := b }
  | .outB => { m with outB := b }
  | .rxBuf => { m with rxBuf := b }

/-- Every space is in canonical form. -/
abbrev Memory.wf (m : Memory) : Prop :=
  Bank.wf m.inA ∧ Bank.wf m.inB ∧ Bank.wf m.outB ∧ Bank.wf m.rxBuf

/-- The byte at an index of a space, whatever the space's size. -/
def Memory.byteAt (m : Memory) (sp : Space) (i : Nat) : Byte := bankGet (m.bank sp) i

/-- `MemRead(S:i, 1)` (R11); none outside the space (R71). -/
def memRead (p : Params) (m : Memory) (sp : Space) (i : Nat) : Option Byte :=
  if i < spaceSize p sp then some (m.byteAt sp i) else none

/-- `MemWrite(S:i, 1, v)` (R11); none outside the space (R71). -/
def memWrite (p : Params) (m : Memory) (sp : Space) (i : Nat) (v : Byte) : Option Memory :=
  if i < spaceSize p sp then some (m.setBank sp (bankSet (m.bank sp) i v)) else none

/-- `MemRead(NIBROM:v, 1)` (R142); none outside the 16 entries (R71). -/
def nibRead (p : Params) (v : Nat) : Option CodeWord := p.nibTable[v]?

/-- The `n` bytes of a space from index `i`. -/
def memReadList (p : Params) (m : Memory) (sp : Space) (i : Nat) : Nat → Option (List Byte)
  | 0 => some []
  | n + 1 =>
      match memRead p m sp i, memReadList p m sp (i + 1) n with
      | some b, some bs => some (b :: bs)
      | _, _ => none

/-- Bytes written to a space from index `i`, in index order. -/
def memWriteList (p : Params) (sp : Space) : Memory → Nat → List Byte → Option Memory
  | m, _, [] => some m
  | m, i, b :: bs =>
      match memWrite p m sp i b with
      | some m' => memWriteList p sp m' (i + 1) bs
      | none => none

/-- Bytes written to a bank from index `i`, in index order. -/
def bankWrite : Bank → Nat → List Byte → Bank
  | m, _, [] => m
  | m, i, b :: bs => bankWrite (bankSet m i b) (i + 1) bs

/-- A bank whose first `n` bytes have become free values, those of draw `d` (R148). -/
def bankFree (d : Nat) (m : Bank) : Nat → Bank
  | 0 => m
  | n + 1 => bankSet (bankFree d m n) n (Config.freeByte d n)

/-- A channel in state `ABSENT`: its configuration fields read as any value (R42), those of draw `d`. -/
def channelAbsent (d : Nat) : Channel where
  state := .absent
  carrierHz := Config.freeNat d 0
  duty := Config.freeDuty d
  resHz := Config.freeNat d 1
  depth := Config.freeNat d 2
  pin := Config.freeNat d 3
  tx := none
  owner := none

/-- What a pin has carried (R269). -/
def lineGet : List (Nat × List Sent) → Nat → List Sent
  | [], _ => []
  | (x, v) :: l, pin => if x = pin then v else lineGet l pin

/-- `obs.line[pin] <- obs.line[pin] ++ syms` (R264), in canonical form. -/
def lineAppend : List (Nat × List Sent) → Nat → List Sent → List (Nat × List Sent)
  | [], pin, ys => if ys = [] then [] else [(pin, ys)]
  | (x, v) :: l, pin, ys =>
      if pin < x then (if ys = [] then (x, v) :: l else (pin, ys) :: (x, v) :: l)
      else if pin = x then (x, v ++ ys) :: l
      else (x, v) :: lineAppend l pin ys

/-- The canonical form of `obs.line`: pins strictly rising, no empty entry. -/
abbrev lineWf (l : List (Nat × List Sent)) : Prop :=
  l.Pairwise (fun x y => x.1 < y.1) ∧ ∀ x ∈ l, x.2 ≠ []

/-- `obs.line[pin]`: the pairs a pin has carried, in order (R269). -/
def linePairs (l : List (Nat × List Sent)) (pin : Nat) : List Pair := (lineGet l pin).map Sent.pair

/-- The state with the step's results on the result ports and no `boot_jump` (R55, R57). -/
def State.answer (s : State) (r : Result) : State := s.setOut ⟨r, false⟩

/-- Go on with the value of an access, or fault `OUT_OF_RANGE` where there is none (R71). -/
def orOutOfRange {α : Type} (o : Option α) (k : α → StepOut State) : StepOut State :=
  match o with
  | some x => k x
  | none => .fault .outOfRange

/-- Go on after a step that answers a next state; a fault or a refusal ends the sequence. -/
def andThen (o : StepOut State) (k : State → StepOut State) : StepOut State :=
  match o with
  | .next s => k s
  | .fault f => .fault f
  | .refused r => .refused r

/-- Taking an interrupt (R314, R315): unless a critical section masks it (R84, R309), the handler runs as
one atomic step. The block saves nothing on entry, so the return restores nothing: the state the
handler leaves is the state the interrupted context goes on with. -/
def takeInterrupt (handler : State → StepOut State) (s : State) : StepOut State :=
  if s.crit then .refused .criticalSection else handler s

end Sys2Proof.Machine
end

