-- ==== Sys2Proof/Machine/LineCode.lean ====
section
/-! DEFINITION. The line codes: the symbol alphabets of both protocols (R103, R109), the nibble code and
the packed-group layout (R105, R106, R143, R144), and the step of a bit cursor. -/

namespace Sys2Proof.Machine

/-- `SYM0` (R103). -/
def sym0 (p : Params) : Pair := ⟨.act, p.pTicks, .inact, p.pTicks⟩

/-- `SYM1` (R103). -/
def sym1 (p : Params) : Pair := ⟨.act, p.pTicks, .inact, 4 * p.pTicks⟩

/-- `SYMT`, the terminator (R103). -/
def symT (p : Params) : Pair := ⟨.act, 3 * p.pTicks, .inact, p.pTicks⟩

/-- `BSYM0` (R109). -/
def bsym0 (p : Params) : Pair := ⟨.act, p.bHbTicks, .act, p.bHbTicks⟩

/-- `BSYM1` (R109). -/
def bsym1 (p : Params) : Pair := ⟨.inact, p.bHbTicks, .inact, p.bHbTicks⟩

/-- The Protocol-A pair of bit `k` of a byte, in transmission order: least significant first (R107). -/
def pairA (p : Params) (x : Byte) (k : Fin 8) : Pair :=
  if x.getLsbD k.val then sym1 p else sym0 p

/-- The Protocol-B pair number `k` of a byte: most significant first (R110). -/
def pairB (p : Params) (x : Byte) (k : Fin 8) : Pair :=
  if x.getLsbD (7 - k.val) then bsym1 p else bsym0 p

/-- The cursor of the bit after `(bi, k)` (R161, R199). -/
def nextBit (bi : Nat) (k : Fin 8) : Nat × Fin 8 := if k = 7 then (bi + 1, 0) else (bi, k + 1)

/-- How long a pair lasts, in transmit ticks (R102). -/
def pairTicks (x : Pair) : Nat := x.d0 + x.d1

/-- How long a sequence of pairs lasts, in transmit ticks (R173, R204). -/
def lineTicks (xs : List Pair) : Nat := (xs.map pairTicks).sum

/-- `NIB_TABLE[v]` (R106). -/
def nibCode (p : Params) (v : Nibble) : CodeWord := p.nibTable.get v.toFin

/-- `hi(x)` (R143). -/
def hiNibble (x : Byte) : Nibble := x.extractLsb' 4 4

/-- `lo(x)` (R143). -/
def loNibble (x : Byte) : Nibble := x.extractLsb' 0 4

/-- `grp(b0, b1)`: the four code words, the first nibble's most significant (R105, R144). -/
def packGroup (p : Params) (b0 b1 : Byte) : Group :=
  nibCode p (hiNibble b0) ++ nibCode p (loNibble b0) ++ nibCode p (hiNibble b1)
    ++ nibCode p (loNibble b1)

/-- `split(w)`: the most significant byte first (R144). -/
def splitGroup (w : Group) : Byte × Byte × Byte :=
  (w.extractLsb' 16 8, w.extractLsb' 8 8, w.extractLsb' 0 8)

/-- The three bytes `PACK2` returns (R145). -/
def packTwo (p : Params) (b0 b1 : Byte) : Byte × Byte × Byte := splitGroup (packGroup p b0 b1)

end Sys2Proof.Machine
end

