-- ==== Sys2Proof/Machine/Operands.lean ====
section
/-! DEFINITION. Operand ports: the range check every operation makes first (R118), and the agents that
may issue each operation (R120). -/

namespace Sys2Proof.Machine

/-- Run the operation only if each operand is in its port's range; otherwise refuse (R118). -/
def withOperands (i : Instr) (s : State) (k : StepOut State) : StepOut State :=
  if wellFormed s.params i then k else .refused .operandRange

/-- The agent is a transmit caller. -/
def isCaller : Agent → Bool
  | .txCaller _ => true
  | .txPeriph => false
  | .rxIsr => false
  | .rxMain => false
  | .env => false
  | .nodeReset => false

/-- The agent column of R120. -/
def mayIssue (ag : Agent) : Instr → Bool
  | .nibEnc _ => true
  | .pack2 _ _ => true
  | .pack _ _ _ _ _ _ => isCaller ag
  | .paReset => isCaller ag || ag == .txPeriph
  | .paResume _ _ => ag == .txPeriph
  | .pbFrame _ => isCaller ag
  | .pbReset => isCaller ag || ag == .txPeriph
  | .pbResume _ => ag == .txPeriph
  | .chConfig _ _ _ _ _ _ => isCaller ag
  | .chEnable _ => isCaller ag
  | .chTransmit _ _ _ => isCaller ag
  | .chDisable _ => isCaller ag
  | .chDelete _ => isCaller ag
  | .rxReset => ag == .nodeReset || ag == .rxMain
  | .rxTick => ag == .env
  | .rxFall => ag == .rxIsr
  | .rxRise => ag == .rxIsr
  | .rxOvf => ag == .rxIsr
  | .rxClaim => ag == .rxMain
  | .rxReadLen => ag == .rxMain
  | .rxReadBuf _ => ag == .rxMain
  | .rxClearLen => ag == .rxMain
  | .rxReadActive => ag == .rxMain

/-- An agent R120 lists for the operation: the one an operation is presented under when only its word is
given. -/
def someIssuer : Instr → Agent
  | .nibEnc _ => .txCaller .b
  | .pack2 _ _ => .txCaller .b
  | .pack _ _ _ _ _ _ => .txCaller .b
  | .paReset => .txCaller .a
  | .paResume _ _ => .txPeriph
  | .pbFrame _ => .txCaller .b
  | .pbReset => .txCaller .b
  | .pbResume _ => .txPeriph
  | .chConfig c _ _ _ _ _ => .txCaller c
  | .chEnable c => .txCaller c
  | .chTransmit c _ _ => .txCaller c
  | .chDisable c => .txCaller c
  | .chDelete c => .txCaller c
  | .rxReset => .rxMain
  | .rxTick => .env
  | .rxFall => .rxIsr
  | .rxRise => .rxIsr
  | .rxOvf => .rxIsr
  | .rxClaim => .rxMain
  | .rxReadLen => .rxMain
  | .rxReadBuf _ => .rxMain
  | .rxClearLen => .rxMain
  | .rxReadActive => .rxMain

/-- A channel's transmit blocks caller `x`. -/
def transmitBlocks (x : Chan) (t : Option Transmit) : Bool :=
  match t with
  | some t => t.caller == x
  | none => false

/-- Caller `x` takes no step of its own: a send of its is in progress, or a transmit it began has not
reached its end step (R264, R172, R203; DEDUCED, assumption 12). -/
def callerBlocked (s : State) (x : Chan) : Bool :=
  (s.send x).isSome || transmitBlocks x s.chA.tx || transmitBlocks x s.chB.tx

/-- The agent is a caller that is blocked. -/
def agentBlocked (s : State) : Agent → Bool
  | .txCaller x => callerBlocked s x
  | .txPeriph => false
  | .rxIsr => false
  | .rxMain => false
  | .env => false
  | .nodeReset => false

/-- The operation stands inside `PB_FRAME` in the map of R120. -/
def insideFramer : Instr → Bool
  | .nibEnc _ => false
  | .pack2 _ _ => false
  | .pack _ _ _ _ _ _ => true
  | .paReset => false
  | .paResume _ _ => false
  | .pbFrame _ => false
  | .pbReset => false
  | .pbResume _ => false
  | .chConfig _ _ _ _ _ _ => false
  | .chEnable _ => false
  | .chTransmit _ _ _ => false
  | .chDisable _ => false
  | .chDelete _ => false
  | .rxReset => false
  | .rxTick => false
  | .rxFall => false
  | .rxRise => false
  | .rxOvf => false
  | .rxClaim => false
  | .rxReadLen => false
  | .rxReadBuf _ => false
  | .rxClearLen => false
  | .rxReadActive => false

/-- The operation has its place inside `PB_FRAME`, which has no step while a frame is loaded (R120, R195): it
is then listed for no agent (DEDUCED, assumption 18). -/
def outOfPlace (s : State) (i : Instr) : Bool := insideFramer i && decide (s.pb.st = .loaded)

/-- The caller an issuing agent stands for: itself, or the channel's own caller. -/
def callerOf (ag : Agent) (c : Chan) : Chan :=
  match ag with
  | .txCaller x => x
  | .txPeriph => c
  | .rxIsr => c
  | .rxMain => c
  | .env => c
  | .nodeReset => c

end Sys2Proof.Machine
end

