-- ==== Sys2Proof/Machine/Transmit.lean ====
section
/-! DEFINITION. A transmit's steps as far as both encoders share them (spec/44_tx_channel.md R264), and
what an output line carries (R101, R108, R269). -/

namespace Sys2Proof.Machine

/-- A pair as a channel sends it (R269). -/
def sentBy (x : Channel) (y : Pair) : Sent := ⟨y, x.resHz, x.carrierHz, x.duty⟩

/-- One segment of a line (R100, R269). -/
structure Segment where
  /-- its level -/
  level : Level
  /-- its duration -/
  ticks : Nat
  /-- ticks per second -/
  resHz : Nat
  /-- frequency and duty of its carrier, if it has one -/
  carrier : Option (Nat × Duty)
deriving DecidableEq, Repr

/-- The carrier of a segment: on an active one, if the channel has a carrier (R108, R269). -/
def segmentCarrier (l : Level) (carrierHz : Nat) (duty : Duty) : Option (Nat × Duty) :=
  match l with
  | .act => if carrierHz = 0 then none else some (carrierHz, duty)
  | .inact => none

/-- The two segments of a pair on the line (R100, R269). -/
def Sent.segments (x : Sent) : List Segment :=
  [⟨x.pair.l0, x.pair.d0, x.resHz, segmentCarrier x.pair.l0 x.carrierHz x.duty⟩,
    ⟨x.pair.l1, x.pair.d1, x.resHz, segmentCarrier x.pair.l1 x.carrierHz x.duty⟩]

/-- The waveform a pin has carried, segment by segment (R269). -/
def lineSegments (l : List (Nat × List Sent)) (pin : Nat) : List Segment :=
  (lineGet l pin).flatMap Sent.segments

/-- A channel is transmitting on the pin. -/
def transmitsOn (x : Channel) (pin : Nat) : Bool := x.busy && decide (x.pin = pin)

/-- The level a line rests at: `INACT` between transmissions (R269). None during one, when the line is at
the level of the segment it has reached, which physical time decides (DESIGN CHOICE, assumption 27). -/
def restLevel (s : State) (pin : Nat) : Option Level :=
  if transmitsOn s.chA pin || transmitsOn s.chB pin then none else some .inact

/-- A send that waits for its transmit learns the transmit's status and goes on to release the channel
(R172, R203; DEDUCED, assumption 31). -/
def sendAfterTransmit (st : Status) (x : Option Send) : Option Send :=
  match x with
  | none => none
  | some y =>
      if y.stage = .blocked then
        some { y with stage := .disable, failed := y.failed || decide (st = .eHw) }
      else some y

/-- The end of a transmit on channel `c`: not busy any more, the status returned (R264). -/
def finishTransmit (c : Chan) (st : Status) (s : State) : State :=
  ((s.setCh c { s.ch c with tx := none }).setSend c (sendAfterTransmit st (s.send c))).answer
    (.status st)

/-- The pairs a resume step staged go out on the channel's pin in order (R264, R269). -/
def stagePairs (c : Chan) (t : Transmit) (out : List Pair) (st : ResumeStatus) (s : State) : State :=
  ((s.setObs { s.obs with
    line := lineAppend s.obs.line (s.ch c).pin (out.map (sentBy (s.ch c))) }).setCh c
    { s.ch c with tx := some { t with staged := decide (st = .complete) } }).answer (.pairs out st)

/-- What a resume step of channel `c`'s transmit draws (R264, R268): on `E_HW` the transmit ends; else the
encoder is called with the budget `b`. -/
def resumeStep (c : Chan) (f : Hw) (b : Nat) (s : State) (call : StepOut State) : StepOut State :=
  match f with
  | .eHw => .next (finishTransmit c .eHw s)
  | .ok => if (s.ch c).depth < b then .refused .operandRange else call

/-- A transmit that drives encoder `e` and has not returned `COMPLETE`. -/
def resumable (e : Enc) (x : Option Transmit) : Option Transmit :=
  match x with
  | some t => if t.enc = e ∧ t.staged = false then some t else none
  | none => none

/-- The transmit a resume word of encoder `e` serves, with its channel. Where the callers keep R87 there is at
most one; where they do not, channel A's comes first (DESIGN CHOICE, assumption 11). -/
def resumeTarget (s : State) (e : Enc) : Option (Chan × Transmit) :=
  match resumable e s.chA.tx with
  | some t => some (.a, t)
  | none =>
      match resumable e s.chB.tx with
      | some t => some (.b, t)
      | none => none

end Sys2Proof.Machine
end

