-- ==== Sys2Proof/Machine/ProtocolA.lean ====
section
/-! DEFINITION. The Protocol-A encoder's operations, spec/41_protocol_a.md: `PA_RESET`, `PA_RESUME`. -/

namespace Sys2Proof.Machine

/-- Stage 1 of `PA_RESUME`, the bytes sub-encoder (R161), with room for so many pairs: the pairs
emitted, the room left, and the session. It stops when the payload or the room is used up. -/
def paData (p : Params) (m : Memory) (n : Nat) :
    Nat → PaSession → Option (List Pair × Nat × PaSession)
  | 0, pa => some ([], 0, pa)
  | room + 1, pa =>
      if pa.bi < n then
        match memRead p m .inA pa.bi with
        | none => none
        | some x =>
            match paData p m n room
              { pa with bi := (nextBit pa.bi pa.k).1, k := (nextBit pa.bi pa.k).2 } with
            | none => none
            | some (out, r, pa') => some (pairA p x pa.k :: out, r, pa')
      else some ([], room + 1, pa)

/-- Stage 2 of `PA_RESUME`, the copy sub-encoder (R161): the terminator and the return to the initial
state (R166), if there is room for it. -/
def paTerminate (p : Params) (out : List Pair) (room : Nat) (pa : PaSession) :
    List Pair × ResumeStatus × PaSession :=
  if room = 0 then (out, .yielded, pa) else (out ++ [symT p], .complete, paInitial)

/-- `PA_RESUME` of the payload `IN_A[0..n-1]` (R161): pairs, status and session. -/
def paResume (p : Params) (m : Memory) (n budget : Nat) (pa : PaSession) :
    Option (List Pair × ResumeStatus × PaSession) :=
  match pa.st with
  | .payload =>
      match paData p m n budget pa with
      | none => none
      | some (out, room, pa') =>
          if pa'.bi < n then some (out, .yielded, pa')
          else some (paTerminate p out room { pa' with st := .terminator })
  | .terminator => some (paTerminate p [] budget pa)

/-- `PA_RESET` (R160). -/
def execPaReset (s : State) : StepOut State := .next ((s.setPa paInitial).answer .none)

/-- A call of `PA_RESUME`: the session moves, and `k` does what becomes of the pairs and the status. -/
def paResumeCall (len b : Nat) (s : State) (k : List Pair → ResumeStatus → State → State) :
    StepOut State :=
  orOutOfRange (paResume s.params s.mem len b s.pa) fun r => .next (k r.1 r.2.1 (s.setPa r.2.2))

/-- `PA_RESUME` (R161). In a transmit that drives `PA` it is that transmit's resume step, which sends the
pairs and draws `f` (R264); otherwise the pairs are only returned (DEDUCED, assumption 11). -/
def execPaResume (len budget : Nat) (s : State) : StepOut State :=
  withOperands (.paResume len budget) s
    (match resumeTarget s .pa with
    | some (c, t) => resumeStep c s.issue.f budget s (paResumeCall len budget s (stagePairs c t))
    | none => paResumeCall len budget s fun out st u => u.answer (.pairs out st))

end Sys2Proof.Machine
end

