-- ==== Sys2Proof/Machine/Codec.lean ====
section
/-! DEFINITION. The nibble codec's operations, spec/40_nibble_codec.md: `NIB_ENC`, `PACK2`, `PACK`. -/

namespace Sys2Proof.Machine

/-- `NIB_ENC` (R142). -/
def execNibEnc (v : Nat) (s : State) : StepOut State :=
  withOperands (.nibEnc v) s
    (orOutOfRange (nibRead s.params v) fun code => .next (s.answer (.code code)))

/-- `PACK2` (R145). -/
def execPack2 (b0 b1 : Byte) (s : State) : StepOut State :=
  withOperands (.pack2 b0 b1) s
    (.next (s.answer (.group (packTwo s.params b0 b1).1 (packTwo s.params b0 b1).2.1
      (packTwo s.params b0 b1).2.2)))

/-- `PACK`'s loop over the groups left (R146): `si` is the next source index, `j` the bytes written so
far. The answer is the status, the bytes written and the memory. -/
def packFrom (p : Params) (src : Space) (dst0 dcap : Nat) :
    Nat → Nat → Nat → Memory → Option (Status × Nat × Memory)
  | 0, _, j, m => some (.ok, j, m)
  | g + 1, si, j, m =>
      if dcap < j + 3 then some (.eCapacity, j, m)
      else
        match memRead p m src si, memRead p m src (si + 1) with
        | some b0, some b1 =>
            match memWriteList p .outB m (dst0 + j)
              [(packTwo p b0 b1).1, (packTwo p b0 b1).2.1, (packTwo p b0 b1).2.2] with
            | some m' => packFrom p src dst0 dcap g (si + 2) (j + 3) m'
            | none => none
        | _, _ => none

/-- `PACK` of `n` source bytes from index `src0` (R146): an odd length is rejected first. -/
def packRun (p : Params) (src : Space) (src0 n dst0 dcap : Nat) (m : Memory) :
    Option (Status × Nat × Memory) :=
  if n % 2 = 1 then some (.eAlign, 0, m) else packFrom p src dst0 dcap (n / 2) src0 0 m

/-- The state after `PACK` answers: after `E_CAPACITY` the content of `OUT_B` is any value (R148). -/
def packAnswer (s : State) (r : Status × Nat × Memory) : State :=
  match r with
  | (.eCapacity, j, m) =>
      ((s.setMem { m with outB := bankFree s.fresh m.outB s.params.bOutCap }).setFresh
        (s.fresh + 1)).answer (.packed .eCapacity j)
  | (st, j, m) => (s.setMem m).answer (.packed st j)

/-- `PACK` (R146). -/
def execPack (src : Space) (src0 n : Nat) (dst : Space) (dst0 dcap : Nat) (s : State) :
    StepOut State :=
  withOperands (.pack src src0 n dst dst0 dcap) s
    (orOutOfRange (packRun s.params src src0 n dst0 dcap s.mem) fun r => .next (packAnswer s r))

end Sys2Proof.Machine
end

