-- ==== Sys2Proof/Machine/ProtocolB.lean ====
section
/-! DEFINITION. The Protocol-B encoder's operations, spec/42_protocol_b.md: `PB_FRAME`, `PB_RESET`,
`PB_RESUME`. -/

namespace Sys2Proof.Machine

/-- The session `PB_RESET` leaves (R198): the configuration is kept. -/
def pbEmptied (pb : PbSession) : PbSession := { pb with st := .empty, len := 0, bi := 0, k := 0 }

/-- The session a rejected `PB_FRAME` leaves (R195). -/
def pbRejected (pb : PbSession) : PbSession := { pb with st := .empty, len := 0 }

/-- The frame length of an input of `n` bytes (R193). -/
def frameLen (npre n : Nat) : Nat := npre + 4 + 3 * ((n - 4) / 2)

/-- The bytes of the frame written to `OUT_B`: preamble, start symbol, packed payload (R195). -/
def frameWrite (p : Params) (pb : PbSession) (n : Nat) (m : Memory) :
    Option (Status × Nat × Memory) :=
  match memWriteList p .outB m 0 (List.replicate pb.npre pb.preByte) with
  | none => none
  | some m1 =>
      match memReadList p m1 .inB 0 4 with
      | none => none
      | some start =>
          match memWriteList p .outB m1 pb.npre start with
          | none => none
          | some m2 => packRun p .inB 4 (n - 4) (pb.npre + 4) (p.bOutCap - pb.npre - 4) m2

/-- The state after the frame is written: `LOADED`, at its first bit (R195). -/
def frameAnswer (s : State) (n : Nat) (r : Status × Nat × Memory) : State :=
  match r with
  | (.ok, _, m) =>
      ((s.setMem m).setPb
        { s.pb with st := .loaded, len := frameLen s.pb.npre n, bi := 0, k := 0 }).answer (.status .ok)
  | (st, _, m) => ((s.setMem m).setPb (pbRejected s.pb)).answer (.status st)

/-- `PB_FRAME` (R195): alignment before capacity (R194), both before anything is written, also where
capacity fails (DEDUCED, assumption 17). -/
def execPbFrame (n : Nat) (s : State) : StepOut State :=
  withOperands (.pbFrame n) s
    (if s.pb.st = .loaded then .refused .frameLoaded
    else if n < 4 then .next ((s.setPb (pbRejected s.pb)).answer (.status .eAlign))
    else if (n - 4) % 2 = 1 then .next ((s.setPb (pbRejected s.pb)).answer (.status .eAlign))
    else if s.params.bOutCap < frameLen s.pb.npre n then
      .next ((s.setPb (pbRejected s.pb)).answer (.status .eCapacity))
    else orOutOfRange (frameWrite s.params s.pb n s.mem) fun r => .next (frameAnswer s n r))

/-- `PB_RESET` (R198). -/
def execPbReset (s : State) : StepOut State := .next ((s.setPb (pbEmptied s.pb)).answer .none)

/-- The loop of `PB_RESUME` over `OUT_B` (R199), with room for so many pairs: the pairs emitted and the
session. It stops when the frame or the room is used up. -/
def pbData (p : Params) (m : Memory) : Nat → PbSession → Option (List Pair × PbSession)
  | 0, pb => some ([], pb)
  | room + 1, pb =>
      if pb.bi < pb.len then
        match memRead p m .outB pb.bi with
        | none => none
        | some x =>
            match pbData p m room
              { pb with bi := (nextBit pb.bi pb.k).1, k := (nextBit pb.bi pb.k).2 } with
            | none => none
            | some (out, pb') => some (pairB p x pb.k :: out, pb')
      else some ([], pb)

/-- `PB_RESUME` (R199): pairs, status and session. -/
def pbResume (p : Params) (m : Memory) (budget : Nat) (pb : PbSession) :
    Option (List Pair × ResumeStatus × PbSession) :=
  match pbData p m budget pb with
  | none => none
  | some (out, pb') =>
      if pb'.bi < pb'.len then some (out, .yielded, pb') else some (out, .complete, pbEmptied pb')

/-- A call of `PB_RESUME`: the session moves, and `k` does what becomes of the pairs and the status. -/
def pbResumeCall (b : Nat) (s : State) (k : List Pair → ResumeStatus → State → State) :
    StepOut State :=
  orOutOfRange (pbResume s.params s.mem b s.pb) fun r => .next (k r.1 r.2.1 (s.setPb r.2.2))

/-- `PB_RESUME` (R199). In a transmit that drives `PB` it is that transmit's resume step, which sends the
pairs and draws `f` (R264); otherwise the pairs are only returned (DEDUCED, assumption 11). -/
def execPbResume (budget : Nat) (s : State) : StepOut State :=
  withOperands (.pbResume budget) s
    (match resumeTarget s .pb with
    | some (c, t) => resumeStep c s.issue.f budget s (pbResumeCall budget s (stagePairs c t))
    | none => pbResumeCall budget s fun out st u => u.answer (.pairs out st))

end Sys2Proof.Machine
end

