-- ==== Sys2Proof/Machine/Channel.lean ====
section
/-! DEFINITION. The transmit channel's operations, spec/44_tx_channel.md: `CH_CONFIG`, `CH_ENABLE`,
`CH_TRANSMIT` with its resume and end steps, `CH_DISABLE`, `CH_DELETE`. The outcome of a channel call
is drawn by the peripheral (R261): it is the `f` of the state's `issue`, an input under no law. -/

namespace Sys2Proof.Machine

/-- `CH_CONFIG` (R262); the channel is its caller's from here on (R87). -/
def execChConfig (c : Chan) (carrier : Nat) (duty : Duty) (res depth pin : Nat) (s : State) :
    StepOut State :=
  withOperands (.chConfig c carrier duty res depth pin) s
    (if (s.ch c).state ≠ .absent then .refused .lifecycle
    else
      match s.issue.f with
      | .eHw => .next (s.answer (.status .eHw))
      | .ok => .next ((s.setCh c ⟨.disabled, carrier, duty, res, depth, pin, none,
        some (callerOf s.issue.agent c)⟩).answer (.status .ok)))

/-- `CH_ENABLE` (R263). -/
def execChEnable (c : Chan) (s : State) : StepOut State :=
  withOperands (.chEnable c) s
    (if (s.ch c).state ≠ .disabled then .refused .lifecycle
    else
      match s.issue.f with
      | .eHw => .next (s.answer (.status .eHw))
      | .ok => .next ((s.setCh c { s.ch c with state := .enabled }).answer (.status .ok)))

/-- Another channel is transmitting on the pin of `c` (R318). -/
def pinTaken (s : State) (c : Chan) : Bool :=
  (s.ch c.other).busy && decide ((s.ch c.other).pin = (s.ch c).pin)

/-- The begin step of `CH_TRANSMIT` (R264): the channel becomes busy and the caller is blocked. The
resume steps are `txResume`, the end step is `txEnd`. -/
def execChTransmit (c : Chan) (enc : Enc) (len : Nat) (s : State) : StepOut State :=
  withOperands (.chTransmit c enc len) s
    (if (s.ch c).state ≠ .enabled then .refused .lifecycle
    else if (s.ch c).busy then .refused .channelBusy
    else if enc = .pb ∧ s.pb.st ≠ .loaded then .refused .frameNotLoaded
    else if pinTaken s c then .fault .pinConflict
    else
      .next ((s.setCh c { s.ch c with
        tx := some ⟨enc, len, callerOf s.issue.agent c, false⟩ }).answer .none))

/-- `CH_DISABLE` (R265): a no-op on a `DISABLED` channel (R260). -/
def execChDisable (c : Chan) (s : State) : StepOut State :=
  withOperands (.chDisable c) s
    (if (s.ch c).state = .absent then .refused .lifecycle
    else if (s.ch c).busy then .refused .channelBusy
    else if (s.ch c).state = .disabled then .next (s.answer (.status .ok))
    else
      .next ((s.setCh c { s.ch c with state := .disabled }).answer
        (.status (statusOfDraw s.issue.f))))

/-- `CH_DELETE` (R266): the channel is `ABSENT` whatever is drawn, and its configuration reads as any
value from then on (R42). -/
def execChDelete (c : Chan) (s : State) : StepOut State :=
  withOperands (.chDelete c) s
    (if (s.ch c).state ≠ .disabled then .refused .lifecycle
    else
      .next (((s.setCh c (channelAbsent s.fresh)).setFresh (s.fresh + 1)).answer
        (.status (statusOfDraw s.issue.f))))

/-- A resume step of channel `c`'s transmit (R264), with the peripheral's draw `f` and budget `b`
(R270; a budget beyond the depth or the port is refused: DEDUCED, assumption 15). -/
def txResume (c : Chan) (f : Hw) (b : Nat) (s : State) : StepOut State :=
  match (s.ch c).tx with
  | none => .refused .noTransmitStep
  | some t =>
      if t.staged then .refused .noTransmitStep
      else
        match t.enc with
        | .pa => resumeStep c f b s (withOperands (.paResume t.len b) s
            (paResumeCall t.len b s (stagePairs c t)))
        | .pb => resumeStep c f b s (withOperands (.pbResume b) s
            (pbResumeCall b s (stagePairs c t)))

/-- The end step of channel `c`'s transmit (R264): the drawn outcome is the transmit's status. -/
def txEnd (c : Chan) (f : Hw) (s : State) : StepOut State :=
  match (s.ch c).tx with
  | none => .refused .noTransmitStep
  | some t =>
      if t.staged then .next (finishTransmit c (statusOfDraw f) s) else .refused .noTransmitStep

end Sys2Proof.Machine
end

