-- ==== Sys2Proof/Machine/MainLoop.lean ====
section
/-! DEFINITION. The main loop's accesses to the receive buffer, spec/43_rx_decoder.md section 8:
`RX_CLAIM`, `RX_READ_LEN`, `RX_READ_BUF`, `RX_CLEAR_LEN`, `RX_READ_ACTIVE`; and its critical section
(R84). -/

namespace Sys2Proof.Machine

/-- A main-loop access is refused after the bootloader jump (R223). -/
def mainLoopAccess (s : State) (k : StepOut State) : StepOut State :=
  if s.rx.booted then .refused .booted else k

/-- `RX_CLEAR_LEN` (R250). -/
def execRxClearLen (s : State) : StepOut State :=
  mainLoopAccess s (.next ((s.setRx { s.rx with rxBufLen := 0 }).answer .none))

/-- `RX_CLAIM` (R251): length, data and clear in one step. -/
def execRxClaim (s : State) : StepOut State :=
  mainLoopAccess s
    (orOutOfRange (memReadList s.params s.mem .rxBuf 0 s.rx.rxBufLen) fun data =>
      .next ((s.setRx { s.rx with rxBufLen := 0 }).answer (.claimed s.rx.rxBufLen data)))

/-- `RX_READ_LEN` (R252). -/
def execRxReadLen (s : State) : StepOut State :=
  mainLoopAccess s (.next (s.answer (.len s.rx.rxBufLen)))

/-- `RX_READ_BUF` (R253). -/
def execRxReadBuf (i : Nat) (s : State) : StepOut State :=
  withOperands (.rxReadBuf i) s
    (mainLoopAccess s
      (orOutOfRange (memRead s.params s.mem .rxBuf i) fun b => .next (s.answer (.byte b))))

/-- `RX_READ_ACTIVE` (R254). -/
def execRxReadActive (s : State) : StepOut State :=
  mainLoopAccess s (.next (s.answer (.active s.rx.commActive)))

/-- The start or the end of a critical section of the main loop (R84; DEDUCED, assumption 26). -/
def markCritical (on : Bool) (s : State) : StepOut State :=
  mainLoopAccess s (.next ((s.setCrit on).answer .none))

end Sys2Proof.Machine
end

