-- ==== Sys2Proof/Machine/Receiver.lean ====
section
/-! DEFINITION. The receiver decoder's events, spec/43_rx_decoder.md: `RX_RESET`, `RX_TICK`, `RX_FALL`,
`RX_RISE`, `RX_OVF`. -/

namespace Sys2Proof.Machine

/-- `RX_RESET` (R220): every field but the buffer. -/
def execRxReset (s : State) : StepOut State := .next ((s.setRx rxInitial).answer .none)

/-- The timer after one tick (R221). -/
def tickTimer (tmrMax tmr : Nat) : Nat := if tmr = tmrMax then 0 else tmr + 1

/-- `RX_TICK` (R221). -/
def execRxTick (s : State) : StepOut State :=
  .next ((s.setRx { s.rx with
    tmr := tickTimer s.params.tmrMax s.rx.tmr,
    ovfPend := tickOverflow s.params.tmrMax s.rx.tmr s.rx.ovfPend }).answer .none)

/-- `rx.rx_byte` with one more bit, at its place `k` (R228). -/
def placeBit (x : Byte) (bit : Bool) (k : Fin 8) : Byte :=
  x ||| ((BitVec.ofBool bit).setWidth 8 <<< k.val)

/-- `store_byte(x)` (R230): a byte beyond the capacity is dropped. -/
def storeByte (x : Byte) (s : State) : Option State :=
  if s.rx.rxIdx < rxCap then
    match memWrite s.params s.mem .rxBuf s.rx.rxIdx x with
    | some m => some ((s.setMem m).setRx { s.rx with rxIdx := s.rx.rxIdx + 1 })
    | none => none
  else some s

/-- The byte cursor's step back to an empty byte after a byte closes (R229). -/
def clearByte (s : State) : State := s.setRx { s.rx with rxBits := 0, rxByte := 0 }

/-- A decoded bit appended to the current byte; the eighth closes it (R226, R228, R229). -/
def appendBit (bit : Bool) (s : State) : Option State :=
  if s.rx.rxBits = 7 then
    match storeByte (placeBit s.rx.rxByte bit s.rx.rxBits) s with
    | some s' => some (clearByte s')
    | none => none
  else
    some (s.setRx { s.rx with
      rxByte := placeBit s.rx.rxByte bit s.rx.rxBits, rxBits := s.rx.rxBits + 1 })

/-- `RX_FALL` (R226). -/
def execRxFall (s : State) : StepOut State :=
  if edgesIgnored s.rx then .next (s.answer .none)
  else if s.rx.ref = 0 then
    .next ((s.setRx { s.rx with tmr := 0, commActive := true }).answer .none)
  else
    orOutOfRange
      (appendBit (bitOf s.rx.tmr s.rx.ref) (s.setRx { s.rx with tmr := 0, commActive := true }))
      fun s' => .next (s'.answer .none)

/-- `seal()` (R233). -/
def sealFrame (rx : Rx) : Rx :=
  { rx with rxBufLen := rx.rxIdx, rxIdx := 0, rxBits := 0, rxByte := 0 }

/-- `boot_match()` on a sealed frame of `len` bytes (R240). -/
def bootMatch (p : Params) (m : Memory) (len : Nat) : Bool :=
  decide (len = 4) && decide (memReadList p m .rxBuf 0 4 = some bootCmd)

/-- `boot_jump()` (R241): the strobe, its count, the frame withheld, the decoder `BOOTED`. -/
def bootJump (s : State) : State :=
  ((s.setRx { s.rx with rxBufLen := 0, booted := true }).setObs
    { s.obs with nboot := s.obs.nboot + 1 }).setOut ⟨.none, true⟩

/-- `RX_RISE` (R231). -/
def execRxRise (s : State) : StepOut State :=
  if edgesIgnored s.rx then .next (s.answer .none)
  else if isTerm s.rx.tmr s.rx.ref then
    if bootMatch s.params s.mem s.rx.rxIdx then
      .next (bootJump (s.setRx (sealFrame { s.rx with tmr := 0 })))
    else .next ((s.setRx (sealFrame { s.rx with tmr := 0 })).answer .none)
  else .next ((s.setRx { s.rx with tmr := 0, ref := s.rx.tmr }).answer .none)

/-- The fields the overflow handler leaves when the node runs its application (R236). -/
def overflowCleared (rx : Rx) : Rx :=
  { rx with ovfPend := false, ref := 0, rxByte := 0, rxBits := 0, rxIdx := 0, commActive := false }

/-- `RX_OVF` (R236), enabled only while an overflow is pending (R235; refused otherwise:
DEDUCED, assumption 14). -/
def execRxOvf (s : State) : StepOut State :=
  if s.rx.ovfPend then
    if s.rx.booted then .next ((s.setRx { s.rx with ovfPend := false }).answer .none)
    else .next ((s.setRx (overflowCleared s.rx)).answer .none)
  else .refused .overflowNotPending

end Sys2Proof.Machine
end

