-- ==== Sys2Proof/Machine/Dispatch.lean ====
section
/-! DEFINITION. Which meaning each operation of R120 has: one arm per constructor. -/

namespace Sys2Proof.Machine

/-- The effect of one operation with its operands. -/
def exec (i : Instr) (s : State) : Host.Outcome State Fault Refusal :=
  match i with
  | .nibEnc v => Sys2Proof.Machine.execNibEnc v s
  | .pack2 b0 b1 => Sys2Proof.Machine.execPack2 b0 b1 s
  | .pack src src0 n dst dst0 dcap => Sys2Proof.Machine.execPack src src0 n dst dst0 dcap s
  | .paReset => Sys2Proof.Machine.execPaReset s
  | .paResume len budget => Sys2Proof.Machine.execPaResume len budget s
  | .pbFrame n => Sys2Proof.Machine.execPbFrame n s
  | .pbReset => Sys2Proof.Machine.execPbReset s
  | .pbResume budget => Sys2Proof.Machine.execPbResume budget s
  | .chConfig c carrier duty res depth pin => Sys2Proof.Machine.execChConfig c carrier duty res depth pin s
  | .chEnable c => Sys2Proof.Machine.execChEnable c s
  | .chTransmit c enc len => Sys2Proof.Machine.execChTransmit c enc len s
  | .chDisable c => Sys2Proof.Machine.execChDisable c s
  | .chDelete c => Sys2Proof.Machine.execChDelete c s
  | .rxReset => Sys2Proof.Machine.execRxReset s
  | .rxTick => Sys2Proof.Machine.execRxTick s
  | .rxFall => Sys2Proof.Machine.execRxFall s
  | .rxRise => Sys2Proof.Machine.execRxRise s
  | .rxOvf => Sys2Proof.Machine.execRxOvf s
  | .rxClaim => Sys2Proof.Machine.execRxClaim s
  | .rxReadLen => Sys2Proof.Machine.execRxReadLen s
  | .rxReadBuf j => Sys2Proof.Machine.execRxReadBuf j s
  | .rxClearLen => Sys2Proof.Machine.execRxClearLen s
  | .rxReadActive => Sys2Proof.Machine.execRxReadActive s

end Sys2Proof.Machine
end

