-- ==== Sys2Proof/Machine/Send.lean ====
section
/-! DEFINITION. The byte-source read (spec/20_memory.md R74, R75) and the send pseudo-operations
`PA_SEND` (R172) and `PB_SEND` (R203). A send has no operation word: it is a caller that issues the
operations of its expansion one step at a time, and the state holds where it stands
(DEDUCED, assumptions 10, 19 and 31). -/

namespace Sys2Proof.Machine

/-- The input space of caller `c` (R74). -/
def inputSpace : Chan → Space
  | .a => .inA
  | .b => .inB

/-- The state after the byte-source read of caller `c`: the first `min(n, cap)` bytes offered, from
index 0 (R74). -/
def sourceStored (c : Chan) (bytes : List Byte) (s : State) : State :=
  s.setMem (s.mem.setBank (inputSpace c)
    (bankWrite (s.mem.bank (inputSpace c)) 0 (bytes.take (spaceSize s.params (inputSpace c)))))

/-- How many bytes the byte-source read of caller `c` collects (R74). -/
def sourceCount (c : Chan) (bytes : List Byte) (s : State) : Nat :=
  min bytes.length (spaceSize s.params (inputSpace c))

/-- The warnings of the byte-source read of caller `c` (R75). -/
def sourceWarnings (c : Chan) (bytes : List Byte) (s : State) : Warn :=
  sourceWarn bytes.length (spaceSize s.params (inputSpace c))

/-- The byte-source read on its own. -/
def readSource (c : Chan) (bytes : List Byte) (s : State) : StepOut State :=
  if callerBlocked s c then .refused .callerBlocked
  else
    .next ((sourceStored c bytes s).answer
      (.sourceRead (sourceCount c bytes s) (sourceWarnings c bytes s)))

/-- The send resets its session only before the transmit: `PA_SEND` in the order of R122. -/
def resetsLate (c : Chan) (order : ResetOrder) : Bool :=
  match c, order with
  | .a, .beforeTransmit => true
  | .a, .beforeConfig => false
  | .b, .beforeTransmit => false
  | .b, .beforeConfig => false

/-- `PA_SEND` or `PB_SEND` begins: its byte-source read (R172, R203). It begins whatever the other caller
owns, also that protocol's channel and session: R87 is silent on that start (DESIGN CHOICE, assumption 35). -/
def sendBegin (c : Chan) (bytes : List Byte) (order : ResetOrder) (s : State) : StepOut State :=
  if callerBlocked s c then .refused .callerBlocked
  else
    .next (((sourceStored c bytes s).setSend c
      (some ⟨if resetsLate c order then .config else .prepare, sourceCount c bytes s,
        sourceWarnings c bytes s, false, order⟩)).answer
      (.sourceRead (sourceCount c bytes s) (sourceWarnings c bytes s)))

/-- The operation a send of caller `c` issues next (R172, R203): it prepares the frame by `PA_RESET` or
`PB_FRAME` of the bytes read, takes its channel through its lifecycle, and resets its encoder. None while
it waits for its transmit. -/
def sendOp (p : Params) (c : Chan) (x : Send) : Option Instr :=
  match x.stage, c with
  | .prepare, .a => some .paReset
  | .prepare, .b => some (.pbFrame x.n)
  | .config, .a => some (.chConfig .a aCarrierHz p.aDuty p.txResHz p.queueDepth p.txPinA)
  | .config, .b => some (.chConfig .b 0 ⟨0, 1⟩ p.txResHz p.queueDepth p.txPinB)
  | .enable, c => some (.chEnable c)
  | .transmit, .a => some (.chTransmit .a .pa x.n)
  | .transmit, .b => some (.chTransmit .b .pb 0)
  | .blocked, _ => none
  | .disable, c => some (.chDisable c)
  | .delete, c => some (.chDelete c)
  | .release, .a => some .paReset
  | .release, .b => some .pbReset

/-- The status on the result ports; an operation without a status succeeded. -/
def resultStatus (r : Result) : Status :=
  match r with
  | .status st => st
  | .none => .ok
  | .code _ => .ok
  | .group _ _ _ => .ok
  | .packed st _ => st
  | .pairs _ _ => .ok
  | .claimed _ _ => .ok
  | .len _ => .ok
  | .byte _ => .ok
  | .active _ => .ok
  | .sourceRead _ _ => .ok
  | .sent st _ => st

/-- A send's next stage, with the failure of its last channel call recorded. -/
def sendMove (c : Chan) (x : Send) (okStage failStage : SendStage) (s : State) : StepOut State :=
  if resultStatus s.out.result = .eHw then
    .next (s.setSend c (some { x with stage := failStage, failed := true }))
  else .next (s.setSend c (some { x with stage := okStage }))

/-- The send returns: its status and the read's warnings. -/
def sendReturn (c : Chan) (st : Status) (w : Warn) (s : State) : StepOut State :=
  .next ((s.setSend c none).answer (.sent st w))

/-- What a send does with the answer of the operation it issued (R172, R203): a failed `PB_FRAME` ends it
with no channel call; a failed `CH_CONFIG` skips to the encoder's reset; a failed `CH_ENABLE` or transmit
is released like a good one. -/
def sendNext (c : Chan) (x : Send) (s : State) : StepOut State :=
  match x.stage with
  | .prepare =>
      if resultStatus s.out.result = .ok then
        .next (s.setSend c
          (some { x with stage := if resetsLate c x.order then .transmit else .config }))
      else sendReturn c (resultStatus s.out.result) x.warn s
  | .config => sendMove c x .enable .release s
  | .enable => sendMove c x (if resetsLate c x.order then .prepare else .transmit) .disable s
  | .transmit => sendMove c x .blocked .blocked s
  | .blocked => .refused .noSendStep
  | .disable => sendMove c x .delete .delete s
  | .delete => sendMove c x .release .release s
  | .release => sendReturn c (if x.failed then .eHw else .ok) x.warn s

/-- The next step of a send in progress (R172, R203): its operation, issued by caller `c` with the draw `f`,
unless a transmit of the caller is in progress. -/
def sendAdvance (c : Chan) (f : Hw) (s : State) : StepOut State :=
  match s.send c with
  | none => .refused .noSendStep
  | some x =>
      match sendOp s.params c x with
      | none => .refused .noSendStep
      | some i =>
          if transmitBlocks c s.chA.tx || transmitBlocks c s.chB.tx then .refused .noSendStep
          else andThen (exec i (s.setIssue ⟨.txCaller c, f⟩)) (sendNext c x)

end Sys2Proof.Machine
end

