-- ==== Sys2Proof/Machine/Present.lean ====
section
/-! DEFINITION. What one presented input does: the fetch of this block. An operation word is decoded,
its issuing agent checked against R120, and its meaning run, a handler through the interrupt entry;
the inputs without a word are the steps of a transmit, of a send and of a critical section, and the
power-on reset of a node (R330, R331). -/

namespace Sys2Proof.Machine

/-- One operation issued by an agent, with the draw `f` latched (R85, R308): the agent may issue it, is not
blocked, and the operation is in its place. Who owns the channel or the session it acts on stops nothing: a
breach of R87 is the caller's (DEDUCED, assumption 35). -/
def runInstr (ag : Agent) (i : Instr) (f : Hw) (s : State) : StepOut State :=
  if !mayIssue ag i then .refused .wrongAgent
  else if agentBlocked s ag then .refused .callerBlocked
  else if outOfPlace s i then .refused .wrongAgent
  else if ag = .rxIsr then takeInterrupt (exec i) (s.setIssue ⟨ag, f⟩)
  else exec i (s.setIssue ⟨ag, f⟩)

/-- One operation word presented with its operand ports (R116 to R118). -/
def runWord (ag : Agent) (word : Byte) (ports : Ports) (f : Hw) (s : State) : StepOut State :=
  match decode [word] ports with
  | .error e => .refused (.undecodable e)
  | .ok i => runInstr ag i f s

/-- Power-on reset of the transmitting node (R330): what has no power-on value becomes free values
(DEDUCED, assumption 28). -/
def powerOnTx (s : State) : State where
  params := s.params
  pa := paInitial
  pb := ⟨.empty, 0, 0, 0, s.params.bNpre, s.params.bPreByte⟩
  chA := channelAbsent s.fresh
  chB := channelAbsent (s.fresh + 1)
  rx := s.rx
  mem := { s.mem with
    inA := bankFree s.fresh s.mem.inA (spaceSize s.params .inA)
    inB := bankFree (s.fresh + 1) s.mem.inB (spaceSize s.params .inB)
    outB := bankFree (s.fresh + 2) s.mem.outB (spaceSize s.params .outB) }
  crit := s.crit
  obs := { s.obs with line := [] }
  sendA := none
  sendB := none
  out := outputsIdle
  issue := s.issue
  fresh := s.fresh + 3
  events := s.events

/-- Power-on reset of the receiving node (R330): the buffer's bytes become free values. -/
def powerOnRx (s : State) : State :=
  (((((s.setRx rxInitial).setMem
    { s.mem with rxBuf := bankFree s.fresh s.mem.rxBuf (spaceSize s.params .rxBuf) }).setCrit
    false).setObs { s.obs with nboot := 0 }).setFresh (s.fresh + 1)).setOut outputsIdle

/-- One input. -/
def present (e : Event) (s : State) : StepOut State :=
  match e with
  | .op ag word ports f => runWord ag word ports f s
  | .txResume c f b => txResume c f b s
  | .txEnd c f => txEnd c f s
  | .readSource c bytes => readSource c bytes s
  | .send c bytes order => sendBegin c bytes order s
  | .sendStep c f => sendAdvance c f s
  | .critBegin => markCritical true s
  | .critEnd => markCritical false s
  | .powerOn .transmitting => .next (powerOnTx s)
  | .powerOn .receiving => .next (powerOnRx s)

/-- The input that presents a table word to the machine: an agent R120 lists for it, every operand port
idle, a channel call that succeeds. -/
def tableEvent (nbits w : Nat) : Event :=
  match decodeTableWord nbits w with
  | some i => .op (someIssuer i) (BitVec.ofNat 8 w) Ports.idle .ok
  | none => .op .env (BitVec.ofNat 8 w) Ports.idle .ok

end Sys2Proof.Machine
end

