-- ==== Sys2Proof/Machine/Step.lean ====
section
/-! DEFINITION. The step: the next presented input is one atomic step (R85). -/

namespace Sys2Proof.Machine

/-- Take the next input. With none presented no agent takes a step: the machine waits, and no result
persists (R55; DESIGN CHOICE, assumption 8). -/
def step (s : State) : Host.Outcome State Fault Refusal :=
  match s.events with
  | [] => .next (s.setOut outputsIdle)
  | e :: es => present e (s.setEvents es)

/-- The state with a table word presented as the next input (DESIGN CHOICE, assumption 6). -/
def State.withFetchWord (s : State) (nbits w : Nat) : State :=
  s.setEvents (tableEvent nbits w :: s.events)

end Sys2Proof.Machine
end

