-- ==== Sys2Proof/Safety.lean ====
section
/-! DEFINITION. The terms claims use: what counts as a safe state (the invariant of R9, R50, R53, R70,
R71, R87, R165 and R318), who owns a channel or a session (R87), what an operation leaves unchanged, the pair
streams of R163 and R200, and runs of several operations or inputs. -/

namespace Sys2Proof.Machine

/-! ## The invariant -/

/-- The Protocol-A session between calls: no terminator half sent, and the cursor within the largest
payload (R34, R35, R165). -/
def PaSession.Ok (pa : PaSession) : Prop := pa.tc = 0 ∧ 8 * pa.bi + pa.k.val ≤ 8 * aMaxPayload

/-- What R165 says of the session between the calls of a frame of `n` bytes. -/
def PaSession.Between (n : Nat) (pa : PaSession) : Prop :=
  (pa.st = .payload → pa.bi < n ∨ (pa.bi = 0 ∧ pa.k = 0)) ∧
  (pa.st = .terminator → pa.bi = n ∧ pa.k = 0) ∧ pa.tc = 0

/-- The Protocol-B session between calls (R38 to R40). -/
def PbSession.Ok (p : Params) (pb : PbSession) : Prop :=
  (pb.st = .empty → pb.len = 0 ∧ pb.bi = 0 ∧ pb.k = 0) ∧
  (pb.st = .loaded → pb.bi < pb.len ∧ pb.len ≤ p.bOutCap)

/-- A channel: only an enabled one transmits, a configured one can stage a pair (R42, R264), and it is owned
exactly while it exists (R87). -/
def Channel.Ok (x : Channel) : Prop :=
  (x.busy = true → x.state = .enabled) ∧ (x.state ≠ .absent → 1 ≤ x.depth) ∧
  (∀ t, x.tx = some t → t.enc = .pa → t.len ≤ aMaxPayload) ∧ (x.state = .absent ↔ x.owner = none)

/-- The receiver's fields are in their ranges (R9), a frame awaiting consumption leaves the counters at
zero (R50, R233), and the bits not yet decoded of the current byte are zero (R46). -/
def Rx.Ok (p : Params) (rx : Rx) : Prop :=
  rx.tmr ≤ p.tmrMax ∧ rx.ref ≤ p.tmrMax ∧ rx.rxIdx ≤ rxCap ∧ rx.rxBufLen ≤ rxCap ∧
  (rx.booted = true → rx.rxBufLen = 0) ∧
  (rx.rxBufLen ≠ 0 → rx.rxIdx = 0 ∧ rx.rxBits = 0 ∧ rx.rxByte = 0) ∧
  rx.rxByte.toNat < 2 ^ rx.rxBits.val

/-- A byte space in canonical form and within its size (R70, R71). -/
def Memory.SpaceOk (p : Params) (m : Memory) (sp : Space) : Prop :=
  Bank.wf (m.bank sp) ∧ ∀ x ∈ m.bank sp, x.1 < spaceSize p sp

/-- A send in progress holds as many bytes as its space can, and while it waits, its channel
transmits for it (R172, R203). -/
def sendOk (s : State) (c : Chan) : Prop :=
  ∀ x, s.send c = some x →
    x.n ≤ spaceSize s.params (inputSpace c) ∧
    (x.stage = .blocked → ∃ t, (s.ch c).tx = some t ∧ t.caller = c)

/-- The safe states. -/
structure State.Ok (s : State) : Prop where
  /-- Protocol-A session -/
  pa : s.pa.Ok
  /-- Protocol-B session -/
  pb : s.pb.Ok s.params
  /-- both channels -/
  chan : ∀ c, (s.ch c).Ok
  /-- no two transmits share a pin (R318) -/
  pins : s.chA.busy = true → s.chB.busy = true → s.chA.pin ≠ s.chB.pin
  /-- receiver -/
  rx : s.rx.Ok s.params
  /-- the node has not left for the bootloader inside a critical section (R84, R223) -/
  crit : s.rx.booted = true → s.crit = false
  /-- byte spaces -/
  mem : ∀ sp, s.mem.SpaceOk s.params sp
  /-- the observed line -/
  line : lineWf s.obs.line
  /-- sends -/
  sends : ∀ c, sendOk s c

/-! ## Ownership -/

/-- The channel of an encoder's protocol. -/
def chanOfEnc : Enc → Chan
  | .pa => .a
  | .pb => .b

/-- The channel an operation acts on. -/
def channelUsed : Instr → Option Chan
  | .nibEnc _ => none
  | .pack2 _ _ => none
  | .pack _ _ _ _ _ _ => none
  | .paReset => none
  | .paResume _ _ => none
  | .pbFrame _ => none
  | .pbReset => none
  | .pbResume _ => none
  | .chConfig c _ _ _ _ _ => some c
  | .chEnable c => some c
  | .chTransmit c _ _ => some c
  | .chDisable c => some c
  | .chDelete c => some c
  | .rxReset => none
  | .rxTick => none
  | .rxFall => none
  | .rxRise => none
  | .rxOvf => none
  | .rxClaim => none
  | .rxReadLen => none
  | .rxReadBuf _ => none
  | .rxClearLen => none
  | .rxReadActive => none

/-- The encoder session an operation acts on, with its buffer (R72). -/
def sessionUsed : Instr → Option Enc
  | .nibEnc _ => none
  | .pack2 _ _ => none
  | .pack _ _ _ _ _ _ => some .pb
  | .paReset => some .pa
  | .paResume _ _ => some .pa
  | .pbFrame _ => some .pb
  | .pbReset => some .pb
  | .pbResume _ => some .pb
  | .chConfig _ _ _ _ _ _ => none
  | .chEnable _ => none
  | .chTransmit _ enc _ => some enc
  | .chDisable _ => none
  | .chDelete _ => none
  | .rxReset => none
  | .rxTick => none
  | .rxFall => none
  | .rxRise => none
  | .rxOvf => none
  | .rxClaim => none
  | .rxReadLen => none
  | .rxReadBuf _ => none
  | .rxClearLen => none
  | .rxReadActive => none

/-- A transmit that caller `y` began drives encoder `e`. -/
def transmitDrives (y : Chan) (e : Enc) (t : Option Transmit) : Bool :=
  match t with
  | some t => t.caller == y && t.enc == e
  | none => false

/-- Caller `y` owns the session of encoder `e` (R87; DEDUCED, assumption 35): it owns the channel of that
protocol, or a transmit it began drives the encoder. A send whose channel is not configured yet, or is deleted,
owns neither. -/
def ownsSession (s : State) (y : Chan) (e : Enc) : Bool :=
  decide ((s.ch (chanOfEnc e)).owner = some y) || transmitDrives y e s.chA.tx
    || transmitDrives y e s.chB.tx

/-- The operation acts on a channel or a session that the caller other than `x` owns. -/
def ownedByOther (s : State) (x : Chan) (i : Instr) : Bool :=
  (match channelUsed i with
    | some c => decide ((s.ch c).owner = some x.other)
    | none => false)
  || (match sessionUsed i with
    | some e => ownsSession s x.other e
    | none => false)

/-- The operation input `e` makes caller `x` issue: its word's, or its send's next. -/
def issuedBy (x : Chan) (s : State) (e : Event) : Option Instr :=
  match e with
  | .op ag word ports _ =>
      if ag = .txCaller x then
        match decode [word] ports with
        | .ok i => some i
        | .error _ => none
      else none
  | .sendStep c _ =>
      if c = x then
        match s.send c with
        | some y => sendOp s.params c y
        | none => none
      else none
  | .txResume _ _ _ => none
  | .txEnd _ _ => none
  | .readSource _ _ => none
  | .send _ _ _ => none
  | .critBegin => none
  | .critEnd => none
  | .powerOn _ => none

/-- Input `e` makes no caller reach for what the other owns (R87). -/
def WithinOwn (s : State) (e : Event) : Prop :=
  ∀ x i, issuedBy x s e = some i → ownedByOther s x i = false

/-- No two transmits drive one encoder session (R87). -/
def SinglyDriven (s : State) : Prop :=
  ∀ t u, s.chA.tx = some t → s.chB.tx = some u → t.enc ≠ u.enc

/-! ## Transmits and sends -/

/-- No transmit waits for pairs of encoder `e`: a resume word of `e` serves none. -/
def noneAwaits (s : State) (e : Enc) : Prop :=
  ∀ c t, (s.ch c).tx = some t → t.enc = e → t.staged = true

/-- Channel `c`'s transmit `t` waits for pairs of encoder `e`; channel A's comes first where both channels' do
(DESIGN CHOICE, assumption 11). -/
def awaits (s : State) (c : Chan) (t : Transmit) (e : Enc) : Prop :=
  (s.ch c).tx = some t ∧ t.enc = e ∧ t.staged = false ∧
    (c = .b → ∀ u, s.chA.tx = some u → u.enc = e → u.staged = true)

/-- Nothing keeps a send of caller `c` from its next step: no transmit of its own is in progress. -/
def freeToSend (s : State) (c : Chan) : Prop := ∀ d t, (s.ch d).tx = some t → t.caller ≠ c

/-! ## What is left unchanged -/

/-- The separate pieces of the state a frame speaks of. The outputs are not one: they hold the results
of the last step only (R55). -/
inductive Part where
  | params
  | pa
  | pb
  | ch (c : Chan)
  | rx
  | space (sp : Space)
  | crit
  | nboot
  | line (pin : Nat)
  | send (c : Chan)
  | issue
  | fresh
  | events
deriving DecidableEq, Repr

/-- A piece reads the same in both states; a byte space reads the same at every index, a line has carried
the same pairs in the same way. -/
def Part.Same (s t : State) : Part → Prop
  | .params => t.params = s.params
  | .pa => t.pa = s.pa
  | .pb => t.pb = s.pb
  | .ch c => t.ch c = s.ch c
  | .rx => t.rx = s.rx
  | .space sp => ∀ i, t.mem.byteAt sp i = s.mem.byteAt sp i
  | .crit => t.crit = s.crit
  | .nboot => t.obs.nboot = s.obs.nboot
  | .line pin => lineGet t.obs.line pin = lineGet s.obs.line pin
  | .send c => t.send c = s.send c
  | .issue => t.issue = s.issue
  | .fresh => t.fresh = s.fresh
  | .events => t.events = s.events

/-- Every piece but the listed ones reads the same. -/
def SameBut (ps : List Part) (s t : State) : Prop := ∀ q, q ∉ ps → Part.Same s t q

/-! ## Operands on their ports -/

/-- The ports carry the operands of an operation; ports it does not use carry anything (R117). -/
def carries (p : Ports) : Instr → Prop
  | .nibEnc v => p.v = v
  | .pack2 b0 b1 => p.b0 = b0 ∧ p.b1 = b1
  | .pack src src0 n dst dst0 dcap =>
      p.src = src ∧ p.src0 = src0 ∧ p.n = n ∧ p.dst = dst ∧ p.dst0 = dst0 ∧ p.dcap = dcap
  | .paReset => True
  | .paResume len budget => p.len = len ∧ p.budget = budget
  | .pbFrame n => p.n = n
  | .pbReset => True
  | .pbResume budget => p.budget = budget
  | .chConfig c carrier duty res depth pin =>
      p.c = c ∧ p.carrier = carrier ∧ p.duty = duty ∧ p.res = res ∧ p.depth = depth ∧ p.pin = pin
  | .chEnable c => p.c = c
  | .chTransmit c enc len => p.c = c ∧ p.enc = enc ∧ p.len = len
  | .chDisable c => p.c = c
  | .chDelete c => p.c = c
  | .rxReset => True
  | .rxTick => True
  | .rxFall => True
  | .rxRise => True
  | .rxOvf => True
  | .rxClaim => True
  | .rxReadLen => True
  | .rxReadBuf i => p.i = i
  | .rxClearLen => True
  | .rxReadActive => True

/-- The operation belongs to the receiving node: the `RX` units of R116. -/
def isReceiver (i : Instr) : Bool := decide (4 ≤ (opUnit (opWord i)).toNat)

/-! ## Streams and runs -/

/-- The same outcome with its next state, if it answers one, changed. -/
def mapNext (g : State → State) (o : StepOut State) : StepOut State := andThen o fun s => .next (g s)

/-- The bit of the byte at `j / 8` that pair `j` of a Protocol-A payload carries (R107). -/
def payloadBit (m : Memory) (j : Nat) : Bool := (m.byteAt .inA (j / 8)).getLsbD (j % 8)

/-- `stream(IN_A, N)` (R163). -/
def streamA (p : Params) (m : Memory) (n : Nat) : List Pair :=
  ((List.range (8 * n)).map fun j => if payloadBit m j then sym1 p else sym0 p) ++ [symT p]

/-- The bit of the byte at `j / 8` that pair `j` of a Protocol-B frame carries (R110). -/
def frameBit (m : Memory) (j : Nat) : Bool := (m.byteAt .outB (j / 8)).getLsbD (7 - j % 8)

/-- The pairs of a Protocol-B frame of `len` bytes (R200). -/
def streamB (p : Params) (m : Memory) (len : Nat) : List Pair :=
  (List.range (8 * len)).map fun j => if frameBit m j then bsym1 p else bsym0 p

/-- The packed groups of a byte string, two bytes at a time (R105, R146). -/
def packAll (p : Params) : List Byte → List Byte
  | b0 :: b1 :: bs =>
      (packTwo p b0 b1).1 :: (packTwo p b0 b1).2.1 :: (packTwo p b0 b1).2.2 :: packAll p bs
  | _ => []

/-- The Protocol-B frame of an input: preamble, start symbol, packed payload (R111). -/
def frameBytes (p : Params) (npre : Nat) (preByte : Byte) (bytes : List Byte) : List Byte :=
  List.replicate npre preByte ++ bytes.take 4 ++ packAll p (bytes.drop 4)

/-- The Protocol-B pairs of a byte string, each byte's most significant bit first (R109, R110). -/
def pairsB (p : Params) (bytes : List Byte) : List Pair :=
  bytes.flatMap fun x => (List.range 8).map fun k => if x.getLsbD (7 - k) then bsym1 p else bsym0 p

/-- How many pairs of the frame a Protocol-A session of an `n`-byte payload has emitted (R162). -/
def paPosition (n : Nat) (pa : PaSession) : Nat :=
  match pa.st with
  | .payload => 8 * pa.bi + pa.k.val
  | .terminator => 8 * n

/-- Operations one after the other, stopping at the first that answers no next state. -/
def runOps : List Instr → State → StepOut State
  | [], s => .next s
  | i :: is, s => andThen (exec i s) (runOps is)

/-- Inputs one after the other, stopping at the first that answers no next state. -/
def runInputs : List Event → State → StepOut State
  | [], s => .next s
  | e :: es, s => andThen (present e s) (runInputs es)

/-- Resume calls with the given budgets up to the one that answers `COMPLETE`: all pairs returned,
whether it was reached, and the last state. None if a call answers no next state. -/
def resumeCalls (call : Nat → Instr) : List Nat → State → Option (List Pair × Bool × State)
  | [], s => some ([], false, s)
  | b :: bs, s =>
      match exec (call b) s with
      | .next t =>
          match t.out.result with
          | .pairs out .complete => some (out, true, t)
          | .pairs out .yielded =>
              match resumeCalls call bs t with
              | some (rest, done, u) => some (out ++ rest, done, u)
              | none => none
          | _ => none
      | .fault _ => none
      | .refused _ => none

/-- The events of one pulse pair at the receiver: an active pulse of `a` ticks, then a gap of `g`
ticks (R243). -/
def pairOps (a g : Nat) : List Instr :=
  .rxFall :: (List.replicate a .rxTick ++ .rxRise :: List.replicate g .rxTick)

/-- A transmitter's duration in receiver ticks, where the reference pulse `P` lasts `pr` of them
(R243). -/
def receiverTicks (p : Params) (pr d : Nat) : Nat := d / p.pTicks * pr

/-- The events a stream of pairs makes at the receiver (R243). -/
def streamOps (p : Params) (pr : Nat) (xs : List Pair) : List Instr :=
  xs.flatMap fun x => pairOps (receiverTicks p pr x.d0) (receiverTicks p pr x.d1)

/-- The events of a frame of measured (pulse, gap) pairs, in receiver ticks, up to the rising edge that
ends its terminator pulse of `term` ticks (R244). -/
def measuredOps (pairs : List (Nat × Nat)) (term : Nat) : List Instr :=
  (pairs.flatMap fun x => pairOps x.1 x.2) ++ .rxFall :: (List.replicate term .rxTick ++ [.rxRise])

/-- The bounds of R244 on measured durations, for the bits they stand for, from the first pulse to the
terminator pulse: every pulse is at least one tick (R225: a pulse of 0 ticks leaves no reference), a
0-gap is at most twice its pulse, a 1-gap is longer, the next data pulse is at most twice the one
before it, the terminator is longer, and nothing reaches `tmrMax + 1`. The frame of an empty payload is
its terminator alone. -/
def tolerated (tmrMax : Nat) : List (Nat × Nat) → List Bool → Nat → Prop
  | [], [], term => term ≤ tmrMax
  | (p, g) :: xs, b :: bs, term =>
      1 ≤ p ∧ p ≤ tmrMax ∧ g ≤ tmrMax ∧ (b = true ↔ 2 * p < g) ∧
      match xs with
      | [] => bs = [] ∧ 2 * p < term ∧ term ≤ tmrMax
      | (q, _) :: _ => q ≤ 2 * p ∧ tolerated tmrMax xs bs term
  | _, _, _ => False

/-- The bits of a byte string, each byte's least significant bit first (R228). -/
def bitsOf (bytes : List Byte) : List Bool :=
  bytes.flatMap fun x => (List.range 8).map x.getLsbD

end Sys2Proof.Machine
end

