-- ==== Sys2Proof/Certificates/Slice0/Obligations.lean ====
section
/-! DEFINITION. What is claimed of the model, from the numbered rules of spec/. -/

open Sys2Proof Sys2Proof.Machine

/-! ## Operation words -/

/-- R116, R117, R119, R120: a byte string decodes to an operation exactly when it is the word the map
gives that operation, and the operands are those on its ports, whatever the other ports carry. -/
def Obligations.DecodeAndEncodeAgree : Prop :=
  ∀ (bytes : List Byte) (ports : Ports) (i : Instr),
    decode bytes ports = .ok i ↔ bytes = encode i ∧ carries ports i

/-- R118: a word outside the map is refused, and so is each operand outside its port's range. That this takes in
an empty source range of `PACK` that starts beyond its space is the model's choice (DESIGN CHOICE,
assumption 36). -/
def Obligations.UnusedWordsAndOperandsRefused : Prop :=
  (∀ (w : Byte) (ports : Ports) (ag : Agent) (f : Hw) (es : List Event) (s : State),
    w ∉ ([0x00, 0x01, 0x02, 0x10, 0x11, 0x20, 0x21, 0x22, 0x30, 0x31, 0x32, 0x33, 0x34, 0x40, 0x41, 0x42,
      0x43, 0x44, 0x50, 0x51, 0x52, 0x53, 0x54] : List Byte) →
    s.events = .op ag w ports f :: es → step s = .refused (.undecodable (.unusedWord w))) ∧
  (∀ (s : State) (v : Nat), 15 < v → exec (.nibEnc v) s = .refused .operandRange) ∧
  (∀ (s : State) (i : Nat), 10 ≤ i → exec (.rxReadBuf i) s = .refused .operandRange) ∧
  (∀ (s : State) (n b : Nat), s.params.queueDepth < b ∨ 512 < n →
    exec (.paResume n b) s = .refused .operandRange) ∧
  (∀ (s : State) (b : Nat), s.params.queueDepth < b → exec (.pbResume b) s = .refused .operandRange) ∧
  (∀ (s : State) (n : Nat), s.params.bInCap < n → exec (.pbFrame n) s = .refused .operandRange) ∧
  (∀ (s : State) (c : Chan) (n : Nat), 512 < n → exec (.chTransmit c .pa n) s = .refused .operandRange) ∧
  (∀ (s : State) (c : Chan) (carrier res pin : Nat) (duty : Duty),
    exec (.chConfig c carrier duty res 0 pin) s = .refused .operandRange) ∧
  (∀ (s : State) (src : Space) (src0 n dst0 dcap : Nat),
    spaceSize s.params src < src0 + n ∨ s.params.bOutCap < dst0 + dcap →
    exec (.pack src src0 n .outB dst0 dcap) s = .refused .operandRange)

/-- Words written out from R120's map, one of each unit at least, decode to their operations. -/
def Obligations.WordsOfEveryUnitDecode : Prop :=
  decode [0b00000000] { Ports.idle with v := 1 } = .ok (.nibEnc 1) ∧
  decode [0b00000001] { Ports.idle with b0 := 0x12, b1 := 0x34 } = .ok (.pack2 0x12 0x34) ∧
  decode [0b00010001] { Ports.idle with len := 1, budget := 4 } = .ok (.paResume 1 4) ∧
  decode [0b00100000] { Ports.idle with n := 6 } = .ok (.pbFrame 6) ∧
  decode [0b00110010] { Ports.idle with c := .b, enc := .pb } = .ok (.chTransmit .b .pb 0) ∧
  decode [0b01000010] Ports.idle = .ok .rxFall ∧
  decode [0b01010010] { Ports.idle with i := 3 } = .ok (.rxReadBuf 3) ∧
  decode [0b01010101] Ports.idle = .error (.unusedWord 0x55) ∧
  decode [0x40, 0x40] Ports.idle = .error (.wordLength 2)

/-- R85: when the next input is an operation word that decodes, issued by an agent that may issue it and is not
blocked, and no critical section masks it, the step is that operation's effect, with the input consumed and the
issuer and its draw latched. A `PACK` word is one only while no frame is loaded: R120 has it inside `PB_FRAME`
(DEDUCED, assumption 18). -/
def Obligations.StepRunsTheDecodedOperation : Prop :=
  ∀ (s : State) (ag : Agent) (w : Byte) (ports : Ports) (f : Hw) (es : List Event) (i : Instr),
    s.events = .op ag w ports f :: es → decode [w] ports = .ok i → mayIssue ag i = true →
    agentBlocked s ag = false → (w = 0x02 → s.pb.st = .empty) → (ag = .rxIsr → s.crit = false) →
    step s = exec i { s with events := es, issue := ⟨ag, f⟩ }

/-- R120, R308: a word issued by an agent its row does not list is refused. `PACK` is listed inside `PB_FRAME`,
which has no step while a frame is loaded (R195), so its word is then listed for nobody: the model's reading
(DEDUCED, assumption 18). -/
def Obligations.UnlistedAgentsRefused : Prop :=
  ∀ (s : State) (ag : Agent) (w : Byte) (ports : Ports) (f : Hw) (es : List Event),
    s.events = .op ag w ports f :: es →
    ((w ∈ ([0x02, 0x20, 0x30, 0x31, 0x32, 0x33, 0x34] : List Byte) ∧ ∀ c, ag ≠ .txCaller c) ∨
      (w ∈ ([0x10, 0x21] : List Byte) ∧ ag ≠ .txPeriph ∧ ∀ c, ag ≠ .txCaller c) ∨
      (w ∈ ([0x11, 0x22] : List Byte) ∧ ag ≠ .txPeriph) ∨
      (w = 0x40 ∧ ag ≠ .rxMain ∧ ag ≠ .nodeReset) ∨
      (w = 0x41 ∧ ag ≠ .env) ∨
      (w ∈ ([0x42, 0x43, 0x44] : List Byte) ∧ ag ≠ .rxIsr) ∨
      (w ∈ ([0x50, 0x51, 0x52, 0x53, 0x54] : List Byte) ∧ ag ≠ .rxMain) ∨
      (w = 0x02 ∧ s.pb.st = .loaded ∧ agentBlocked s ag = false)) →
    step s = .refused .wrongAgent

/-- R264: between the begin and the end step of a transmit its caller takes no step. Every word R120 lists
for it is refused as blocked, every other word is refused too, and so are its byte-source read, the start of
a send and the step of one. That such a step is refused is the model's reading (DEDUCED, assumption 12). -/
def Obligations.TransmittingCallerTakesNoStep : Prop :=
  ∀ (s : State) (c x : Chan) (t : Transmit) (e : Event) (es : List Event),
    (s.ch c).tx = some t → t.caller = x → s.events = e :: es →
    (∀ w ports f, e = .op (.txCaller x) w ports f →
      (∃ r, step s = .refused r) ∧
      (w ∈ ([0x00, 0x01, 0x02, 0x10, 0x20, 0x21, 0x30, 0x31, 0x32, 0x33, 0x34] : List Byte) →
        step s = .refused .callerBlocked)) ∧
    (∀ bytes, e = .readSource x bytes → step s = .refused .callerBlocked) ∧
    (∀ bytes order, e = .send x bytes order → step s = .refused .callerBlocked) ∧
    (∀ f, e = .sendStep x f → step s = .refused .noSendStep)

/-- R84, R309: inside a critical section of the main loop no handler runs, the timer still ticks, and
after its end the handler runs. Every other input does what it would do outside one: a main-loop access, a
step of the transmitting node, a tick, and any other. That a begin and an end step of their own mark the
section, that each may come again, and that they change the mark alone, is the model's reading (DEDUCED,
assumption 26). -/
def Obligations.CriticalSectionMasksHandlers : Prop :=
  (∀ (s : State) (w : Byte) (i : Instr) (ports : Ports) (f : Hw) (es : List Event),
    (w, i) ∈ ([(0x42, .rxFall), (0x43, .rxRise), (0x44, .rxOvf)] : List (Byte × Instr)) →
    s.rx.booted = false →
    (∃ t, present .critBegin s = .next t ∧ t.crit = true ∧ SameBut [.crit] s t) ∧
    (∃ t, present .critEnd s = .next t ∧ t.crit = false ∧ SameBut [.crit] s t) ∧
    (s.crit = true → present (.op .rxIsr w ports f) s = .refused .criticalSection) ∧
    (s.crit = true → ∃ t, present (.op .env 0x41 ports f) s = .next t ∧ t.crit = true ∧
      t.rx.tmr = if s.rx.tmr = s.params.tmrMax then 0 else s.rx.tmr + 1) ∧
    (s.events = .critEnd :: .op .rxIsr w ports f :: es → ∃ t, step s = .next t ∧
      step t = exec i { s with crit := false, events := es, issue := ⟨.rxIsr, f⟩, out := ⟨.none, false⟩ })) ∧
  ∀ (s : State) (e : Event), (∀ w ports f, e ≠ .op .rxIsr w ports f) → e ≠ .critBegin → e ≠ .critEnd →
    e ≠ .powerOn .receiving →
    present e (s.setCrit true) = mapNext (·.setCrit true) (present e (s.setCrit false))

/-! ## Nibble codec -/

/-- R142: `NIB_ENC` answers the table's entry for every nibble, writes nothing, and refuses a value that
is no nibble. -/
def Obligations.NibEncReturnsTableEntry : Prop :=
  ∀ (s : State) (v : Nat),
    (∀ h : v < 16, ∃ t, exec (.nibEnc v) s = .next t ∧
      t.out = ⟨.code (s.params.nibTable[v]'h), false⟩ ∧ SameBut [] s t) ∧
    (15 < v → exec (.nibEnc v) s = .refused .operandRange)

/-- R105, R145: the three bytes of `PACK2`, each written from the four code words. -/
def Obligations.PackTwoReturnsPackedGroup : Prop :=
  ∀ (s : State) (b0 b1 : Byte),
    let code := fun (v : Nibble) => (s.params.nibTable.get v.toFin).setWidth 8
    let ta := code (b0.extractLsb' 4 4)
    let tb := code (b0.extractLsb' 0 4)
    let tc := code (b1.extractLsb' 4 4)
    let td := code (b1.extractLsb' 0 4)
    ∃ t, exec (.pack2 b0 b1) s = .next t ∧
      t.out = ⟨.group ((ta <<< 2) ||| (tb >>> 4)) (((tb &&& 0xF) <<< 4) ||| (tc >>> 2))
        (((tc &&& 0x3) <<< 6) ||| td), false⟩ ∧
      SameBut [] s t

/-- R149: the packed bytes give back each code word, and so the two input bytes. -/
def Obligations.PackedGroupIsInvertible : Prop :=
  ∀ (p : Params) (b0 b1 : Byte),
    let o := packTwo p b0 b1
    nibCode p (hiNibble b0) = o.1.extractLsb' 2 6 ∧
    nibCode p (loNibble b0) = o.1.extractLsb' 0 2 ++ o.2.1.extractLsb' 4 4 ∧
    nibCode p (hiNibble b1) = o.2.1.extractLsb' 0 4 ++ o.2.2.extractLsb' 6 2 ∧
    nibCode p (loNibble b1) = o.2.2.extractLsb' 0 6 ∧
    ∀ c0 c1 : Byte, packTwo p c0 c1 = o → c0 = b0 ∧ c1 = b1

/-- R146, R147: `PACK` of an even length that fits answers `OK` with three bytes
written for two, each group where R147 puts it, and changes no byte but those. Where the source overlaps the
bytes written, the groups read what the earlier groups left, and only the places are claimed. -/
def Obligations.PackWritesEveryGroup : Prop :=
  ∀ (s : State) (src : Space) (src0 n dst0 dcap : Nat),
    wellFormed s.params (.pack src src0 n .outB dst0 dcap) = true → s.mem.SpaceOk s.params .outB →
    n % 2 = 0 → 3 * (n / 2) ≤ dcap →
    ∃ t, exec (.pack src src0 n .outB dst0 dcap) s = .next t ∧
      t.out = ⟨.packed .ok (3 * (n / 2)), false⟩ ∧
      SameBut [.space .outB] s t ∧
      (∀ i, i < dst0 ∨ dst0 + 3 * (n / 2) ≤ i → t.mem.byteAt .outB i = s.mem.byteAt .outB i) ∧
      (src ≠ .outB ∨ src0 + n ≤ dst0 ∨ dst0 + 3 * (n / 2) ≤ src0 → ∀ g, g < n / 2 →
        (t.mem.byteAt .outB (dst0 + 3 * g), t.mem.byteAt .outB (dst0 + 3 * g + 1),
            t.mem.byteAt .outB (dst0 + 3 * g + 2))
          = packTwo s.params (s.mem.byteAt src (src0 + 2 * g)) (s.mem.byteAt src (src0 + 2 * g + 1)))

/-- R146: an odd length is `E_ALIGN` with nothing written, before capacity is looked at; an even length
that does not fit is `E_CAPACITY`, with the bytes of the groups before the failing one counted, and no
space but `OUT_B` changed (its content is any value, R148). A source in the receiver's buffer and a
destination other than `OUT_B` are refused: the model's choice (DESIGN CHOICE, assumption 18). -/
def Obligations.PackRejectsOddOrTooLong : Prop :=
  (∀ (s : State) (src dst : Space) (src0 n dst0 dcap : Nat), src = .rxBuf ∨ dst ≠ .outB →
    exec (.pack src src0 n dst dst0 dcap) s = .refused .operandRange) ∧
  ∀ (s : State) (src : Space) (src0 n dst0 dcap : Nat),
    wellFormed s.params (.pack src src0 n .outB dst0 dcap) = true →
    (n % 2 = 1 → ∃ t, exec (.pack src src0 n .outB dst0 dcap) s = .next t ∧
      t.out = ⟨.packed .eAlign 0, false⟩ ∧ SameBut [] s t) ∧
    (s.mem.SpaceOk s.params .outB → n % 2 = 0 → dcap < 3 * (n / 2) →
      ∃ t, exec (.pack src src0 n .outB dst0 dcap) s = .next t ∧
      t.out = ⟨.packed .eCapacity (3 * (dcap / 3)), false⟩ ∧ SameBut [.space .outB, .fresh] s t)

/-! ## Protocol A -/

/-- R160: `PA_RESET` clears the session in every state, changes nothing else, and is idempotent. Its word is
legal in every state: the peripheral's, and that of every caller that may take a step, whoever owns the session
and with or without a channel, a send or a transmit. -/
def Obligations.PaResetClearsTheSession : Prop :=
  (∀ s : State, ∃ t, exec .paReset s = .next t ∧ t.out = ⟨.none, false⟩ ∧
    t.pa = ⟨.payload, 0, 0, 0⟩ ∧ SameBut [.pa] s t ∧ exec .paReset t = .next t) ∧
  ∀ (s : State) (ag : Agent) (ports : Ports) (f : Hw) (es : List Event),
    s.events = .op ag 0x10 ports f :: es →
    ag = .txPeriph ∨ (∃ x, ag = .txCaller x ∧ callerBlocked s x = false) →
    ∃ t, step s = .next t ∧ t.out = ⟨.none, false⟩ ∧ t.pa = ⟨.payload, 0, 0, 0⟩ ∧
      SameBut [.pa, .issue, .events] s t

/-- R161 to R163: one `PA_RESUME` emits the next pairs of the frame's stream, as many as the budget
allows; it answers `COMPLETE` exactly when that reaches the terminator, with the session back at its
initial value, and otherwise leaves the session at the first pair not yet emitted, its copy cursor as it
was. Outside a transmit that is all it changes. As the resume step of a transmit that waits for pairs of
`PA` (R264) it also puts them on the channel's line, with the channel's tick rate and carrier, where `f` is
drawn as `OK`; where it is drawn as `E_HW` the transmit ends instead, and a budget above the channel's depth
is refused (DEDUCED, assumption 15). That the word is the transmit's own step, channel A's
first where two transmits drive `PA` (a breach of R87), and outside one sends nothing, is the model's choice
(assumption 11); DEDUCED is what a session at or beyond the payload's end does, a caller's breach of
R36: it has only the terminator left (assumption 21). -/
def Obligations.PaResumeEmitsTheNextPairs : Prop :=
  ∀ (s : State) (n b : Nat), n ≤ 512 → b ≤ s.params.queueDepth →
    let at_ := min (paPosition n s.pa) (8 * n)
    let pairs := ((streamA s.params s.mem n).drop at_).take b
    ∃ st pa',
      (st = .complete ↔ 8 * n + 1 - at_ ≤ b) ∧ (st = .complete → pa' = ⟨.payload, 0, 0, 0⟩) ∧
      (st = .yielded → min (paPosition n pa') (8 * n) = at_ + b ∧ pa'.tc = s.pa.tc) ∧
      (noneAwaits s .pa → ∃ t, exec (.paResume n b) s = .next t ∧ t.out = ⟨.pairs pairs st, false⟩ ∧
        t.pa = pa' ∧ SameBut [.pa] s t) ∧
      ∀ c x, awaits s c x .pa →
        (s.issue.f = .ok → b ≤ (s.ch c).depth → ∃ t, exec (.paResume n b) s = .next t ∧
          t.out = ⟨.pairs pairs st, false⟩ ∧ t.pa = pa' ∧
          t.ch c = { s.ch c with tx := some { x with staged := decide (st = .complete) } } ∧
          (lineWf s.obs.line → lineGet t.obs.line (s.ch c).pin = lineGet s.obs.line (s.ch c).pin ++
            pairs.map fun y => ⟨y, (s.ch c).resHz, (s.ch c).carrierHz, (s.ch c).duty⟩) ∧
          SameBut [.pa, .ch c, .line (s.ch c).pin] s t) ∧
        (s.issue.f = .ok → (s.ch c).depth < b → exec (.paResume n b) s = .refused .operandRange) ∧
        (s.issue.f = .eHw → ∃ t, exec (.paResume n b) s = .next t ∧ t.out = ⟨.status .eHw, false⟩ ∧
          t.ch c = { s.ch c with tx := none } ∧ SameBut [.ch c, .send c] s t)

/-- R163, R164: from a reset session, outside a transmit, whatever the budgets of the calls, what they
return joined up to `COMPLETE` is the beginning of the frame's `8N + 1` pairs, as long as the budgets' sum:
none twice, none skipped, and `COMPLETE` exactly when the sum covers the frame. -/
def Obligations.PaResumptionLaw : Prop :=
  ∀ (s : State) (n : Nat) (budgets : List Nat), n ≤ 512 →
    (∀ b ∈ budgets, b ≤ s.params.queueDepth) → s.pa = ⟨.payload, 0, 0, 0⟩ → noneAwaits s .pa →
    (streamA s.params s.mem n).length = 8 * n + 1 ∧
    ∃ t, resumeCalls (.paResume n) budgets s
        = some ((streamA s.params s.mem n).take budgets.sum, decide (8 * n + 1 ≤ budgets.sum), t) ∧
      SameBut [.pa] s t ∧
      (8 * n + 1 ≤ budgets.sum → t.pa = ⟨.payload, 0, 0, 0⟩)

/-- R165: between the calls of a frame of `n` bytes the session is as the rule says: so after `PA_RESET`,
and again after every `PA_RESUME` with the same `n`, whatever its budget, in a transmit and outside one. -/
def Obligations.PaSessionBetweenCalls : Prop :=
  ∀ (s : State) (n b : Nat), n ≤ 512 → b ≤ s.params.queueDepth →
    (∃ t, exec .paReset s = .next t ∧ t.pa.Between n) ∧
    (s.pa.Between n → (noneAwaits s .pa → ∃ t, exec (.paResume n b) s = .next t) ∧
      ∀ t, exec (.paResume n b) s = .next t → t.pa.Between n)

/-- R173, R204: how long a frame of each protocol lasts. -/
def Obligations.FrameLineTimes : Prop :=
  ∀ (p : Params) (m : Memory) (n : Nat),
    lineTicks (streamA p m n)
      = (2 * ((List.range (8 * n)).filter fun j => !payloadBit m j).length
          + 5 * ((List.range (8 * n)).filter fun j => payloadBit m j).length + 4) * p.pTicks ∧
    lineTicks (streamB p m n) = 16 * n * p.bHbTicks

/-- R100, R102: every duration of every pair the encoders emit is at least one tick and at most
`DUR_MAX`, for every admissible choice of the parameters. -/
def Obligations.DurationsFitTheHardware : Prop :=
  ∀ (p : Params) (m : Memory) (n len : Nat) (x : Pair), x ∈ streamA p m n ++ streamB p m len →
    1 ≤ x.d0 ∧ x.d0 ≤ p.durMax ∧ 1 ≤ x.d1 ∧ x.d1 ≤ p.durMax

/-! ## Protocol B -/

/-- R111, R195, R196: from an even payload that fits, `PB_FRAME` builds the frame: preamble, start symbol
verbatim, packed payload, at the places R111 gives; the session is loaded at its first bit; no other byte
changes. -/
def Obligations.PbFrameBuildsTheFrame : Prop :=
  ∀ (s : State) (n : Nat), s.pb.st = .empty → s.mem.SpaceOk s.params .outB → n ≤ s.params.bInCap →
    4 ≤ n → (n - 4) % 2 = 0 → s.pb.npre + 4 + 3 * ((n - 4) / 2) ≤ s.params.bOutCap →
    ∃ t, exec (.pbFrame n) s = .next t ∧ t.out = ⟨.status .ok, false⟩ ∧
      SameBut [.pb, .space .outB] s t ∧
      t.pb = { s.pb with st := .loaded, len := s.pb.npre + 4 + 3 * ((n - 4) / 2), bi := 0, k := 0 } ∧
      (∀ j, j < s.pb.npre → t.mem.byteAt .outB j = s.pb.preByte) ∧
      (∀ j, j < 4 → t.mem.byteAt .outB (s.pb.npre + j) = s.mem.byteAt .inB j) ∧
      (∀ g, g < (n - 4) / 2 →
        (t.mem.byteAt .outB (s.pb.npre + 4 + 3 * g), t.mem.byteAt .outB (s.pb.npre + 5 + 3 * g),
            t.mem.byteAt .outB (s.pb.npre + 6 + 3 * g))
          = packTwo s.params (s.mem.byteAt .inB (4 + 2 * g)) (s.mem.byteAt .inB (5 + 2 * g))) ∧
      (∀ i, t.pb.len ≤ i → t.mem.byteAt .outB i = s.mem.byteAt .outB i)

/-- R191 to R195: an input shorter than the start symbol or with an odd payload is `E_ALIGN`, one that
does not fit is `E_CAPACITY`, alignment first; the session is emptied and nothing else changes, `OUT_B` least
of all: after `E_CAPACITY` that is the model's reading of R195 against U13 (DEDUCED, assumption 17). While a
frame is loaded `PB_FRAME` is refused. -/
def Obligations.PbFrameRejectsBeforeWriting : Prop :=
  ∀ (s : State) (n : Nat), n ≤ s.params.bInCap →
    (s.pb.st = .loaded → exec (.pbFrame n) s = .refused .frameLoaded) ∧
    (s.pb.st = .empty → n < 4 ∨ (n - 4) % 2 = 1 → ∃ t, exec (.pbFrame n) s = .next t ∧
      t.out = ⟨.status .eAlign, false⟩ ∧ t.pb = { s.pb with st := .empty, len := 0 } ∧ SameBut [.pb] s t) ∧
    (s.pb.st = .empty → 4 ≤ n → (n - 4) % 2 = 0 →
      s.params.bOutCap < s.pb.npre + 4 + 3 * ((n - 4) / 2) → ∃ t, exec (.pbFrame n) s = .next t ∧
      t.out = ⟨.status .eCapacity, false⟩ ∧ t.pb = { s.pb with st := .empty, len := 0 } ∧ SameBut [.pb] s t)

/-- R198: `PB_RESET` empties the session, keeps its configuration and everything else, and is idempotent. Its
word is legal in every state: the peripheral's, and that of every caller that may take a step, whoever owns the
session, mid-frame too, and with or without a channel, a send or a transmit; and so is the reset that ends a
send, whatever the other caller has configured since. -/
def Obligations.PbResetEmptiesTheSession : Prop :=
  (∀ s : State, ∃ t, exec .pbReset s = .next t ∧ t.out = ⟨.none, false⟩ ∧
    t.pb = ⟨.empty, 0, 0, 0, s.pb.npre, s.pb.preByte⟩ ∧ SameBut [.pb] s t ∧ exec .pbReset t = .next t) ∧
  (∀ (s : State) (ag : Agent) (ports : Ports) (f : Hw) (es : List Event),
    s.events = .op ag 0x21 ports f :: es →
    ag = .txPeriph ∨ (∃ x, ag = .txCaller x ∧ callerBlocked s x = false) →
    ∃ t, step s = .next t ∧ t.out = ⟨.none, false⟩ ∧
      t.pb = ⟨.empty, 0, 0, 0, s.pb.npre, s.pb.preByte⟩ ∧ SameBut [.pb, .issue, .events] s t) ∧
  ∀ (s : State) (x : Send) (f : Hw), s.sendB = some x → x.stage = .release → freeToSend s .b →
    ∃ t, present (.sendStep .b f) s = .next t ∧ t.sendB = none ∧
      t.out = ⟨.sent (if x.failed then .eHw else .ok) x.warn, false⟩ ∧
      t.pb = ⟨.empty, 0, 0, 0, s.pb.npre, s.pb.preByte⟩ ∧ SameBut [.pb, .send .b, .issue] s t

/-- R199: one `PB_RESUME` emits the next pairs of the frame, as many as the budget allows; it answers
`COMPLETE` exactly when none is left, with the session emptied, and otherwise leaves the cursor at the
first pair not yet emitted. With no frame it answers `COMPLETE` with no pair. Outside a transmit that is all
it changes. As the resume step of a transmit that waits for pairs of `PB` (R264) it also puts them on the
channel's line, with the channel's tick rate and carrier, where `f` is drawn as `OK`; where it is drawn as
`E_HW` the transmit ends instead, and a budget above the channel's depth is refused (DEDUCED, assumption 15).
That the word is the transmit's own step, channel A's first where two transmits drive `PB` (a breach of R87),
and outside one sends nothing, is the model's choice (assumption 11). -/
def Obligations.PbResumeEmitsTheNextPairs : Prop :=
  ∀ (s : State) (b : Nat), b ≤ s.params.queueDepth → s.pb.len ≤ s.params.bOutCap →
    let at_ := 8 * s.pb.bi + s.pb.k.val
    let pairs := ((streamB s.params s.mem s.pb.len).drop at_).take b
    ∃ st pb',
      (st = .complete ↔ 8 * s.pb.len - at_ ≤ b) ∧
      (st = .complete → pb' = ⟨.empty, 0, 0, 0, s.pb.npre, s.pb.preByte⟩) ∧
      (st = .yielded → pb' = { s.pb with bi := pb'.bi, k := pb'.k } ∧ 8 * pb'.bi + pb'.k.val = at_ + b) ∧
      (noneAwaits s .pb → ∃ t, exec (.pbResume b) s = .next t ∧ t.out = ⟨.pairs pairs st, false⟩ ∧
        t.pb = pb' ∧ SameBut [.pb] s t) ∧
      ∀ c x, awaits s c x .pb →
        (s.issue.f = .ok → b ≤ (s.ch c).depth → ∃ t, exec (.pbResume b) s = .next t ∧
          t.out = ⟨.pairs pairs st, false⟩ ∧ t.pb = pb' ∧
          t.ch c = { s.ch c with tx := some { x with staged := decide (st = .complete) } } ∧
          (lineWf s.obs.line → lineGet t.obs.line (s.ch c).pin = lineGet s.obs.line (s.ch c).pin ++
            pairs.map fun y => ⟨y, (s.ch c).resHz, (s.ch c).carrierHz, (s.ch c).duty⟩) ∧
          SameBut [.pb, .ch c, .line (s.ch c).pin] s t) ∧
        (s.issue.f = .ok → (s.ch c).depth < b → exec (.pbResume b) s = .refused .operandRange) ∧
        (s.issue.f = .eHw → ∃ t, exec (.pbResume b) s = .next t ∧ t.out = ⟨.status .eHw, false⟩ ∧
          t.ch c = { s.ch c with tx := none } ∧ SameBut [.ch c, .send c] s t)

/-- R200: from a loaded frame of `L` bytes at its first bit, outside a transmit, whatever the budgets of the
calls, what they return joined up to `COMPLETE` is the beginning of the frame's `8 L` pairs, as long as the
budgets' sum, and `COMPLETE` comes exactly when the sum covers the frame. -/
def Obligations.PbResumptionLaw : Prop :=
  ∀ (s : State) (budgets : List Nat), s.pb.st = .loaded → 0 < s.pb.len → s.pb.len ≤ s.params.bOutCap →
    s.pb.bi = 0 → s.pb.k = 0 → (∀ b ∈ budgets, b ≤ s.params.queueDepth) → noneAwaits s .pb →
    (streamB s.params s.mem s.pb.len).length = 8 * s.pb.len ∧
    ∃ t, resumeCalls .pbResume budgets s
        = some ((streamB s.params s.mem s.pb.len).take budgets.sum,
            decide (8 * s.pb.len ≤ budgets.sum), t) ∧
      SameBut [.pb] s t ∧
      (8 * s.pb.len ≤ budgets.sum → t.pb = ⟨.empty, 0, 0, 0, s.pb.npre, s.pb.preByte⟩)

/-- R163, R200, R270, R348: whenever budgets of at least one pair come infinitely often, some finite
number of resume calls outside a transmit reaches `COMPLETE`, and they have returned the whole frame. -/
def Obligations.FairBudgetsReachCompletion : Prop :=
  ∀ (s : State) (n : Nat) (f : Nat → Nat), (∀ k, f k ≤ s.params.queueDepth) →
    (∀ m, ∃ k, m ≤ k ∧ 1 ≤ f k) →
    (n ≤ 512 → s.pa = ⟨.payload, 0, 0, 0⟩ → noneAwaits s .pa →
      ∃ k t, resumeCalls (.paResume n) ((List.range k).map f) s
        = some (streamA s.params s.mem n, true, t)) ∧
    (s.pb.st = .loaded → 0 < s.pb.len → s.pb.len ≤ s.params.bOutCap → s.pb.bi = 0 → s.pb.k = 0 →
      noneAwaits s .pb → ∃ k t, resumeCalls .pbResume ((List.range k).map f) s
        = some (streamB s.params s.mem s.pb.len, true, t))

/-! ## Transmit channel -/

/-- R262: `CH_CONFIG` of an absent channel: on `OK` the channel is configured, disabled and not busy, and its
caller's own; on `E_HW` nothing changes. A channel that is not absent is refused, so also one that a caller
owns. That it is so for every
carrier and every depth from 1 on, beyond the values R42 lists, is the model's reading of R262 (DEDUCED,
assumption 16), and that the channel is its caller's until `CH_DELETE` is that of R87 (DEDUCED,
assumption 35). -/
def Obligations.ChConfigConfigures : Prop :=
  ∀ (s : State) (c x : Chan) (carrier res depth pin : Nat) (duty : Duty), s.issue.agent = .txCaller x →
    1 ≤ depth →
    ((s.ch c).state = .absent → s.issue.f = .ok →
      ∃ t, exec (.chConfig c carrier duty res depth pin) s = .next t ∧ t.out = ⟨.status .ok, false⟩ ∧
        t.ch c = ⟨.disabled, carrier, duty, res, depth, pin, none, some x⟩ ∧ (t.ch c).busy = false ∧
        SameBut [.ch c] s t) ∧
    ((s.ch c).state = .absent → s.issue.f = .eHw →
      ∃ t, exec (.chConfig c carrier duty res depth pin) s = .next t ∧ t.out = ⟨.status .eHw, false⟩ ∧
        SameBut [] s t) ∧
    ((s.ch c).state ≠ .absent →
      exec (.chConfig c carrier duty res depth pin) s = .refused .lifecycle)

/-- R263: `CH_ENABLE` of a disabled channel enables it on `OK` and changes nothing on `E_HW`; any other
channel is refused. -/
def Obligations.ChEnableEnables : Prop :=
  ∀ (s : State) (c : Chan),
    ((s.ch c).state = .disabled → s.issue.f = .ok →
      ∃ t, exec (.chEnable c) s = .next t ∧ t.out = ⟨.status .ok, false⟩ ∧
        t.ch c = { s.ch c with state := .enabled } ∧ SameBut [.ch c] s t) ∧
    ((s.ch c).state = .disabled → s.issue.f = .eHw →
      ∃ t, exec (.chEnable c) s = .next t ∧ t.out = ⟨.status .eHw, false⟩ ∧ SameBut [] s t) ∧
    ((s.ch c).state ≠ .disabled → exec (.chEnable c) s = .refused .lifecycle)

/-- R264, R271, R318: the begin step of `CH_TRANSMIT`. An enabled channel that is not busy, with a frame
loaded if the encoder is `PB`, becomes busy for its caller, unless the other channel is transmitting on
the same pin: that is the fault `PIN_CONFLICT`. Where a precondition fails it is refused. -/
def Obligations.ChTransmitBegins : Prop :=
  ∀ (s : State) (c x : Chan) (enc : Enc) (n : Nat), s.issue.agent = .txCaller x → n ≤ 512 →
    ((s.ch c).state ≠ .enabled → exec (.chTransmit c enc n) s = .refused .lifecycle) ∧
    ((s.ch c).state = .enabled → (s.ch c).busy = true →
      exec (.chTransmit c enc n) s = .refused .channelBusy) ∧
    ((s.ch c).state = .enabled → (s.ch c).busy = false → enc = .pb → s.pb.st = .empty →
      exec (.chTransmit c enc n) s = .refused .frameNotLoaded) ∧
    ((s.ch c).state = .enabled → (s.ch c).busy = false → (enc = .pb → s.pb.st = .loaded) →
      if (s.ch c.other).busy = true ∧ (s.ch c.other).pin = (s.ch c).pin then
        exec (.chTransmit c enc n) s = .fault .pinConflict
      else ∃ t, exec (.chTransmit c enc n) s = .next t ∧ t.out = ⟨.none, false⟩ ∧
        (t.ch c).busy = true ∧ t.ch c = { s.ch c with tx := some ⟨enc, n, x, false⟩ } ∧
        SameBut [.ch c] s t)

/-- R265: `CH_DISABLE` leaves an enabled channel disabled whatever is drawn, is a no-op answering `OK` on
a disabled one, and is refused on an absent or busy one. -/
def Obligations.ChDisableDisables : Prop :=
  ∀ (s : State) (c : Chan),
    ((s.ch c).state = .enabled → (s.ch c).busy = false →
      ∃ t, exec (.chDisable c) s = .next t ∧
        t.out = ⟨.status (if s.issue.f = .ok then .ok else .eHw), false⟩ ∧
        t.ch c = { s.ch c with state := .disabled } ∧ SameBut [.ch c] s t) ∧
    ((s.ch c).state = .disabled → (s.ch c).busy = false →
      ∃ t, exec (.chDisable c) s = .next t ∧ t.out = ⟨.status .ok, false⟩ ∧ SameBut [] s t) ∧
    ((s.ch c).state = .absent → exec (.chDisable c) s = .refused .lifecycle) ∧
    ((s.ch c).state ≠ .absent → (s.ch c).busy = true → exec (.chDisable c) s = .refused .channelBusy)

/-- R266: `CH_DELETE` leaves a disabled channel absent whatever is drawn, and nobody's (assumption 35); any
other channel is refused.
What the absent channel's configuration reads as is not claimed (R42). -/
def Obligations.ChDeleteDeletes : Prop :=
  ∀ (s : State) (c : Chan),
    ((s.ch c).state = .disabled →
      ∃ t, exec (.chDelete c) s = .next t ∧
        t.out = ⟨.status (if s.issue.f = .ok then .ok else .eHw), false⟩ ∧
        (t.ch c).state = .absent ∧ (t.ch c).busy = false ∧ (t.ch c).owner = none ∧
        SameBut [.ch c, .fresh] s t) ∧
    ((s.ch c).state ≠ .disabled → exec (.chDelete c) s = .refused .lifecycle)

/-- R264, R268, R269: however the peripheral budgets the resume steps of a transmit, its pin's line gains
the beginning of the frame's stream as long as the budgets' sum, with the channel's tick rate and carrier on
every active segment; no other line changes, and the transmit is staged to its end exactly when the sum
covers the frame. -/
def Obligations.TransmitPutsTheStreamOnTheLine : Prop :=
  (∀ (s : State) (c : Chan) (tx : Transmit) (budgets : List Nat),
    let sent := fun y : Pair => (⟨y, (s.ch c).resHz, (s.ch c).carrierHz, (s.ch c).duty⟩ : Sent)
    lineWf s.obs.line → (s.ch c).tx = some tx → tx.staged = false →
    (∀ b ∈ budgets, b ≤ (s.ch c).depth ∧ b ≤ s.params.queueDepth) →
    (tx.enc = .pa → tx.len ≤ 512 → s.pa = ⟨.payload, 0, 0, 0⟩ →
      budgets.dropLast.sum < 8 * tx.len + 1 →
      ∃ t, runInputs (budgets.map (.txResume c .ok)) s = .next t ∧
        (∀ q, lineGet t.obs.line q = lineGet s.obs.line q ++
          if q = (s.ch c).pin then ((streamA s.params s.mem tx.len).take budgets.sum).map sent else []) ∧
        t.ch c = { s.ch c with tx := some { tx with staged := decide (8 * tx.len + 1 ≤ budgets.sum) } }) ∧
    (tx.enc = .pb → 0 < s.pb.len → s.pb.len ≤ s.params.bOutCap → s.pb.bi = 0 → s.pb.k = 0 →
      budgets.dropLast.sum < 8 * s.pb.len →
      ∃ t, runInputs (budgets.map (.txResume c .ok)) s = .next t ∧
        (∀ q, lineGet t.obs.line q = lineGet s.obs.line q ++
          if q = (s.ch c).pin then ((streamB s.params s.mem s.pb.len).take budgets.sum).map sent else []) ∧
        t.ch c = { s.ch c with tx := some { tx with staged := decide (8 * s.pb.len ≤ budgets.sum) } })) ∧
  ∀ y : Sent,
    let carrier := fun l : Level => if l = .act ∧ y.carrierHz ≠ 0 then some (y.carrierHz, y.duty) else none
    y.segments = [⟨y.pair.l0, y.pair.d0, y.resHz, carrier y.pair.l0⟩,
      ⟨y.pair.l1, y.pair.d1, y.resHz, carrier y.pair.l1⟩]

/-- R264, R268: a resume step that draws `E_HW` ends the transmit with that status and sends nothing
more; once staged to its end, only the end step is taken, and it answers what is drawn. Either way the
channel is not busy afterwards, its line rests at `INACT` unless the other channel transmits there (R269), and
nothing changes but the channel and a send that waits for the transmit. That the line has no level of its own in
the state during the transmit is the model's choice (DESIGN CHOICE, assumption 27). That a waiting send goes on to
disable the channel in this same step, with the failure noted, and one that does not wait stays as it was, is the
model's reading of R172 and R203 (DEDUCED, assumption 31). -/
def Obligations.TransmitEndsWithTheDrawnStatus : Prop :=
  ∀ (s : State) (c : Chan) (tx : Transmit) (f : Hw) (b : Nat), (s.ch c).tx = some tx →
    let ended := fun (st : Status) (t : State) =>
      t.out = ⟨.status st, false⟩ ∧ t.ch c = { s.ch c with tx := none } ∧ (t.ch c).busy = false ∧
      (restLevel s (s.ch c).pin = none ∧ ((s.ch c.other).busy = false ∨ (s.ch c.other).pin ≠ (s.ch c).pin →
        restLevel t (s.ch c).pin = some .inact)) ∧
      (∀ x, s.send c = some x → t.send c = some (if x.stage = .blocked then
        { x with stage := .disable, failed := x.failed || decide (st = .eHw) } else x)) ∧
      (s.send c = none → t.send c = none) ∧ SameBut [.ch c, .send c] s t
    (tx.staged = false → ∃ t, present (.txResume c .eHw b) s = .next t ∧ ended .eHw t) ∧
    (tx.staged = false → present (.txEnd c f) s = .refused .noTransmitStep) ∧
    (tx.staged = true → ∃ t, present (.txEnd c f) s = .next t ∧
      ended (if f = .ok then .ok else .eHw) t) ∧
    (tx.staged = true → present (.txResume c f b) s = .refused .noTransmitStep)

/-! ## Sends and the byte source -/

/-- R74, R75: the byte-source read collects the first `min(n, cap)` bytes offered from index 0, and warns
`W_TRUNC` exactly when the stream still has bytes (the model's reading of R75: DEDUCED, assumption 22)
and `W_SHORT` exactly when it offered none. -/
def Obligations.SourceReadCollectsUpToCapacity : Prop :=
  ∀ (s : State) (c : Chan) (bytes : List Byte),
    callerBlocked s c = false → s.mem.SpaceOk s.params (inputSpace c) →
    let cap := spaceSize s.params (inputSpace c)
    ∃ t, present (.readSource c bytes) s = .next t ∧
      t.out = ⟨.sourceRead (min bytes.length cap)
        ⟨decide (0 < cap ∧ cap < bytes.length), decide (bytes = [])⟩, false⟩ ∧
      SameBut [.space (inputSpace c)] s t ∧
      (∀ i, i < cap → ∀ h : i < bytes.length, t.mem.byteAt (inputSpace c) i = bytes[i]) ∧
      (∀ i, min bytes.length cap ≤ i →
        t.mem.byteAt (inputSpace c) i = s.mem.byteAt (inputSpace c) i)

/-- R267: a send releases its channel on every path. When its transmit ends, by a failed resume step or by
its end step, it goes on to disable the channel; from there, or after a failed `CH_ENABLE`, its next three
steps disable and delete the channel and reset the encoder, whatever is drawn, and the send answers `E_HW`
if any call did; after a failed `CH_CONFIG` it makes no channel call. That a failed transmit's status reaches
the send at the transmit's end is the model's reading (DEDUCED, assumption 31). -/
def Obligations.SendReleasesItsChannel : Prop :=
  ∀ (s : State) (c : Chan) (x : Send) (f1 f2 f3 : Hw), s.send c = some x →
    (∀ tx b, x.stage = .blocked → (s.ch c).tx = some tx →
      (tx.staged = false → ∃ t, present (.txResume c .eHw b) s = .next t ∧
        t.send c = some { x with stage := .disable, failed := true }) ∧
      (tx.staged = true → ∃ t, present (.txEnd c f1) s = .next t ∧
        t.send c = some { x with stage := .disable, failed := x.failed || decide (f1 = .eHw) })) ∧
    (freeToSend s c →
      (x.stage = .disable → (s.ch c).state ≠ .absent → (s.ch c).busy = false →
        ∃ t, runInputs [.sendStep c f1, .sendStep c f2, .sendStep c f3] s = .next t ∧
          (t.ch c).state = .absent ∧ (t.ch c).busy = false ∧ (t.ch c).owner = none ∧ t.send c = none ∧
          t.out = ⟨.sent (if x.failed = true ∨ ((s.ch c).state = .enabled ∧ f1 = .eHw) ∨ f2 = .eHw then
            .eHw else .ok) x.warn, false⟩ ∧
          (c = .a → t.pa = ⟨.payload, 0, 0, 0⟩) ∧
          (c = .b → t.pb = ⟨.empty, 0, 0, 0, s.pb.npre, s.pb.preByte⟩)) ∧
      (x.stage = .enable → (s.ch c).state = .disabled → f1 = .eHw →
        ∃ t, present (.sendStep c f1) s = .next t ∧ t.ch c = s.ch c ∧
          t.send c = some { x with stage := .disable, failed := true }) ∧
      (x.stage = .config → (s.ch c).state = .absent → f1 = .eHw →
        ∃ t, runInputs [.sendStep c f1, .sendStep c f2] s = .next t ∧ t.ch c = s.ch c ∧
          t.send c = none ∧ t.out = ⟨.sent .eHw x.warn, false⟩))

/-- R172, R203: what a send configures and begins. Its `CH_CONFIG` gives its channel the carrier, duty, tick
rate, depth and pin of its protocol (a duty of 0 as the fraction 0/1: DESIGN CHOICE, assumption 30) and makes
it its caller's own (DEDUCED, assumption 35); its `CH_ENABLE` enables it; its `CH_TRANSMIT` drives its
protocol's encoder, for `PA` with the bytes read. The place of `PA_SEND`'s reset is R172's or R122's, both
admitted (assumption 19). -/
def Obligations.SendConfiguresItsChannel : Prop :=
  ∀ (s : State) (c : Chan) (x : Send), s.send c = some x → freeToSend s c →
    let late := c = .a ∧ x.order = .beforeTransmit
    (x.stage = .config → (s.ch c).state = .absent → ∃ t, present (.sendStep c .ok) s = .next t ∧
      t.out = ⟨.status .ok, false⟩ ∧
      t.ch c = (match c with
        | .a => ⟨.disabled, 38000, s.params.aDuty, s.params.txResHz, s.params.queueDepth, s.params.txPinA,
            none, some .a⟩
        | .b => ⟨.disabled, 0, ⟨0, 1⟩, s.params.txResHz, s.params.queueDepth, s.params.txPinB,
            none, some .b⟩) ∧
      t.send c = some { x with stage := .enable } ∧ SameBut [.ch c, .send c, .issue] s t) ∧
    (x.stage = .enable → (s.ch c).state = .disabled → ∃ t, present (.sendStep c .ok) s = .next t ∧
      t.out = ⟨.status .ok, false⟩ ∧ t.ch c = { s.ch c with state := .enabled } ∧
      (late → t.send c = some { x with stage := .prepare }) ∧
      (¬ late → t.send c = some { x with stage := .transmit }) ∧ SameBut [.ch c, .send c, .issue] s t) ∧
    (c = .a → x.stage = .prepare → ∃ t, present (.sendStep c .ok) s = .next t ∧
      t.pa = ⟨.payload, 0, 0, 0⟩ ∧ (late → t.send c = some { x with stage := .transmit }) ∧
      (¬ late → t.send c = some { x with stage := .config }) ∧ SameBut [.pa, .send c, .issue] s t) ∧
    (x.stage = .transmit → (c = .a → x.n ≤ 512) → (s.ch c).state = .enabled → (s.ch c).busy = false →
      (c = .b → s.pb.st = .loaded) →
      ¬ ((s.ch c.other).busy = true ∧ (s.ch c.other).pin = (s.ch c).pin) →
      ∃ t, present (.sendStep c .ok) s = .next t ∧ t.out = ⟨.none, false⟩ ∧
        t.ch c = { s.ch c with tx := some (match c with
          | .a => ⟨.pa, x.n, .a, false⟩
          | .b => ⟨.pb, 0, .b, false⟩) } ∧
        t.send c = some { x with stage := .blocked } ∧ SameBut [.ch c, .send c, .issue] s t)

/-- R87: a channel and an encoder session are singly owned for a transmission, from `CH_CONFIG` to `CH_DELETE`,
and no two sessions share a channel. An owned channel cannot be configured again (R260). The step of a send
leaves the other protocol's channel and session as they were, and `OUT_B` unless it is `PB_SEND`. An input of
caller `x` that reaches for nothing the other caller owns leaves the other's channels and sessions as they were,
and `OUT_B` with that of `PB`; and where every input keeps within its caller's own, no two transmits come to drive
one encoder session. Whose a session is beside its channel, and that an input which reaches for the other's runs
with its own effect, a caller's breach, is the model's reading (DEDUCED, assumption 35). -/
def Obligations.CallersWithinTheirOwnLeaveTheOthers : Prop :=
  (∀ (s : State) (c y : Chan) (carrier res depth pin : Nat) (duty : Duty), (s.ch c).Ok →
    (s.ch c).owner = some y → 1 ≤ depth →
    exec (.chConfig c carrier duty res depth pin) s = .refused .lifecycle) ∧
  (∀ (s t : State) (c : Chan) (f : Hw), present (.sendStep c f) s = .next t →
    t.ch c.other = s.ch c.other ∧ (c = .b → t.pa = s.pa) ∧
    (c = .a → t.pb = s.pb ∧ ∀ i, t.mem.byteAt .outB i = s.mem.byteAt .outB i)) ∧
  (∀ (s t : State) (x : Chan) (e : Event),
    (∃ w ports f, e = .op (.txCaller x) w ports f) ∨ (∃ bytes, e = .readSource x bytes) ∨
      (∃ bytes order, e = .send x bytes order) ∨ (∃ f, e = .sendStep x f) →
    WithinOwn s e → present e s = .next t →
    (∀ c, (s.ch c).owner = some x.other → t.ch c = s.ch c) ∧
    (ownsSession s x.other .pa = true → t.pa = s.pa) ∧
    (ownsSession s x.other .pb = true →
      t.pb = s.pb ∧ ∀ i, t.mem.byteAt .outB i = s.mem.byteAt .outB i)) ∧
  ∀ (s t : State) (e : Event), SinglyDriven s → WithinOwn s e → present e s = .next t → SinglyDriven t

/-- R197, R203: `PB_SEND` of an input that is no word-aligned frame, or does not fit, ends with the
framer's error: no channel is touched and no line carries a pair. That `OUT_B` keeps its bytes also after
`E_CAPACITY` is the model's reading of R195 against U13 (DEDUCED, assumption 17). A send that finds a frame
loaded waits, its framing refused as R195 has it. -/
def Obligations.PbSendRejectsBeforeTransmission : Prop :=
  ∀ (s : State) (x : Send) (f : Hw), s.sendB = some x → x.stage = .prepare → freeToSend s .b →
    x.n ≤ s.params.bInCap →
    (s.pb.st = .empty →
      (x.n < 4 ∨ (x.n - 4) % 2 = 1 ∨ s.params.bOutCap < s.pb.npre + 4 + 3 * ((x.n - 4) / 2)) →
      ∃ t, present (.sendStep .b f) s = .next t ∧ t.sendB = none ∧
        t.out = ⟨.sent (if x.n < 4 ∨ (x.n - 4) % 2 = 1 then .eAlign else .eCapacity) x.warn, false⟩ ∧
        t.pb = { s.pb with st := .empty, len := 0 } ∧ SameBut [.pb, .send .b, .issue] s t) ∧
    (s.pb.st = .loaded → present (.sendStep .b f) s = .refused .frameLoaded)

/-- R104, R172: a whole `PA_SEND` whose channel calls all succeed, with budgets that reach the end of the
frame, in either order of its reset (assumption 19): it answers `OK` with the read's warnings (`W_TRUNC` as
the model reads R75: DEDUCED, assumption 22), its pin's line gains exactly the frame of the bytes read, at
`TX_RES_HZ` on a carrier of 38 kHz and `A_DUTY`, and its channel is absent again. -/
def Obligations.PaSendDeliversTheFrame : Prop :=
  ∀ (s : State) (bytes : List Byte) (order : ResetOrder) (budgets : List Nat),
    s.Ok → callerBlocked s .a = false → s.chA.state = .absent →
    ¬ (s.chB.busy = true ∧ s.chB.pin = s.params.txPinA) →
    (∀ b ∈ budgets, b ≤ s.params.queueDepth) →
    budgets.dropLast.sum < 8 * min bytes.length 512 + 1 → 8 * min bytes.length 512 + 1 ≤ budgets.sum →
    ∃ t, runInputs (.send .a bytes order :: List.replicate 4 (.sendStep .a .ok) ++
          budgets.map (.txResume .a .ok) ++ .txEnd .a .ok :: List.replicate 3 (.sendStep .a .ok)) s
        = .next t ∧
      t.out = ⟨.sent .ok ⟨decide (512 < bytes.length), decide (bytes = [])⟩, false⟩ ∧
      (∀ q, lineGet t.obs.line q = lineGet s.obs.line q ++
        if q = s.params.txPinA then
          ((bitsOf (bytes.take 512)).map (fun b => if b then sym1 s.params else sym0 s.params)
            ++ [symT s.params]).map fun y => ⟨y, s.params.txResHz, 38000, s.params.aDuty⟩
        else []) ∧
      t.chA.state = .absent ∧ t.chA.owner = none ∧ t.sendA = none ∧ t.pa = ⟨.payload, 0, 0, 0⟩ ∧
      t.chB = s.chB

/-- R111, R203: a whole `PB_SEND` of a word-aligned input that fits, whose channel calls all succeed, with
budgets that reach the end of the frame: it answers `OK` with the read's warnings (`W_TRUNC` as the model
reads R75: DEDUCED, assumption 22), its pin's line gains exactly the frame of the bytes read, at `TX_RES_HZ`
without a carrier (a duty of 0 as the fraction 0/1: DESIGN CHOICE, assumption 30), and its channel is absent
again. -/
def Obligations.PbSendDeliversTheFrame : Prop :=
  ∀ (s : State) (bytes : List Byte) (order : ResetOrder) (budgets : List Nat),
    let n := min bytes.length s.params.bInCap
    let len := s.pb.npre + 4 + 3 * ((n - 4) / 2)
    s.Ok → callerBlocked s .b = false → s.chB.state = .absent →
    s.pb.st = .empty → ¬ (s.chA.busy = true ∧ s.chA.pin = s.params.txPinB) →
    4 ≤ n → (n - 4) % 2 = 0 → len ≤ s.params.bOutCap → (∀ b ∈ budgets, b ≤ s.params.queueDepth) →
    budgets.dropLast.sum < 8 * len → 8 * len ≤ budgets.sum →
    ∃ t, runInputs (.send .b bytes order :: List.replicate 4 (.sendStep .b .ok) ++
          budgets.map (.txResume .b .ok) ++ .txEnd .b .ok :: List.replicate 3 (.sendStep .b .ok)) s
        = .next t ∧
      t.out = ⟨.sent .ok ⟨decide (s.params.bInCap < bytes.length), false⟩, false⟩ ∧
      (∀ q, lineGet t.obs.line q = lineGet s.obs.line q ++
        if q = s.params.txPinB then
          (pairsB s.params (frameBytes s.params s.pb.npre s.pb.preByte (bytes.take s.params.bInCap))).map
            fun y => ⟨y, s.params.txResHz, 0, ⟨0, 1⟩⟩
        else []) ∧
      t.chB.state = .absent ∧ t.chB.owner = none ∧ t.sendB = none ∧
      t.pb = ⟨.empty, 0, 0, 0, s.pb.npre, s.pb.preByte⟩ ∧ t.chA = s.chA

/-! ## Receiver -/

/-- R220, R53: `RX_RESET` puts every receiver field at its reset value in every state, keeps the buffer
and everything else, and is idempotent; the receiver is then `IDLE/ARMED`. -/
def Obligations.RxResetArmsTheReceiver : Prop :=
  ∀ s : State, ∃ t, exec .rxReset s = .next t ∧ t.out = ⟨.none, false⟩ ∧
    t.rx = ⟨0, false, 0, 0, 0, 0, 0, false, false⟩ ∧ rxView t.rx = .idleArmed ∧
    SameBut [.rx] s t ∧ exec .rxReset t = .next t

/-- R221: `RX_TICK` counts the timer, or wraps it to 0 and makes the overflow pending; it runs in every
state and changes nothing else. -/
def Obligations.RxTickCountsTheTimer : Prop :=
  ∀ s : State, ∃ t, exec .rxTick s = .next t ∧ t.out = ⟨.none, false⟩ ∧ SameBut [.rx] s t ∧
    t.rx = if s.rx.tmr = s.params.tmrMax then { s.rx with tmr := 0, ovfPend := true }
      else { s.rx with tmr := s.rx.tmr + 1 }

/-- R222: after a processed edge or a reset, with no edge between, the overflow becomes pending at tick
`TMR_MAX + 1` and not before, and again every `TMR_MAX + 1` ticks after that: once its handler has run after
`k` ticks, it is pending again after `m` more exactly where a multiple of the period lies between. An
overflow already pending stays so; a processed edge restarts the timer and leaves the pending flag, and a
reset clears both. -/
def Obligations.OverflowComesAfterTheTimersPeriod : Prop :=
  (∀ (s : State) (k : Nat), s.rx.tmr = 0 →
    ∃ t, runOps (List.replicate k .rxTick) s = .next t ∧
      t.rx = { s.rx with
        tmr := k % (s.params.tmrMax + 1), ovfPend := s.rx.ovfPend || decide (s.params.tmrMax < k) } ∧
      SameBut [.rx] s t) ∧
  (∀ (s : State) (k m : Nat), s.rx.tmr = 0 → s.rx.ovfPend = true ∨ s.params.tmrMax < k →
    ∃ t, runOps (List.replicate k .rxTick ++ .rxOvf :: List.replicate m .rxTick) s = .next t ∧
      t.rx.tmr = (k + m) % (s.params.tmrMax + 1) ∧
      t.rx.ovfPend = decide (k / (s.params.tmrMax + 1) < (k + m) / (s.params.tmrMax + 1)) ∧
      SameBut [.rx] s t) ∧
  (∀ (s : State) (i : Instr), i ∈ ([.rxFall, .rxRise] : List Instr) → s.rx.booted = false →
    s.rx.rxBufLen = 0 → ∃ t, exec i s = .next t ∧ t.rx.tmr = 0 ∧ t.rx.ovfPend = s.rx.ovfPend) ∧
  ∀ s : State, ∃ t, exec .rxReset s = .next t ∧ t.rx.tmr = 0 ∧ t.rx.ovfPend = false

/-- R226 to R230: a processed falling edge restarts the timer and marks communication active; with a
reference it decodes the gap, strictly longer than twice the reference being a 1, places the bit at the
bit count, and at the eighth bit stores the byte while the buffer has room and drops it otherwise. -/
def Obligations.FallingEdgeDecodesTheGap : Prop :=
  ∀ s : State, s.rx.booted = false → s.rx.rxBufLen = 0 → s.mem.SpaceOk s.params .rxBuf →
    let byte := s.rx.rxByte ||| ((if 2 * s.rx.ref < s.rx.tmr then 1 else 0) <<< s.rx.rxBits.val)
    ∃ t, exec .rxFall s = .next t ∧ t.out = ⟨.none, false⟩ ∧
      if s.rx.ref = 0 then
        t.rx = { s.rx with tmr := 0, commActive := true } ∧ SameBut [.rx] s t
      else if s.rx.rxBits ≠ 7 then
        t.rx = { s.rx with tmr := 0, commActive := true, rxByte := byte, rxBits := s.rx.rxBits + 1 } ∧
        SameBut [.rx] s t
      else if s.rx.rxIdx < 10 then
        t.rx = { s.rx with tmr := 0, commActive := true, rxByte := 0, rxBits := 0, rxIdx := s.rx.rxIdx + 1 } ∧
        t.mem.byteAt .rxBuf s.rx.rxIdx = byte ∧
        (∀ i, i ≠ s.rx.rxIdx → t.mem.byteAt .rxBuf i = s.mem.byteAt .rxBuf i) ∧
        SameBut [.rx, .space .rxBuf] s t
      else
        t.rx = { s.rx with tmr := 0, commActive := true, rxByte := 0, rxBits := 0 } ∧ SameBut [.rx] s t

/-- R225, R231 to R234: a processed rising edge restarts the timer; a pulse longer than twice a recorded
reference seals the frame, with the length in whole bytes, the counters cleared and the reference kept, and
a sealed frame other than the boot command is left in the buffer; any other pulse becomes the reference,
whatever the buffer holds. -/
def Obligations.RisingEdgeRecordsOrSeals : Prop :=
  ∀ s : State, s.rx.booted = false → s.rx.rxBufLen = 0 →
    (¬ (s.rx.ref ≠ 0 ∧ 2 * s.rx.ref < s.rx.tmr) →
      ∃ t, exec .rxRise s = .next t ∧ t.out = ⟨.none, false⟩ ∧ SameBut [.rx] s t ∧
        t.rx = { s.rx with tmr := 0, ref := s.rx.tmr }) ∧
    (s.rx.ref ≠ 0 → 2 * s.rx.ref < s.rx.tmr →
      (s.rx.rxIdx = 4 → (List.range 4).map (s.mem.byteAt .rxBuf) ≠ [0x42, 0x4F, 0x4F, 0x54]) →
      ∃ t, exec .rxRise s = .next t ∧ t.out = ⟨.none, false⟩ ∧ SameBut [.rx] s t ∧
        t.rx = { s.rx with tmr := 0, rxBufLen := s.rx.rxIdx, rxIdx := 0, rxBits := 0, rxByte := 0 })

/-- R240, R241: the seal of exactly the four bytes of `BOOT_CMD` asserts the boot strobe once, counts
it, withholds the frame and leaves the decoder `BOOTED`. -/
def Obligations.BootCommandJumps : Prop :=
  ∀ s : State, s.rx.booted = false → s.rx.rxBufLen = 0 → s.rx.ref ≠ 0 → 2 * s.rx.ref < s.rx.tmr →
    s.rx.rxIdx = 4 → (List.range 4).map (s.mem.byteAt .rxBuf) = [0x42, 0x4F, 0x4F, 0x54] →
    ∃ t, exec .rxRise s = .next t ∧ t.out = ⟨.none, true⟩ ∧ t.obs.nboot = s.obs.nboot + 1 ∧
      t.rx = { s.rx with tmr := 0, rxBufLen := 0, rxIdx := 0, rxBits := 0, rxByte := 0, booted := true } ∧
      SameBut [.rx, .nboot] s t

/-- R224: while a frame awaits consumption, an edge changes nothing at all, not even the timer; a tick and
the overflow handler are no edges and still apply. -/
def Obligations.BackPressureIgnoresEdges : Prop :=
  ∀ s : State, s.rx.rxBufLen ≠ 0 →
    (∃ t, exec .rxFall s = .next t ∧ t.out = ⟨.none, false⟩ ∧ SameBut [] s t) ∧
    (∃ t, exec .rxRise s = .next t ∧ t.out = ⟨.none, false⟩ ∧ SameBut [] s t) ∧
    (∃ t, exec .rxTick s = .next t ∧ SameBut [.rx] s t ∧
      t.rx = if s.rx.tmr = s.params.tmrMax then { s.rx with tmr := 0, ovfPend := true }
        else { s.rx with tmr := s.rx.tmr + 1 }) ∧
    (s.rx.booted = false → s.rx.ovfPend = true → ∃ t, exec .rxOvf s = .next t ∧ SameBut [.rx] s t ∧
      t.rx = ⟨s.rx.tmr, false, 0, 0, 0, 0, s.rx.rxBufLen, false, false⟩)

/-- R223: after the jump to the bootloader an edge changes nothing, the overflow handler only clears its
flag, and every main-loop access is refused; a tick and `RX_RESET` still apply. -/
def Obligations.BootedReceiverIsInert : Prop :=
  ∀ s : State, s.rx.booted = true →
    (∃ t, exec .rxFall s = .next t ∧ t.out = ⟨.none, false⟩ ∧ SameBut [] s t) ∧
    (∃ t, exec .rxRise s = .next t ∧ t.out = ⟨.none, false⟩ ∧ SameBut [] s t) ∧
    (s.rx.ovfPend = true → ∃ t, exec .rxOvf s = .next t ∧ t.out = ⟨.none, false⟩ ∧
      t.rx = { s.rx with ovfPend := false } ∧ SameBut [.rx] s t) ∧
    (∀ i, i < 10 → exec .rxClaim s = .refused .booted ∧ exec .rxReadLen s = .refused .booted ∧
      exec (.rxReadBuf i) s = .refused .booted ∧ exec .rxClearLen s = .refused .booted ∧
      exec .rxReadActive s = .refused .booted) ∧
    (∃ t, exec .rxTick s = .next t ∧ SameBut [.rx] s t ∧
      t.rx = if s.rx.tmr = s.params.tmrMax then { s.rx with tmr := 0, ovfPend := true }
        else { s.rx with tmr := s.rx.tmr + 1 }) ∧
    (∃ t, exec .rxReset s = .next t ∧ t.rx = ⟨0, false, 0, 0, 0, 0, 0, false, false⟩ ∧ SameBut [.rx] s t)

/-- R235 to R237: while the overflow is pending its handler clears the reference, the counters, the
activity flag and the pending flag, and keeps an unconsumed frame and the timer; the receiver is then
`IDLE/ARMED` or, with a frame, `FRAME_READY`. While none is pending the handler is not enabled: that the
model refuses it then is DEDUCED (assumption 14). -/
def Obligations.OverflowHandlerClearsTheCounters : Prop :=
  ∀ s : State, s.rx.booted = false →
    (s.rx.ovfPend = true → ∃ t, exec .rxOvf s = .next t ∧ t.out = ⟨.none, false⟩ ∧
      t.rx = ⟨s.rx.tmr, false, 0, 0, 0, 0, s.rx.rxBufLen, false, false⟩ ∧
      rxView t.rx = (if s.rx.rxBufLen = 0 then .idleArmed else .frameReady) ∧ SameBut [.rx] s t) ∧
    (s.rx.ovfPend = false → exec .rxOvf s = .refused .overflowNotPending)

/-- R243: the receiver decodes the transmitter's own stream. From `IDLE/ARMED`, with `P` lasting `pr >= 1`
receiver ticks and `4 pr <= TMR_MAX`, the events of `stream(IN_A, N)` leave the first ten payload bytes
sealed, or jump on the boot command, or seal nothing for an empty payload. -/
def Obligations.DecoderRoundTrip : Prop :=
  ∀ (s : State) (n pr : Nat), s.Ok → rxView s.rx = .idleArmed → 1 ≤ pr → 4 * pr ≤ s.params.tmrMax →
    n ≤ 512 →
    ∃ t, runOps (streamOps s.params pr (streamA s.params s.mem n)) s = .next t ∧
      if n = 4 ∧ (List.range 4).map (s.mem.byteAt .inA) = [0x42, 0x4F, 0x4F, 0x54] then
        t.obs.nboot = s.obs.nboot + 1 ∧ t.rx.booted = true ∧ t.rx.rxBufLen = 0
      else
        t.obs.nboot = s.obs.nboot ∧ t.rx.booted = false ∧ t.rx.rxBufLen = min n 10 ∧
        ∀ i, i < min n 10 → t.mem.byteAt .rxBuf i = s.mem.byteAt .inA i

/-- R244: decoding tolerates measured durations within the ratio bounds, with the bound the model adds
that every measured pulse is at least one tick (DEDUCED, assumption 13): the first ten payload bytes are
sealed, the boot command jumps, and an empty payload seals nothing. -/
def Obligations.DecoderToleratesTiming : Prop :=
  ∀ (s : State) (bytes : List Byte) (pairs : List (Nat × Nat)) (term : Nat),
    s.Ok → rxView s.rx = .idleArmed → tolerated s.params.tmrMax pairs (bitsOf bytes) term →
    ∃ t, runOps (measuredOps pairs term) s = .next t ∧
      if bytes = [0x42, 0x4F, 0x4F, 0x54] then
        t.obs.nboot = s.obs.nboot + 1 ∧ t.rx.booted = true ∧ t.rx.rxBufLen = 0
      else
        t.obs.nboot = s.obs.nboot ∧ t.rx.booted = false ∧ t.rx.rxBufLen = min bytes.length 10 ∧
        ∀ i, i < 10 → ∀ h : i < bytes.length, t.mem.byteAt .rxBuf i = bytes[i]

/-- R239, R242: only a rising edge that seals, of a node that has not jumped, asserts the boot strobe and
counts it; and once booted nothing but `RX_RESET` ends that, and no operation counts another jump. -/
def Obligations.BootJumpExactlyOnce : Prop :=
  ∀ (i : Instr) (s t : State), exec i s = .next t →
    ((t.obs.nboot = s.obs.nboot ∧ t.out.bootJump = false) ∨
      (i = .rxRise ∧ s.rx.booted = false ∧ s.rx.ref ≠ 0 ∧ 2 * s.rx.ref < s.rx.tmr ∧
        t.obs.nboot = s.obs.nboot + 1 ∧ t.out.bootJump = true ∧ t.rx.booted = true ∧
        t.rx.rxBufLen = 0)) ∧
    (s.rx.booted = true → i ≠ .rxReset → t.rx.booted = true ∧ t.obs.nboot = s.obs.nboot)

/-! ## Main-loop access -/

/-- R251: `RX_CLAIM` takes length and data in one step and frees the buffer. -/
def Obligations.ClaimTakesTheFrame : Prop :=
  ∀ s : State, s.rx.booted = false → s.rx.rxBufLen ≤ 10 →
    ∃ t, exec .rxClaim s = .next t ∧
      t.out = ⟨.claimed s.rx.rxBufLen ((List.range s.rx.rxBufLen).map (s.mem.byteAt .rxBuf)), false⟩ ∧
      t.rx = { s.rx with rxBufLen := 0 } ∧ SameBut [.rx] s t

/-- R250, R252 to R254: the other main-loop accesses, each with what it answers and writes. -/
def Obligations.MainLoopAccessesReadTheState : Prop :=
  ∀ s : State, s.rx.booted = false →
    (∃ t, exec .rxReadLen s = .next t ∧ t.out = ⟨.len s.rx.rxBufLen, false⟩ ∧ SameBut [] s t) ∧
    (∀ i, i < 10 → ∃ t, exec (.rxReadBuf i) s = .next t ∧
      t.out = ⟨.byte (s.mem.byteAt .rxBuf i), false⟩ ∧ SameBut [] s t) ∧
    (∃ t, exec .rxReadActive s = .next t ∧ t.out = ⟨.active s.rx.commActive, false⟩ ∧ SameBut [] s t) ∧
    (∃ t, exec .rxClearLen s = .next t ∧ t.out = ⟨.none, false⟩ ∧
      t.rx = { s.rx with rxBufLen := 0 } ∧ SameBut [.rx] s t)

/-- R255: while a frame awaits consumption, no operation but the consumer's own `RX_CLAIM` and
`RX_CLEAR_LEN`, and `RX_RESET`, changes its length or any byte of the buffer. -/
def Obligations.SealedFrameIsStable : Prop :=
  ∀ (i : Instr) (s t : State), exec i s = .next t → s.rx.rxBufLen ≠ 0 →
    (∀ j, t.mem.byteAt .rxBuf j = s.mem.byteAt .rxBuf j) ∧
    (i ≠ .rxClaim → i ≠ .rxClearLen → i ≠ .rxReset → t.rx.rxBufLen = s.rx.rxBufLen)

/-- R54: who writes the shared fields of the receiver. The length becomes nonzero only at a rising edge,
and only from 0; the main loop and `RX_RESET` only clear it; a byte of the buffer is written only by a
falling edge while the length is 0; and the main loop changes no other receiver field. -/
def Obligations.ReceiverFieldOwnership : Prop :=
  ∀ (i : Instr) (s t : State), exec i s = .next t →
    (t.rx.rxBufLen ≠ s.rx.rxBufLen →
      (i = .rxRise ∧ s.rx.rxBufLen = 0) ∨
      (i ∈ ([.rxClaim, .rxClearLen, .rxReset] : List Instr) ∧ t.rx.rxBufLen = 0)) ∧
    ((∃ j, t.mem.byteAt .rxBuf j ≠ s.mem.byteAt .rxBuf j) → i = .rxFall ∧ s.rx.rxBufLen = 0) ∧
    (5 ≤ (opUnit (opWord i)).toNat → { t.rx with rxBufLen := s.rx.rxBufLen } = s.rx)

/-- R7, R321: the nodes share no state. An operation of one node leaves every piece of the other's as it
was, and the parameters, the critical section, the latched draw and the inputs to come; an operation of the
transmitting node changes no line but those of its channels' pins. -/
def Obligations.NodesShareNoState : Prop :=
  ∀ (i : Instr) (s t : State), exec i s = .next t →
    if isReceiver i then SameBut [.rx, .space .rxBuf, .nboot] s t
    else SameBut [.pa, .pb, .ch .a, .ch .b, .space .outB, .fresh, .send .a, .send .b, .line s.chA.pin,
      .line s.chB.pin] s t

/-! ## Reset and the whole machine -/

/-- R60: the reset values the spec states, for every choice of the parameters, of which the machine's own
reset has the preamble count 12. -/
def Obligations.ResetValues : Prop :=
  (∃ p : Params, State.reset = State.resetWith p ∧ p.bNpre = 12) ∧
  ∀ p : Params,
    let s := State.resetWith p
    s.params = p ∧ s.pa = ⟨.payload, 0, 0, 0⟩ ∧
    s.pb = ⟨.empty, 0, 0, 0, p.bNpre, p.bPreByte⟩ ∧
    (∀ c, (s.ch c).state = .absent ∧ (s.ch c).busy = false) ∧
    s.rx.tmr = 0 ∧ s.rx.ovfPend = false ∧ s.rx.ref = 0 ∧ s.rx.rxByte = 0 ∧ s.rx.rxBits = 0 ∧
    s.rx.rxIdx = 0 ∧ s.rx.rxBufLen = 0 ∧ s.rx.commActive = false ∧ s.rx.booted = false ∧
    s.obs.nboot = 0 ∧ ∀ pin, lineGet s.obs.line pin = []

/-- R330, R331: power-on of one node gives its state the reset values the spec states and changes nothing
of the other node; after the transmitting node's, every line is empty and at rest (R269). That it may come at
any time, which observation each node's power-on clears, and that it ends the sends and the critical section,
is the model's reading (DEDUCED, assumption 28). -/
def Obligations.PowerOnResetsOneNode : Prop :=
  ∀ s : State,
    (∃ t, present (.powerOn .transmitting) s = .next t ∧
      t.pa = ⟨.payload, 0, 0, 0⟩ ∧ t.pb = ⟨.empty, 0, 0, 0, s.params.bNpre, s.params.bPreByte⟩ ∧
      (∀ c, (t.ch c).state = .absent ∧ (t.ch c).busy = false ∧ t.send c = none) ∧
      (∀ pin, lineGet t.obs.line pin = [] ∧ restLevel t pin = some .inact) ∧
      t.params = s.params ∧ t.rx = s.rx ∧ t.crit = s.crit ∧ t.obs.nboot = s.obs.nboot ∧
      t.events = s.events ∧ ∀ i, t.mem.byteAt .rxBuf i = s.mem.byteAt .rxBuf i) ∧
    (∃ t, present (.powerOn .receiving) s = .next t ∧
      t.rx = ⟨0, false, 0, 0, 0, 0, 0, false, false⟩ ∧ t.crit = false ∧ t.obs.nboot = 0 ∧
      SameBut [.rx, .crit, .nboot, .space .rxBuf, .fresh] s t)

/-- The machine is safe right after reset, for every choice of the parameters. -/
def Obligations.ResetIsSafe : Prop :=
  State.reset.Ok ∧ ∀ p : Params, (State.resetWith p).Ok

/-- Every step keeps the machine safe, from every safe state: the byte spaces keep their canonical form
and size, every cursor and counter its range, no two transmits share a pin, a channel is owned exactly while it
exists (DEDUCED, assumption 35), and a frame awaiting consumption leaves the counters
at zero. -/
def Obligations.EveryStepKeepsTheMachineSafe : Prop :=
  ∀ s t : State, s.Ok → step s = .next t → t.Ok

/-- R71: no rule makes an access outside a space: from a safe state no step faults `OUT_OF_RANGE`. -/
def Obligations.NoStepAccessesOutOfRange : Prop :=
  ∀ s : State, s.Ok → step s ≠ .fault .outOfRange
end

