-- ==== Sys2Proof/Laws/State.lean ====
section
/-! SUPPORT. What each update of the state leaves in each field: one lemma per field per update. -/

namespace Sys2Proof.Machine

@[simp] theorem State.setPa_params (s : State) (x : PaSession) : (s.setPa x).params = s.params := rfl
@[simp] theorem State.setPa_pa (s : State) (x : PaSession) : (s.setPa x).pa = x := rfl
@[simp] theorem State.setPa_pb (s : State) (x : PaSession) : (s.setPa x).pb = s.pb := rfl
@[simp] theorem State.setPa_chA (s : State) (x : PaSession) : (s.setPa x).chA = s.chA := rfl
@[simp] theorem State.setPa_chB (s : State) (x : PaSession) : (s.setPa x).chB = s.chB := rfl
@[simp] theorem State.setPa_rx (s : State) (x : PaSession) : (s.setPa x).rx = s.rx := rfl
@[simp] theorem State.setPa_mem (s : State) (x : PaSession) : (s.setPa x).mem = s.mem := rfl
@[simp] theorem State.setPa_crit (s : State) (x : PaSession) : (s.setPa x).crit = s.crit := rfl
@[simp] theorem State.setPa_obs (s : State) (x : PaSession) : (s.setPa x).obs = s.obs := rfl
@[simp] theorem State.setPa_sendA (s : State) (x : PaSession) : (s.setPa x).sendA = s.sendA := rfl
@[simp] theorem State.setPa_sendB (s : State) (x : PaSession) : (s.setPa x).sendB = s.sendB := rfl
@[simp] theorem State.setPa_out (s : State) (x : PaSession) : (s.setPa x).out = s.out := rfl
@[simp] theorem State.setPa_issue (s : State) (x : PaSession) : (s.setPa x).issue = s.issue := rfl
@[simp] theorem State.setPa_fresh (s : State) (x : PaSession) : (s.setPa x).fresh = s.fresh := rfl
@[simp] theorem State.setPa_events (s : State) (x : PaSession) : (s.setPa x).events = s.events := rfl
@[simp] theorem State.setPa_ch (s : State) (x : PaSession) (c : Chan) : (s.setPa x).ch c = s.ch c := by
  cases c <;> rfl
@[simp] theorem State.setPa_send (s : State) (x : PaSession) (c : Chan) : (s.setPa x).send c =
    s.send c := by
  cases c <;> rfl

@[simp] theorem State.setPb_params (s : State) (x : PbSession) : (s.setPb x).params = s.params := rfl
@[simp] theorem State.setPb_pa (s : State) (x : PbSession) : (s.setPb x).pa = s.pa := rfl
@[simp] theorem State.setPb_pb (s : State) (x : PbSession) : (s.setPb x).pb = x := rfl
@[simp] theorem State.setPb_chA (s : State) (x : PbSession) : (s.setPb x).chA = s.chA := rfl
@[simp] theorem State.setPb_chB (s : State) (x : PbSession) : (s.setPb x).chB = s.chB := rfl
@[simp] theorem State.setPb_rx (s : State) (x : PbSession) : (s.setPb x).rx = s.rx := rfl
@[simp] theorem State.setPb_mem (s : State) (x : PbSession) : (s.setPb x).mem = s.mem := rfl
@[simp] theorem State.setPb_crit (s : State) (x : PbSession) : (s.setPb x).crit = s.crit := rfl
@[simp] theorem State.setPb_obs (s : State) (x : PbSession) : (s.setPb x).obs = s.obs := rfl
@[simp] theorem State.setPb_sendA (s : State) (x : PbSession) : (s.setPb x).sendA = s.sendA := rfl
@[simp] theorem State.setPb_sendB (s : State) (x : PbSession) : (s.setPb x).sendB = s.sendB := rfl
@[simp] theorem State.setPb_out (s : State) (x : PbSession) : (s.setPb x).out = s.out := rfl
@[simp] theorem State.setPb_issue (s : State) (x : PbSession) : (s.setPb x).issue = s.issue := rfl
@[simp] theorem State.setPb_fresh (s : State) (x : PbSession) : (s.setPb x).fresh = s.fresh := rfl
@[simp] theorem State.setPb_events (s : State) (x : PbSession) : (s.setPb x).events = s.events := rfl
@[simp] theorem State.setPb_ch (s : State) (x : PbSession) (c : Chan) : (s.setPb x).ch c = s.ch c := by
  cases c <;> rfl
@[simp] theorem State.setPb_send (s : State) (x : PbSession) (c : Chan) : (s.setPb x).send c =
    s.send c := by
  cases c <;> rfl

@[simp] theorem State.setRx_params (s : State) (x : Rx) : (s.setRx x).params = s.params := rfl
@[simp] theorem State.setRx_pa (s : State) (x : Rx) : (s.setRx x).pa = s.pa := rfl
@[simp] theorem State.setRx_pb (s : State) (x : Rx) : (s.setRx x).pb = s.pb := rfl
@[simp] theorem State.setRx_chA (s : State) (x : Rx) : (s.setRx x).chA = s.chA := rfl
@[simp] theorem State.setRx_chB (s : State) (x : Rx) : (s.setRx x).chB = s.chB := rfl
@[simp] theorem State.setRx_rx (s : State) (x : Rx) : (s.setRx x).rx = x := rfl
@[simp] theorem State.setRx_mem (s : State) (x : Rx) : (s.setRx x).mem = s.mem := rfl
@[simp] theorem State.setRx_crit (s : State) (x : Rx) : (s.setRx x).crit = s.crit := rfl
@[simp] theorem State.setRx_obs (s : State) (x : Rx) : (s.setRx x).obs = s.obs := rfl
@[simp] theorem State.setRx_sendA (s : State) (x : Rx) : (s.setRx x).sendA = s.sendA := rfl
@[simp] theorem State.setRx_sendB (s : State) (x : Rx) : (s.setRx x).sendB = s.sendB := rfl
@[simp] theorem State.setRx_out (s : State) (x : Rx) : (s.setRx x).out = s.out := rfl
@[simp] theorem State.setRx_issue (s : State) (x : Rx) : (s.setRx x).issue = s.issue := rfl
@[simp] theorem State.setRx_fresh (s : State) (x : Rx) : (s.setRx x).fresh = s.fresh := rfl
@[simp] theorem State.setRx_events (s : State) (x : Rx) : (s.setRx x).events = s.events := rfl
@[simp] theorem State.setRx_ch (s : State) (x : Rx) (c : Chan) : (s.setRx x).ch c = s.ch c := by
  cases c <;> rfl
@[simp] theorem State.setRx_send (s : State) (x : Rx) (c : Chan) : (s.setRx x).send c = s.send c := by
  cases c <;> rfl

@[simp] theorem State.setMem_params (s : State) (x : Memory) : (s.setMem x).params = s.params := rfl
@[simp] theorem State.setMem_pa (s : State) (x : Memory) : (s.setMem x).pa = s.pa := rfl
@[simp] theorem State.setMem_pb (s : State) (x : Memory) : (s.setMem x).pb = s.pb := rfl
@[simp] theorem State.setMem_chA (s : State) (x : Memory) : (s.setMem x).chA = s.chA := rfl
@[simp] theorem State.setMem_chB (s : State) (x : Memory) : (s.setMem x).chB = s.chB := rfl
@[simp] theorem State.setMem_rx (s : State) (x : Memory) : (s.setMem x).rx = s.rx := rfl
@[simp] theorem State.setMem_mem (s : State) (x : Memory) : (s.setMem x).mem = x := rfl
@[simp] theorem State.setMem_crit (s : State) (x : Memory) : (s.setMem x).crit = s.crit := rfl
@[simp] theorem State.setMem_obs (s : State) (x : Memory) : (s.setMem x).obs = s.obs := rfl
@[simp] theorem State.setMem_sendA (s : State) (x : Memory) : (s.setMem x).sendA = s.sendA := rfl
@[simp] theorem State.setMem_sendB (s : State) (x : Memory) : (s.setMem x).sendB = s.sendB := rfl
@[simp] theorem State.setMem_out (s : State) (x : Memory) : (s.setMem x).out = s.out := rfl
@[simp] theorem State.setMem_issue (s : State) (x : Memory) : (s.setMem x).issue = s.issue := rfl
@[simp] theorem State.setMem_fresh (s : State) (x : Memory) : (s.setMem x).fresh = s.fresh := rfl
@[simp] theorem State.setMem_events (s : State) (x : Memory) : (s.setMem x).events = s.events := rfl
@[simp] theorem State.setMem_ch (s : State) (x : Memory) (c : Chan) : (s.setMem x).ch c = s.ch c := by
  cases c <;> rfl
@[simp] theorem State.setMem_send (s : State) (x : Memory) (c : Chan) : (s.setMem x).send c = s.send c := by
  cases c <;> rfl

@[simp] theorem State.setCrit_params (s : State) (x : Bool) : (s.setCrit x).params = s.params := rfl
@[simp] theorem State.setCrit_pa (s : State) (x : Bool) : (s.setCrit x).pa = s.pa := rfl
@[simp] theorem State.setCrit_pb (s : State) (x : Bool) : (s.setCrit x).pb = s.pb := rfl
@[simp] theorem State.setCrit_chA (s : State) (x : Bool) : (s.setCrit x).chA = s.chA := rfl
@[simp] theorem State.setCrit_chB (s : State) (x : Bool) : (s.setCrit x).chB = s.chB := rfl
@[simp] theorem State.setCrit_rx (s : State) (x : Bool) : (s.setCrit x).rx = s.rx := rfl
@[simp] theorem State.setCrit_mem (s : State) (x : Bool) : (s.setCrit x).mem = s.mem := rfl
@[simp] theorem State.setCrit_crit (s : State) (x : Bool) : (s.setCrit x).crit = x := rfl
@[simp] theorem State.setCrit_obs (s : State) (x : Bool) : (s.setCrit x).obs = s.obs := rfl
@[simp] theorem State.setCrit_sendA (s : State) (x : Bool) : (s.setCrit x).sendA = s.sendA := rfl
@[simp] theorem State.setCrit_sendB (s : State) (x : Bool) : (s.setCrit x).sendB = s.sendB := rfl
@[simp] theorem State.setCrit_out (s : State) (x : Bool) : (s.setCrit x).out = s.out := rfl
@[simp] theorem State.setCrit_issue (s : State) (x : Bool) : (s.setCrit x).issue = s.issue := rfl
@[simp] theorem State.setCrit_fresh (s : State) (x : Bool) : (s.setCrit x).fresh = s.fresh := rfl
@[simp] theorem State.setCrit_events (s : State) (x : Bool) : (s.setCrit x).events = s.events := rfl
@[simp] theorem State.setCrit_ch (s : State) (x : Bool) (c : Chan) : (s.setCrit x).ch c = s.ch c := by
  cases c <;> rfl
@[simp] theorem State.setCrit_send (s : State) (x : Bool) (c : Chan) : (s.setCrit x).send c = s.send c := by
  cases c <;> rfl

@[simp] theorem State.setObs_params (s : State) (x : Obs) : (s.setObs x).params = s.params := rfl
@[simp] theorem State.setObs_pa (s : State) (x : Obs) : (s.setObs x).pa = s.pa := rfl
@[simp] theorem State.setObs_pb (s : State) (x : Obs) : (s.setObs x).pb = s.pb := rfl
@[simp] theorem State.setObs_chA (s : State) (x : Obs) : (s.setObs x).chA = s.chA := rfl
@[simp] theorem State.setObs_chB (s : State) (x : Obs) : (s.setObs x).chB = s.chB := rfl
@[simp] theorem State.setObs_rx (s : State) (x : Obs) : (s.setObs x).rx = s.rx := rfl
@[simp] theorem State.setObs_mem (s : State) (x : Obs) : (s.setObs x).mem = s.mem := rfl
@[simp] theorem State.setObs_crit (s : State) (x : Obs) : (s.setObs x).crit = s.crit := rfl
@[simp] theorem State.setObs_obs (s : State) (x : Obs) : (s.setObs x).obs = x := rfl
@[simp] theorem State.setObs_sendA (s : State) (x : Obs) : (s.setObs x).sendA = s.sendA := rfl
@[simp] theorem State.setObs_sendB (s : State) (x : Obs) : (s.setObs x).sendB = s.sendB := rfl
@[simp] theorem State.setObs_out (s : State) (x : Obs) : (s.setObs x).out = s.out := rfl
@[simp] theorem State.setObs_issue (s : State) (x : Obs) : (s.setObs x).issue = s.issue := rfl
@[simp] theorem State.setObs_fresh (s : State) (x : Obs) : (s.setObs x).fresh = s.fresh := rfl
@[simp] theorem State.setObs_events (s : State) (x : Obs) : (s.setObs x).events = s.events := rfl
@[simp] theorem State.setObs_ch (s : State) (x : Obs) (c : Chan) : (s.setObs x).ch c = s.ch c := by
  cases c <;> rfl
@[simp] theorem State.setObs_send (s : State) (x : Obs) (c : Chan) : (s.setObs x).send c = s.send c := by
  cases c <;> rfl

@[simp] theorem State.setOut_params (s : State) (x : Outputs) : (s.setOut x).params = s.params := rfl
@[simp] theorem State.setOut_pa (s : State) (x : Outputs) : (s.setOut x).pa = s.pa := rfl
@[simp] theorem State.setOut_pb (s : State) (x : Outputs) : (s.setOut x).pb = s.pb := rfl
@[simp] theorem State.setOut_chA (s : State) (x : Outputs) : (s.setOut x).chA = s.chA := rfl
@[simp] theorem State.setOut_chB (s : State) (x : Outputs) : (s.setOut x).chB = s.chB := rfl
@[simp] theorem State.setOut_rx (s : State) (x : Outputs) : (s.setOut x).rx = s.rx := rfl
@[simp] theorem State.setOut_mem (s : State) (x : Outputs) : (s.setOut x).mem = s.mem := rfl
@[simp] theorem State.setOut_crit (s : State) (x : Outputs) : (s.setOut x).crit = s.crit := rfl
@[simp] theorem State.setOut_obs (s : State) (x : Outputs) : (s.setOut x).obs = s.obs := rfl
@[simp] theorem State.setOut_sendA (s : State) (x : Outputs) : (s.setOut x).sendA = s.sendA := rfl
@[simp] theorem State.setOut_sendB (s : State) (x : Outputs) : (s.setOut x).sendB = s.sendB := rfl
@[simp] theorem State.setOut_out (s : State) (x : Outputs) : (s.setOut x).out = x := rfl
@[simp] theorem State.setOut_issue (s : State) (x : Outputs) : (s.setOut x).issue = s.issue := rfl
@[simp] theorem State.setOut_fresh (s : State) (x : Outputs) : (s.setOut x).fresh = s.fresh := rfl
@[simp] theorem State.setOut_events (s : State) (x : Outputs) : (s.setOut x).events = s.events := rfl
@[simp] theorem State.setOut_ch (s : State) (x : Outputs) (c : Chan) : (s.setOut x).ch c = s.ch c := by
  cases c <;> rfl
@[simp] theorem State.setOut_send (s : State) (x : Outputs) (c : Chan) : (s.setOut x).send c =
    s.send c := by
  cases c <;> rfl

@[simp] theorem State.setIssue_params (s : State) (x : Issue) : (s.setIssue x).params = s.params := rfl
@[simp] theorem State.setIssue_pa (s : State) (x : Issue) : (s.setIssue x).pa = s.pa := rfl
@[simp] theorem State.setIssue_pb (s : State) (x : Issue) : (s.setIssue x).pb = s.pb := rfl
@[simp] theorem State.setIssue_chA (s : State) (x : Issue) : (s.setIssue x).chA = s.chA := rfl
@[simp] theorem State.setIssue_chB (s : State) (x : Issue) : (s.setIssue x).chB = s.chB := rfl
@[simp] theorem State.setIssue_rx (s : State) (x : Issue) : (s.setIssue x).rx = s.rx := rfl
@[simp] theorem State.setIssue_mem (s : State) (x : Issue) : (s.setIssue x).mem = s.mem := rfl
@[simp] theorem State.setIssue_crit (s : State) (x : Issue) : (s.setIssue x).crit = s.crit := rfl
@[simp] theorem State.setIssue_obs (s : State) (x : Issue) : (s.setIssue x).obs = s.obs := rfl
@[simp] theorem State.setIssue_sendA (s : State) (x : Issue) : (s.setIssue x).sendA = s.sendA := rfl
@[simp] theorem State.setIssue_sendB (s : State) (x : Issue) : (s.setIssue x).sendB = s.sendB := rfl
@[simp] theorem State.setIssue_out (s : State) (x : Issue) : (s.setIssue x).out = s.out := rfl
@[simp] theorem State.setIssue_issue (s : State) (x : Issue) : (s.setIssue x).issue = x := rfl
@[simp] theorem State.setIssue_fresh (s : State) (x : Issue) : (s.setIssue x).fresh = s.fresh := rfl
@[simp] theorem State.setIssue_events (s : State) (x : Issue) : (s.setIssue x).events = s.events := rfl
@[simp] theorem State.setIssue_ch (s : State) (x : Issue) (c : Chan) : (s.setIssue x).ch c = s.ch c := by
  cases c <;> rfl
@[simp] theorem State.setIssue_send (s : State) (x : Issue) (c : Chan) : (s.setIssue x).send c =
    s.send c := by
  cases c <;> rfl

@[simp] theorem State.setFresh_params (s : State) (x : Nat) : (s.setFresh x).params = s.params := rfl
@[simp] theorem State.setFresh_pa (s : State) (x : Nat) : (s.setFresh x).pa = s.pa := rfl
@[simp] theorem State.setFresh_pb (s : State) (x : Nat) : (s.setFresh x).pb = s.pb := rfl
@[simp] theorem State.setFresh_chA (s : State) (x : Nat) : (s.setFresh x).chA = s.chA := rfl
@[simp] theorem State.setFresh_chB (s : State) (x : Nat) : (s.setFresh x).chB = s.chB := rfl
@[simp] theorem State.setFresh_rx (s : State) (x : Nat) : (s.setFresh x).rx = s.rx := rfl
@[simp] theorem State.setFresh_mem (s : State) (x : Nat) : (s.setFresh x).mem = s.mem := rfl
@[simp] theorem State.setFresh_crit (s : State) (x : Nat) : (s.setFresh x).crit = s.crit := rfl
@[simp] theorem State.setFresh_obs (s : State) (x : Nat) : (s.setFresh x).obs = s.obs := rfl
@[simp] theorem State.setFresh_sendA (s : State) (x : Nat) : (s.setFresh x).sendA = s.sendA := rfl
@[simp] theorem State.setFresh_sendB (s : State) (x : Nat) : (s.setFresh x).sendB = s.sendB := rfl
@[simp] theorem State.setFresh_out (s : State) (x : Nat) : (s.setFresh x).out = s.out := rfl
@[simp] theorem State.setFresh_issue (s : State) (x : Nat) : (s.setFresh x).issue = s.issue := rfl
@[simp] theorem State.setFresh_fresh (s : State) (x : Nat) : (s.setFresh x).fresh = x := rfl
@[simp] theorem State.setFresh_events (s : State) (x : Nat) : (s.setFresh x).events = s.events := rfl
@[simp] theorem State.setFresh_ch (s : State) (x : Nat) (c : Chan) : (s.setFresh x).ch c = s.ch c := by
  cases c <;> rfl
@[simp] theorem State.setFresh_send (s : State) (x : Nat) (c : Chan) : (s.setFresh x).send c =
    s.send c := by
  cases c <;> rfl

@[simp] theorem State.setEvents_params (s : State) (x : List Event) : (s.setEvents x).params =
    s.params := rfl
@[simp] theorem State.setEvents_pa (s : State) (x : List Event) : (s.setEvents x).pa = s.pa := rfl
@[simp] theorem State.setEvents_pb (s : State) (x : List Event) : (s.setEvents x).pb = s.pb := rfl
@[simp] theorem State.setEvents_chA (s : State) (x : List Event) : (s.setEvents x).chA = s.chA := rfl
@[simp] theorem State.setEvents_chB (s : State) (x : List Event) : (s.setEvents x).chB = s.chB := rfl
@[simp] theorem State.setEvents_rx (s : State) (x : List Event) : (s.setEvents x).rx = s.rx := rfl
@[simp] theorem State.setEvents_mem (s : State) (x : List Event) : (s.setEvents x).mem = s.mem := rfl
@[simp] theorem State.setEvents_crit (s : State) (x : List Event) : (s.setEvents x).crit = s.crit := rfl
@[simp] theorem State.setEvents_obs (s : State) (x : List Event) : (s.setEvents x).obs = s.obs := rfl
@[simp] theorem State.setEvents_sendA (s : State) (x : List Event) : (s.setEvents x).sendA = s.sendA := rfl
@[simp] theorem State.setEvents_sendB (s : State) (x : List Event) : (s.setEvents x).sendB = s.sendB := rfl
@[simp] theorem State.setEvents_out (s : State) (x : List Event) : (s.setEvents x).out = s.out := rfl
@[simp] theorem State.setEvents_issue (s : State) (x : List Event) : (s.setEvents x).issue = s.issue := rfl
@[simp] theorem State.setEvents_fresh (s : State) (x : List Event) : (s.setEvents x).fresh = s.fresh := rfl
@[simp] theorem State.setEvents_events (s : State) (x : List Event) : (s.setEvents x).events = x := rfl
@[simp] theorem State.setEvents_ch (s : State) (x : List Event) (c : Chan) :
    (s.setEvents x).ch c = s.ch c := by
  cases c <;> rfl
@[simp] theorem State.setEvents_send (s : State) (x : List Event) (c : Chan) :
    (s.setEvents x).send c = s.send c := by
  cases c <;> rfl

@[simp] theorem State.answer_params (s : State) (r : Result) : (s.answer r).params = s.params := rfl
@[simp] theorem State.answer_pa (s : State) (r : Result) : (s.answer r).pa = s.pa := rfl
@[simp] theorem State.answer_pb (s : State) (r : Result) : (s.answer r).pb = s.pb := rfl
@[simp] theorem State.answer_chA (s : State) (r : Result) : (s.answer r).chA = s.chA := rfl
@[simp] theorem State.answer_chB (s : State) (r : Result) : (s.answer r).chB = s.chB := rfl
@[simp] theorem State.answer_rx (s : State) (r : Result) : (s.answer r).rx = s.rx := rfl
@[simp] theorem State.answer_mem (s : State) (r : Result) : (s.answer r).mem = s.mem := rfl
@[simp] theorem State.answer_crit (s : State) (r : Result) : (s.answer r).crit = s.crit := rfl
@[simp] theorem State.answer_obs (s : State) (r : Result) : (s.answer r).obs = s.obs := rfl
@[simp] theorem State.answer_sendA (s : State) (r : Result) : (s.answer r).sendA = s.sendA := rfl
@[simp] theorem State.answer_sendB (s : State) (r : Result) : (s.answer r).sendB = s.sendB := rfl
@[simp] theorem State.answer_out (s : State) (r : Result) : (s.answer r).out = ⟨r, false⟩ := rfl
@[simp] theorem State.answer_issue (s : State) (r : Result) : (s.answer r).issue = s.issue := rfl
@[simp] theorem State.answer_fresh (s : State) (r : Result) : (s.answer r).fresh = s.fresh := rfl
@[simp] theorem State.answer_events (s : State) (r : Result) : (s.answer r).events = s.events := rfl
@[simp] theorem State.answer_ch (s : State) (r : Result) (c : Chan) : (s.answer r).ch c = s.ch c := by
  cases c <;> rfl
@[simp] theorem State.answer_send (s : State) (r : Result) (c : Chan) : (s.answer r).send c = s.send c := by
  cases c <;> rfl

@[simp] theorem State.setCh_params (s : State) (c : Chan) (x : Channel) : (s.setCh c x).params =
    s.params := by
  cases c <;> rfl
@[simp] theorem State.setCh_pa (s : State) (c : Chan) (x : Channel) : (s.setCh c x).pa = s.pa := by
  cases c <;> rfl
@[simp] theorem State.setCh_pb (s : State) (c : Chan) (x : Channel) : (s.setCh c x).pb = s.pb := by
  cases c <;> rfl
@[simp] theorem State.setCh_rx (s : State) (c : Chan) (x : Channel) : (s.setCh c x).rx = s.rx := by
  cases c <;> rfl
@[simp] theorem State.setCh_mem (s : State) (c : Chan) (x : Channel) : (s.setCh c x).mem = s.mem := by
  cases c <;> rfl
@[simp] theorem State.setCh_crit (s : State) (c : Chan) (x : Channel) : (s.setCh c x).crit = s.crit := by
  cases c <;> rfl
@[simp] theorem State.setCh_obs (s : State) (c : Chan) (x : Channel) : (s.setCh c x).obs = s.obs := by
  cases c <;> rfl
@[simp] theorem State.setCh_sendA (s : State) (c : Chan) (x : Channel) : (s.setCh c x).sendA = s.sendA := by
  cases c <;> rfl
@[simp] theorem State.setCh_sendB (s : State) (c : Chan) (x : Channel) : (s.setCh c x).sendB = s.sendB := by
  cases c <;> rfl
@[simp] theorem State.setCh_out (s : State) (c : Chan) (x : Channel) : (s.setCh c x).out = s.out := by
  cases c <;> rfl
@[simp] theorem State.setCh_issue (s : State) (c : Chan) (x : Channel) : (s.setCh c x).issue = s.issue := by
  cases c <;> rfl
@[simp] theorem State.setCh_fresh (s : State) (c : Chan) (x : Channel) : (s.setCh c x).fresh = s.fresh := by
  cases c <;> rfl
@[simp] theorem State.setCh_events (s : State) (c : Chan) (x : Channel) : (s.setCh c x).events =
    s.events := by
  cases c <;> rfl
@[simp] theorem State.setCh_ch (s : State) (c : Chan) (x : Channel) : (s.setCh c x).ch c = x := by
  cases c <;> rfl
@[simp] theorem State.setCh_ch_other (s : State) (c : Chan) (x : Channel) :
    (s.setCh c x).ch c.other = s.ch c.other := by
  cases c <;> rfl
@[simp] theorem State.setCh_send (s : State) (c d : Chan) (x : Channel) : (s.setCh c x).send d =
    s.send d := by
  cases c <;> cases d <;> rfl
@[simp] theorem State.setCh_a (s : State) (x : Channel) : s.setCh .a x = { s with chA := x } := rfl
@[simp] theorem State.setCh_b (s : State) (x : Channel) : s.setCh .b x = { s with chB := x } := rfl

@[simp] theorem State.setSend_params (s : State) (c : Chan) (x : Option Send) :
    (s.setSend c x).params = s.params := by
  cases c <;> rfl
@[simp] theorem State.setSend_pa (s : State) (c : Chan) (x : Option Send) : (s.setSend c x).pa = s.pa := by
  cases c <;> rfl
@[simp] theorem State.setSend_pb (s : State) (c : Chan) (x : Option Send) : (s.setSend c x).pb = s.pb := by
  cases c <;> rfl
@[simp] theorem State.setSend_chA (s : State) (c : Chan) (x : Option Send) : (s.setSend c x).chA =
    s.chA := by
  cases c <;> rfl
@[simp] theorem State.setSend_chB (s : State) (c : Chan) (x : Option Send) : (s.setSend c x).chB =
    s.chB := by
  cases c <;> rfl
@[simp] theorem State.setSend_rx (s : State) (c : Chan) (x : Option Send) : (s.setSend c x).rx = s.rx := by
  cases c <;> rfl
@[simp] theorem State.setSend_mem (s : State) (c : Chan) (x : Option Send) : (s.setSend c x).mem =
    s.mem := by
  cases c <;> rfl
@[simp] theorem State.setSend_crit (s : State) (c : Chan) (x : Option Send) :
    (s.setSend c x).crit = s.crit := by
  cases c <;> rfl
@[simp] theorem State.setSend_obs (s : State) (c : Chan) (x : Option Send) : (s.setSend c x).obs =
    s.obs := by
  cases c <;> rfl
@[simp] theorem State.setSend_out (s : State) (c : Chan) (x : Option Send) : (s.setSend c x).out =
    s.out := by
  cases c <;> rfl
@[simp] theorem State.setSend_issue (s : State) (c : Chan) (x : Option Send) :
    (s.setSend c x).issue = s.issue := by
  cases c <;> rfl
@[simp] theorem State.setSend_fresh (s : State) (c : Chan) (x : Option Send) :
    (s.setSend c x).fresh = s.fresh := by
  cases c <;> rfl
@[simp] theorem State.setSend_events (s : State) (c : Chan) (x : Option Send) :
    (s.setSend c x).events = s.events := by
  cases c <;> rfl
@[simp] theorem State.setSend_send (s : State) (c : Chan) (x : Option Send) :
    (s.setSend c x).send c = x := by
  cases c <;> rfl
@[simp] theorem State.setSend_send_other (s : State) (c : Chan) (x : Option Send) :
    (s.setSend c x).send c.other = s.send c.other := by
  cases c <;> rfl
@[simp] theorem State.setSend_ch (s : State) (c d : Chan) (x : Option Send) :
    (s.setSend c x).ch d = s.ch d := by
  cases c <;> cases d <;> rfl
@[simp] theorem State.setSend_a (s : State) (x : Option Send) : s.setSend .a x = { s with sendA :=
    x } := rfl
@[simp] theorem State.setSend_b (s : State) (x : Option Send) : s.setSend .b x = { s with sendB :=
    x } := rfl

@[simp] theorem State.ch_a (s : State) : s.ch .a = s.chA := rfl
@[simp] theorem State.ch_b (s : State) : s.ch .b = s.chB := rfl
@[simp] theorem State.send_a (s : State) : s.send .a = s.sendA := rfl
@[simp] theorem State.send_b (s : State) : s.send .b = s.sendB := rfl
@[simp] theorem Chan.other_a : Chan.other .a = .b := rfl
@[simp] theorem Chan.other_b : Chan.other .b = .a := rfl
@[simp] theorem Chan.other_other (c : Chan) : c.other.other = c := by
  cases c <;> rfl

end Sys2Proof.Machine
end

