-- ==== Sys2Proof/Laws/Memory.lean ====
section
/-! SUPPORT. The laws of the byte spaces and of the observed line: read after write, the canonical form
kept by every write, and what each access can answer. -/

namespace Sys2Proof.Machine

/-! ## Banks -/

theorem bankSet_mem {m : Bank} {a : Nat} {b : Byte} {x : Host.Cell} (h : x ∈ bankSet m a b) :
    x = (a, b) ∨ x ∈ m := by
  induction m with
  | nil =>
    simp only [bankSet] at h
    split at h <;> simp_all
  | cons y m ih =>
    obtain ⟨k, v⟩ := y
    simp only [bankSet] at h
    split at h
    · split at h
      · exact .inr h
      · simp only [List.mem_cons] at h ⊢; tauto
    · split at h
      · split at h
        · exact .inr (List.mem_cons_of_mem _ h)
        · simp only [List.mem_cons] at h ⊢; tauto
      · simp only [List.mem_cons] at h ⊢
        rcases h with h | h
        · tauto
        · rcases ih h with h | h <;> tauto

theorem bankSet_wf {m : Bank} (hm : Bank.wf m) (a : Nat) (b : Byte) : Bank.wf (bankSet m a b) := by
  induction m with
  | nil =>
    simp only [bankSet]
    split <;> rename_i hb <;> simp [Bank.wf, hb]
  | cons y m ih =>
    obtain ⟨k, v⟩ := y
    obtain ⟨hp, hz⟩ := hm
    have hp' := List.pairwise_cons.mp hp
    have hm' : Bank.wf m := ⟨hp'.2, fun x hx => hz x (List.mem_cons_of_mem _ hx)⟩
    simp only [bankSet]
    split <;> rename_i h1
    · split <;> rename_i hb
      · exact ⟨hp, hz⟩
      · refine ⟨List.pairwise_cons.mpr ⟨?_, hp⟩, ?_⟩
        · intro x hx
          rcases List.mem_cons.mp hx with rfl | hx
          · exact h1
          · exact lt_trans h1 (hp'.1 x hx)
        · intro x hx
          rcases List.mem_cons.mp hx with rfl | hx
          · exact hb
          · exact hz x hx
    · split <;> rename_i h2
      · split <;> rename_i hb
        · exact hm'
        · subst h2
          refine ⟨List.pairwise_cons.mpr ⟨hp'.1, hp'.2⟩, ?_⟩
          intro x hx
          rcases List.mem_cons.mp hx with rfl | hx
          · exact hb
          · exact hm'.2 x hx
      · refine ⟨List.pairwise_cons.mpr ⟨?_, (ih hm').1⟩, ?_⟩
        · intro x hx
          rcases bankSet_mem hx with rfl | hx
          · show k < a; omega
          · exact hp'.1 x hx
        · intro x hx
          rcases List.mem_cons.mp hx with rfl | hx
          · exact hz _ (List.mem_cons_self ..)
          · exact (ih hm').2 x hx

theorem bankGet_eq_unlisted {m : Bank} {a : Nat} (h : ∀ x ∈ m, x.1 ≠ a) :
    bankGet m a = unlistedByte := by
  induction m with
  | nil => rfl
  | cons y m ih =>
    obtain ⟨k, v⟩ := y
    simp only [bankGet]
    rw [if_neg (h _ (List.mem_cons_self ..))]
    exact ih fun x hx => h x (List.mem_cons_of_mem _ hx)

theorem bankGet_bankSet_same {m : Bank} (hm : Bank.wf m) (a : Nat) (b : Byte) :
    bankGet (bankSet m a b) a = b := by
  induction m with
  | nil =>
    simp only [bankSet]
    split <;> rename_i hb <;> simp [bankGet, hb]
  | cons y m ih =>
    obtain ⟨k, v⟩ := y
    have hp' := List.pairwise_cons.mp hm.1
    have hm' : Bank.wf m := ⟨hp'.2, fun x hx => hm.2 x (List.mem_cons_of_mem _ hx)⟩
    simp only [bankSet]
    split <;> rename_i h1
    · split <;> rename_i hb
      · rw [hb]
        apply bankGet_eq_unlisted
        intro x hx
        rcases List.mem_cons.mp hx with rfl | hx
        · show k ≠ a; omega
        · have : k < x.1 := hp'.1 x hx; omega
      · simp [bankGet]
    · split <;> rename_i h2
      · split <;> rename_i hb
        · rw [hb]
          apply bankGet_eq_unlisted
          intro x hx
          have : k < x.1 := hp'.1 x hx; omega
        · simp [bankGet]
      · simp only [bankGet]
        rw [if_neg (by omega)]
        exact ih hm'

theorem bankGet_bankSet_ne (m : Bank) {a i : Nat} (b : Byte) (h : i ≠ a) :
    bankGet (bankSet m a b) i = bankGet m i := by
  induction m with
  | nil =>
    simp only [bankSet]
    split
    · rfl
    · simp [bankGet, h.symm]
  | cons y m ih =>
    obtain ⟨k, v⟩ := y
    simp only [bankSet]
    split
    · split
      · rfl
      · simp [bankGet, h.symm]
    · split <;> rename_i h2
      · split
        · simp [bankGet, h2 ▸ h.symm]
        · simp [bankGet, h2 ▸ h.symm, h.symm]
      · simp only [bankGet, ih]

theorem bankGet_bankSet {m : Bank} (hm : Bank.wf m) (a i : Nat) (b : Byte) :
    bankGet (bankSet m a b) i = if i = a then b else bankGet m i := by
  split <;> rename_i h
  · subst h; exact bankGet_bankSet_same hm _ b
  · exact bankGet_bankSet_ne m b h

/-- A bank with no index at or beyond `n` keeps that under a write below `n`. -/
theorem bankSet_bound {m : Bank} {n a : Nat} (b : Byte) (hm : ∀ x ∈ m, x.1 < n) (ha : a < n) :
    ∀ x ∈ bankSet m a b, x.1 < n := by
  intro x hx
  rcases bankSet_mem hx with rfl | hx
  · exact ha
  · exact hm x hx

theorem bankFree_wf {m : Bank} (hm : Bank.wf m) (d n : Nat) : Bank.wf (bankFree d m n) := by
  induction n with
  | zero => exact hm
  | succ n ih => exact bankSet_wf ih _ _

theorem bankFree_bound {m : Bank} {k : Nat} (d n : Nat) (hm : ∀ x ∈ m, x.1 < k) (hn : n ≤ k) :
    ∀ x ∈ bankFree d m n, x.1 < k := by
  induction n with
  | zero => exact hm
  | succ n ih => exact bankSet_bound _ (ih (by omega)) (by omega)

theorem bankWrite_wf {m : Bank} (hm : Bank.wf m) (i : Nat) (bs : List Byte) :
    Bank.wf (bankWrite m i bs) := by
  induction bs generalizing m i with
  | nil => exact hm
  | cons b bs ih => exact ih (bankSet_wf hm i b) (i + 1)

theorem bankWrite_bound {m : Bank} {k : Nat} (i : Nat) (bs : List Byte) (hm : ∀ x ∈ m, x.1 < k)
    (hn : i + bs.length ≤ k) : ∀ x ∈ bankWrite m i bs, x.1 < k := by
  induction bs generalizing m i with
  | nil => exact hm
  | cons b bs ih =>
    simp only [List.length_cons] at hn
    exact ih (i + 1) (bankSet_bound b hm (by omega)) (by omega)

theorem bankGet_bankWrite {m : Bank} (hm : Bank.wf m) (i j : Nat) (bs : List Byte) :
    bankGet (bankWrite m i bs) j
      = if h : i ≤ j ∧ j - i < bs.length then bs[j - i]'h.2 else bankGet m j := by
  induction bs generalizing m i with
  | nil => simp [bankWrite]
  | cons b bs ih =>
    simp only [bankWrite]
    rw [ih (bankSet_wf hm i b), bankGet_bankSet hm]
    rcases Nat.lt_trichotomy j i with h | h | h
    · rw [dif_neg (by omega), dif_neg (by omega), if_neg (by omega)]
    · subst h
      rw [dif_neg (by omega), if_pos rfl]
      simp
    · by_cases h2 : j - (i + 1) < bs.length
      · rw [dif_pos ⟨by omega, h2⟩, dif_pos ⟨by omega, by simp; omega⟩]
        rw [List.getElem_cons, dif_neg (by omega)]
        congr 1
      · rw [dif_neg (by omega), dif_neg (by simp; omega), if_neg (by omega)]

/-! ## Spaces -/

@[simp] theorem Memory.bank_setBank (m : Memory) (sp : Space) (b : Bank) :
    (m.setBank sp b).bank sp = b := by
  cases sp <;> rfl

theorem Memory.bank_setBank_ne (m : Memory) {sp sp' : Space} (b : Bank) (h : sp' ≠ sp) :
    (m.setBank sp b).bank sp' = m.bank sp' := by
  cases sp <;> cases sp' <;> first | rfl | exact absurd rfl h

theorem memRead_eq {p : Params} {m : Memory} {sp : Space} {i : Nat} (h : i < spaceSize p sp) :
    memRead p m sp i = some (m.byteAt sp i) := by
  simp [memRead, h]

theorem memRead_some {p : Params} {m : Memory} {sp : Space} {i : Nat} {b : Byte}
    (h : memRead p m sp i = some b) : i < spaceSize p sp ∧ b = m.byteAt sp i := by
  unfold memRead at h
  split at h
  · exact ⟨‹_›, by simpa using h.symm⟩
  · cases h

theorem memWrite_eq {p : Params} {m : Memory} {sp : Space} {i : Nat} {v : Byte}
    (h : i < spaceSize p sp) :
    memWrite p m sp i v = some (m.setBank sp (bankSet (m.bank sp) i v)) := by
  simp [memWrite, h]

theorem memWrite_some {p : Params} {m m' : Memory} {sp : Space} {i : Nat} {v : Byte}
    (h : memWrite p m sp i v = some m') :
    i < spaceSize p sp ∧ m' = m.setBank sp (bankSet (m.bank sp) i v) := by
  unfold memWrite at h
  split at h
  · exact ⟨‹_›, by simpa using h.symm⟩
  · cases h

/-- A write leaves every other byte of every space as it was. -/
theorem memWrite_byteAt_ne {p : Params} {m m' : Memory} {sp sp' : Space} {i j : Nat} {v : Byte}
    (h : memWrite p m sp i v = some m') (hne : sp' ≠ sp ∨ j ≠ i) :
    m'.byteAt sp' j = m.byteAt sp' j := by
  obtain ⟨-, rfl⟩ := memWrite_some h
  unfold Memory.byteAt
  by_cases hs : sp' = sp
  · subst hs
    rw [Memory.bank_setBank]
    exact bankGet_bankSet_ne _ v (hne.resolve_left (by simp))
  · rw [Memory.bank_setBank_ne _ _ hs]

/-- A write is read back. -/
theorem memWrite_byteAt_same {p : Params} {m m' : Memory} {sp : Space} {i : Nat} {v : Byte}
    (hm : Bank.wf (m.bank sp)) (h : memWrite p m sp i v = some m') : m'.byteAt sp i = v := by
  obtain ⟨-, rfl⟩ := memWrite_some h
  unfold Memory.byteAt
  rw [Memory.bank_setBank]
  exact bankGet_bankSet_same hm i v

theorem Memory.SpaceOk.setBank {p : Params} {m : Memory} (hm : ∀ sp, m.SpaceOk p sp) {sp : Space}
    {b : Bank} (hb : Bank.wf b) (hn : ∀ x ∈ b, x.1 < spaceSize p sp) :
    ∀ sp', (m.setBank sp b).SpaceOk p sp' := by
  intro sp'
  by_cases hs : sp' = sp
  · subst hs
    unfold Memory.SpaceOk
    rw [Memory.bank_setBank]
    exact ⟨hb, hn⟩
  · unfold Memory.SpaceOk
    rw [Memory.bank_setBank_ne _ _ hs]
    exact hm sp'

/-- Every space stays in canonical form and within its size under a write. -/
theorem memWrite_ok {p : Params} {m m' : Memory} {sp : Space} {i : Nat} {v : Byte}
    (hm : ∀ sp, m.SpaceOk p sp) (h : memWrite p m sp i v = some m') :
    ∀ sp', m'.SpaceOk p sp' := by
  obtain ⟨hi, rfl⟩ := memWrite_some h
  exact Memory.SpaceOk.setBank hm (bankSet_wf (hm sp).1 i v) (bankSet_bound v (hm sp).2 hi)

/-- A list of bytes is written exactly where it fits. -/
theorem memWriteList_eq {p : Params} {m : Memory} {sp : Space} {i : Nat} {bs : List Byte}
    (h : bs = [] ∨ i + bs.length ≤ spaceSize p sp) :
    memWriteList p sp m i bs = some (m.setBank sp (bankWrite (m.bank sp) i bs)) := by
  induction bs generalizing m i with
  | nil => cases sp <;> rfl
  | cons b bs ih =>
    simp only [reduceCtorEq, List.length_cons, false_or] at h
    simp only [memWriteList, memWrite_eq (show i < spaceSize p sp by omega)]
    rw [ih (by right; omega), Memory.bank_setBank]
    cases sp <;> rfl

theorem memWriteList_some {p : Params} {m m' : Memory} {sp : Space} {i : Nat} {bs : List Byte}
    (h : memWriteList p sp m i bs = some m') :
    (bs = [] ∨ i + bs.length ≤ spaceSize p sp) ∧
      m' = m.setBank sp (bankWrite (m.bank sp) i bs) := by
  induction bs generalizing m i with
  | nil =>
    simp only [memWriteList, Option.some.injEq] at h
    subst h
    exact ⟨.inl rfl, by cases sp <;> rfl⟩
  | cons b bs ih =>
    simp only [memWriteList] at h
    split at h
    · rename_i m1 hw
      obtain ⟨hi, rfl⟩ := memWrite_some hw
      obtain ⟨hl, rfl⟩ := ih h
      refine ⟨.inr ?_, by cases sp <;> rfl⟩
      simp only [List.length_cons]
      rcases hl with rfl | hl
      · simp; omega
      · omega
    · cases h

theorem memReadList_eq {p : Params} {m : Memory} {sp : Space} {i n : Nat}
    (h : n = 0 ∨ i + n ≤ spaceSize p sp) :
    memReadList p m sp i n = some ((List.range n).map fun j => m.byteAt sp (i + j)) := by
  induction n generalizing i with
  | zero => rfl
  | succ n ih =>
    have hi : i + (n + 1) ≤ spaceSize p sp := h.resolve_left (by omega)
    simp only [memReadList, memRead_eq (show i < spaceSize p sp by omega)]
    rw [ih (by right; omega)]
    simp only [List.range_succ_eq_map, List.map_cons, List.map_map, Nat.add_zero]
    congr 2
    apply List.map_congr_left
    intro j _
    simp only [Function.comp]
    congr 1; omega

theorem memReadList_some {p : Params} {m : Memory} {sp : Space} {i n : Nat} {bs : List Byte}
    (h : memReadList p m sp i n = some bs) :
    bs = (List.range n).map fun j => m.byteAt sp (i + j) := by
  by_cases hn : n = 0 ∨ i + n ≤ spaceSize p sp
  · rw [memReadList_eq hn] at h
    exact (Option.some.inj h).symm
  · exfalso
    induction n generalizing i bs with
    | zero => simp at hn
    | succ n ih =>
      simp only [memReadList] at h
      split at h
      · rename_i b bs' h1 h2
        have := (memRead_some h1).1
        apply ih h2
        omega
      · cases h

/-! ## The observed line -/

theorem lineAppend_mem {l : List (Nat × List Sent)} {pin : Nat} {ys : List Sent}
    {x : Nat × List Sent} (h : x ∈ lineAppend l pin ys) :
    x.1 = pin ∨ x ∈ l := by
  induction l with
  | nil =>
    simp only [lineAppend] at h
    split at h <;> simp_all
  | cons y l ih =>
    obtain ⟨k, v⟩ := y
    simp only [lineAppend] at h
    split at h
    · split at h
      · exact .inr h
      · simp only [List.mem_cons] at h ⊢
        rcases h with rfl | h
        · exact .inl rfl
        · exact .inr h
    · split at h <;> rename_i h2
      · simp only [List.mem_cons] at h ⊢
        rcases h with rfl | h
        · exact .inl h2.symm
        · exact .inr (.inr h)
      · simp only [List.mem_cons] at h ⊢
        rcases h with h | h
        · exact .inr (.inl h)
        · rcases ih h with h | h
          · exact .inl h
          · exact .inr (.inr h)

theorem lineAppend_wf {l : List (Nat × List Sent)} (hl : lineWf l) (pin : Nat) (ys : List Sent) :
    lineWf (lineAppend l pin ys) := by
  induction l with
  | nil =>
    simp only [lineAppend]
    split <;> rename_i h <;> simp [lineWf, h]
  | cons y l ih =>
    obtain ⟨k, v⟩ := y
    obtain ⟨hp, hz⟩ := hl
    have hp' := List.pairwise_cons.mp hp
    have hl' : lineWf l := ⟨hp'.2, fun x hx => hz x (List.mem_cons_of_mem _ hx)⟩
    simp only [lineAppend]
    split <;> rename_i h1
    · split <;> rename_i hb
      · exact ⟨hp, hz⟩
      · refine ⟨List.pairwise_cons.mpr ⟨?_, hp⟩, ?_⟩
        · intro x hx
          rcases List.mem_cons.mp hx with rfl | hx
          · exact h1
          · exact lt_trans h1 (hp'.1 x hx)
        · intro x hx
          rcases List.mem_cons.mp hx with rfl | hx
          · exact hb
          · exact hz x hx
    · split <;> rename_i h2
      · refine ⟨List.pairwise_cons.mpr ⟨hp'.1, hp'.2⟩, ?_⟩
        intro x hx
        rcases List.mem_cons.mp hx with rfl | hx
        · have : v ≠ [] := hz (k, v) (List.mem_cons_self ..)
          simp [this]
        · exact hl'.2 x hx
      · refine ⟨List.pairwise_cons.mpr ⟨?_, (ih hl').1⟩, ?_⟩
        · intro x hx
          rcases lineAppend_mem hx with hx | hx
          · show k < x.1; omega
          · exact hp'.1 x hx
        · intro x hx
          rcases List.mem_cons.mp hx with rfl | hx
          · exact hz _ (List.mem_cons_self ..)
          · exact (ih hl').2 x hx

theorem lineGet_eq_nil {l : List (Nat × List Sent)} {pin : Nat} (h : ∀ x ∈ l, x.1 ≠ pin) :
    lineGet l pin = [] := by
  induction l with
  | nil => rfl
  | cons y l ih =>
    obtain ⟨k, v⟩ := y
    simp only [lineGet]
    rw [if_neg (h _ (List.mem_cons_self ..))]
    exact ih fun x hx => h x (List.mem_cons_of_mem _ hx)

/-- Appending to a pin's line adds to that pin and to no other. -/
theorem lineGet_lineAppend {l : List (Nat × List Sent)} (hl : lineWf l) (pin q : Nat)
    (ys : List Sent) :
    lineGet (lineAppend l pin ys) q = if q = pin then lineGet l q ++ ys else lineGet l q := by
  induction l with
  | nil =>
    simp only [lineAppend]
    split <;> rename_i h
    · simp [lineGet, h]
    · simp only [lineGet]
      split <;> split <;> simp_all
  | cons y l ih =>
    obtain ⟨k, v⟩ := y
    have hp' := List.pairwise_cons.mp hl.1
    have hl' : lineWf l := ⟨hp'.2, fun x hx => hl.2 x (List.mem_cons_of_mem _ hx)⟩
    simp only [lineAppend]
    split <;> rename_i h1
    · split <;> rename_i hb
      · subst hb; simp
      · by_cases hq : q = pin
        · subst hq
          have hn : lineGet ((k, v) :: l) q = [] := by
            apply lineGet_eq_nil
            intro x hx
            rcases List.mem_cons.mp hx with rfl | hx
            · show k ≠ q; omega
            · have : k < x.1 := hp'.1 x hx; omega
          rw [if_pos rfl, hn]
          simp [lineGet]
        · rw [if_neg hq]
          simp [lineGet, Ne.symm hq]
    · split <;> rename_i h2
      · subst h2
        by_cases hq : q = pin
        · subst hq; simp [lineGet]
        · rw [if_neg hq]; simp [lineGet, Ne.symm hq]
      · simp only [lineGet, ih hl']
        by_cases hq : q = pin
        · subst hq; simp [if_neg (show k ≠ q from fun h => h2 h.symm)]
        · simp [hq]

end Sys2Proof.Machine
end

