-- ==== Sys2Proof/Laws/Ops.lean ====
section
/-! SUPPORT. What each shared operation can answer: a next state of it means one of the cases its lemma
names. -/

namespace Sys2Proof.Machine

theorem orOutOfRange_next {α : Type} {o : Option α} {k : α → StepOut State} {t : State} :
    orOutOfRange o k = .next t ↔ ∃ x, o = some x ∧ k x = .next t := by
  cases o <;> simp [orOutOfRange]

@[simp] theorem orOutOfRange_some {α : Type} (x : α) (k : α → StepOut State) :
    orOutOfRange (some x) k = k x := rfl

@[simp] theorem orOutOfRange_none {α : Type} (k : α → StepOut State) :
    orOutOfRange none k = .fault .outOfRange := rfl

theorem andThen_next {o : StepOut State} {k : State → StepOut State} {t : State} :
    andThen o k = .next t ↔ ∃ s, o = .next s ∧ k s = .next t := by
  cases o <;> simp [andThen]

@[simp] theorem andThen_next_eq (s : State) (k : State → StepOut State) :
    andThen (.next s) k = k s := rfl

theorem takeInterrupt_next {h : State → StepOut State} {s t : State} :
    takeInterrupt h s = .next t ↔ s.crit = false ∧ h s = .next t := by
  unfold takeInterrupt
  cases s.crit <;> simp

theorem withOperands_next {i : Instr} {s t : State} {k : StepOut State} :
    withOperands i s k = .next t ↔ wellFormed s.params i = true ∧ k = .next t := by
  unfold withOperands
  split <;> simp_all

theorem withOperands_ok {i : Instr} {s : State} {k : StepOut State}
    (h : wellFormed s.params i = true) : withOperands i s k = k := by
  simp [withOperands, h]

theorem mainLoopAccess_next {s t : State} {k : StepOut State} :
    mainLoopAccess s k = .next t ↔ s.rx.booted = false ∧ k = .next t := by
  unfold mainLoopAccess
  cases s.rx.booted <;> simp

theorem mainLoopAccess_ok {s : State} {k : StepOut State} (h : s.rx.booted = false) :
    mainLoopAccess s k = k := by
  simp [mainLoopAccess, h]

@[simp] theorem fits_iff (v bound : Nat) : fits v bound = true ↔ v ≤ bound := by
  simp only [fits, Bool.or_eq_true, beq_iff_eq, decide_eq_true_eq]
  omega

/-- What storing a closed byte does: one byte of `RXBUF` while there is room, nothing beyond. -/
theorem storeByte_some {x : Byte} {s t : State} (h : storeByte x s = some t) :
    (s.rx.rxIdx < rxCap ∧
      t = (s.setMem (s.mem.setBank .rxBuf (bankSet s.mem.rxBuf s.rx.rxIdx x))).setRx
        { s.rx with rxIdx := s.rx.rxIdx + 1 }) ∨
    (rxCap ≤ s.rx.rxIdx ∧ t = s) := by
  unfold storeByte at h
  split at h <;> rename_i hi
  · split at h
    · rename_i m hm
      obtain ⟨-, rfl⟩ := memWrite_some hm
      exact .inl ⟨hi, (Option.some.inj h).symm⟩
    · cases h
  · exact .inr ⟨by omega, (Option.some.inj h).symm⟩

theorem storeByte_eq (x : Byte) (s : State) :
    storeByte x s = if s.rx.rxIdx < rxCap then
      some ((s.setMem (s.mem.setBank .rxBuf (bankSet s.mem.rxBuf s.rx.rxIdx x))).setRx
        { s.rx with rxIdx := s.rx.rxIdx + 1 }) else some s := by
  unfold storeByte
  split <;> rename_i hi
  · rw [memWrite_eq (p := s.params) (sp := .rxBuf) (by exact hi)]
    rfl
  · rfl

/-- What appending a decoded bit does: the bit is placed, and the eighth closes the byte. -/
theorem appendBit_eq (bit : Bool) (s : State) :
    appendBit bit s =
      if s.rx.rxBits = 7 then
        if s.rx.rxIdx < rxCap then
          some ((s.setMem (s.mem.setBank .rxBuf (bankSet s.mem.rxBuf s.rx.rxIdx
            (placeBit s.rx.rxByte bit 7)))).setRx
            { s.rx with rxIdx := s.rx.rxIdx + 1, rxBits := 0, rxByte := 0 })
        else some (s.setRx { s.rx with rxBits := 0, rxByte := 0 })
      else
        some (s.setRx { s.rx with
          rxByte := placeBit s.rx.rxByte bit s.rx.rxBits, rxBits := s.rx.rxBits + 1 }) := by
  unfold appendBit
  split <;> rename_i h
  · rw [storeByte_eq, h]
    by_cases hi : s.rx.rxIdx < rxCap
    · simp only [if_pos hi]; rfl
    · simp only [if_neg hi]; rfl
  · rfl

/-- A placed bit: bit `k` becomes the decoded bit where the byte held a zero above its `k` bits. -/
theorem placeBit_lt {x : Byte} {k : Fin 8} (bit : Bool) (h : x.toNat < 2 ^ k.val) (hk : k ≠ 7) :
    (placeBit x bit k).toNat < 2 ^ (k + 1).val := by
  revert x k bit
  decide +revert

end Sys2Proof.Machine
end

