-- ==== Sys2Proof/Laws/Encoders.lean ====
section
/-! SUPPORT. What the loops of the encoders and of the codec do, said once: which pairs a resume loop
emits and where it leaves the cursor, and which bytes a packing loop writes. -/

namespace Sys2Proof.Machine

/-- Which code word each bit of a packed group comes from (R105). -/
theorem group_getLsbD (ta tb tc td : CodeWord) (i : Nat) :
    BitVec.getLsbD (w := 24) (ta ++ tb ++ tc ++ td) i =
      if i < 6 then td.getLsbD i else if i < 12 then tc.getLsbD (i - 6)
      else if i < 18 then tb.getLsbD (i - 12) else ta.getLsbD (i - 18) := by
  have h : BitVec.getLsbD (w := 24) (ta ++ tb ++ tc ++ td) i = (ta ++ tb ++ tc ++ td).getLsbD i := rfl
  rw [h]
  simp only [BitVec.getLsbD_append]
  by_cases h1 : i < 6
  · simp only [if_pos h1]
  · by_cases h2 : i < 12
    · simp only [if_neg h1, if_pos h2, if_pos (show i - 6 < 6 by omega)]
    · by_cases h3 : i < 18
      · simp only [if_neg h1, if_neg h2, if_pos h3, if_neg (show ¬ i - 6 < 6 by omega),
          if_pos (show i - 6 - 6 < 6 by omega)]
        congr 1
      · simp only [if_neg h1, if_neg h2, if_neg h3, if_neg (show ¬ i - 6 < 6 by omega),
          if_neg (show ¬ i - 6 - 6 < 6 by omega)]
        congr 1

/-- The nibble code is injective: the table has no repeats (R102). -/
theorem nibCode_inj {p : Params} {v w : Nibble} (h : nibCode p v = nibCode p w) : v = w := by
  have hok := p.ok
  simp only [admissible, Bool.and_eq_true, decide_eq_true_eq] at hok
  have hnd := hok.1.1.1.1.1
  have := (List.nodup_iff_injective_get.mp hnd)
  have e : (⟨v.toNat, by simp; exact v.isLt⟩ : Fin p.nibTable.toList.length) = ⟨w.toNat,
      by simp; exact w.isLt⟩ := by
    apply this
    simpa [nibCode, Vector.get] using h
  exact BitVec.eq_of_toNat_eq (by simpa using e)

theorem nextBit_position (bi : Nat) (k : Fin 8) :
    8 * (nextBit bi k).1 + (nextBit bi k).2.val = 8 * bi + k.val + 1 := by
  unfold nextBit
  split <;> rename_i h
  · subst h; simp; omega
  · have : (k + 1).val = k.val + 1 := by
      have := k.isLt
      have h7 : k.val ≠ 7 := fun e => h (Fin.ext e)
      rw [Fin.val_add]
      simp; omega
    simp [this]; omega

theorem pairA_eq (p : Params) (m : Memory) (bi : Nat) (k : Fin 8) :
    pairA p (m.byteAt .inA bi) k
      = if payloadBit m (8 * bi + k.val) then sym1 p else sym0 p := by
  have := k.isLt
  unfold pairA payloadBit
  rw [show (8 * bi + k.val) / 8 = bi by omega, show (8 * bi + k.val) % 8 = k.val by omega]

theorem pairB_eq (p : Params) (m : Memory) (bi : Nat) (k : Fin 8) :
    pairB p (m.byteAt .outB bi) k
      = if frameBit m (8 * bi + k.val) then bsym1 p else bsym0 p := by
  have := k.isLt
  unfold pairB frameBit
  rw [show (8 * bi + k.val) / 8 = bi by omega, show (8 * bi + k.val) % 8 = k.val by omega]

theorem range_map_cons {α : Type} (f : Nat → α) (c : Nat) :
    (List.range (c + 1)).map f = f 0 :: (List.range c).map fun j => f (j + 1) := by
  rw [List.range_succ_eq_map, List.map_cons, List.map_map]
  rfl

/-- Stage 1 of `PA_RESUME` emits the payload's next pairs, as many as there is room for, and leaves the
cursor after them. -/
theorem paData_spec (p : Params) (m : Memory) (n : Nat) (hn : n ≤ aMaxPayload) (room : Nat)
    (pa : PaSession) :
    ∃ pa', paData p m n room pa
        = some ((List.range (min room (8 * n - (8 * pa.bi + pa.k.val)))).map
            (fun j => if payloadBit m (8 * pa.bi + pa.k.val + j) then sym1 p else sym0 p),
          room - min room (8 * n - (8 * pa.bi + pa.k.val)), pa') ∧
      pa'.st = pa.st ∧ pa'.tc = pa.tc ∧
      8 * pa'.bi + pa'.k.val
        = 8 * pa.bi + pa.k.val + min room (8 * n - (8 * pa.bi + pa.k.val)) := by
  induction room generalizing pa with
  | zero => exact ⟨pa, by simp [paData], rfl, rfl, by simp⟩
  | succ room ih =>
    have hk := pa.k.isLt
    by_cases hb : pa.bi < n
    · obtain ⟨pa', h, hst, htc, hpos⟩ := ih
        { pa with bi := (nextBit pa.bi pa.k).1, k := (nextBit pa.bi pa.k).2 }
      have hnext := nextBit_position pa.bi pa.k
      simp only [hnext] at h hpos
      have hmin : min (room + 1) (8 * n - (8 * pa.bi + pa.k.val))
          = min room (8 * n - (8 * pa.bi + pa.k.val + 1)) + 1 := by omega
      refine ⟨pa', ?_, hst, htc, by omega⟩
      simp only [paData, if_pos hb]
      rw [memRead_eq (show pa.bi < spaceSize p .inA by simp only [spaceSize]; omega)]
      simp only [h, pairA_eq]
      rw [hmin, range_map_cons]
      simp only [Option.some.injEq, Prod.mk.injEq, List.cons.injEq, Nat.add_zero, true_and, and_true]
      refine ⟨?_, by omega⟩
      apply List.map_congr_left
      intro j _
      rw [show 8 * pa.bi + pa.k.val + 1 + j = 8 * pa.bi + pa.k.val + (j + 1) by omega]
    · refine ⟨pa, ?_, rfl, rfl, by omega⟩
      simp only [paData, if_neg hb]
      rw [show min (room + 1) (8 * n - (8 * pa.bi + pa.k.val)) = 0 by omega]
      simp

/-- The loop of `PB_RESUME` emits the frame's next pairs, as many as there is room for, and leaves the
cursor after them. -/
theorem pbData_spec (p : Params) (m : Memory) (room : Nat) (pb : PbSession)
    (hl : pb.len ≤ p.bOutCap) :
    ∃ pb', pbData p m room pb
        = some ((List.range (min room (8 * pb.len - (8 * pb.bi + pb.k.val)))).map
            (fun j => if frameBit m (8 * pb.bi + pb.k.val + j) then bsym1 p else bsym0 p), pb') ∧
      pb' = { pb with bi := pb'.bi, k := pb'.k } ∧
      8 * pb'.bi + pb'.k.val
        = 8 * pb.bi + pb.k.val + min room (8 * pb.len - (8 * pb.bi + pb.k.val)) := by
  induction room generalizing pb with
  | zero => exact ⟨pb, by simp [pbData], rfl, by simp⟩
  | succ room ih =>
    have hk := pb.k.isLt
    by_cases hb : pb.bi < pb.len
    · obtain ⟨pb', h, heq, hpos⟩ := ih
        { pb with bi := (nextBit pb.bi pb.k).1, k := (nextBit pb.bi pb.k).2 } hl
      have hnext := nextBit_position pb.bi pb.k
      simp only [hnext] at h hpos heq
      have hmin : min (room + 1) (8 * pb.len - (8 * pb.bi + pb.k.val))
          = min room (8 * pb.len - (8 * pb.bi + pb.k.val + 1)) + 1 := by omega
      refine ⟨pb', ?_, heq, by omega⟩
      simp only [pbData, if_pos hb]
      rw [memRead_eq (show pb.bi < spaceSize p .outB by simp only [spaceSize]; omega)]
      simp only [h, pairB_eq]
      rw [hmin, range_map_cons]
      simp only [Option.some.injEq, Prod.mk.injEq, List.cons.injEq, Nat.add_zero, true_and, and_true]
      apply List.map_congr_left
      intro j _
      rw [show 8 * pb.bi + pb.k.val + 1 + j = 8 * pb.bi + pb.k.val + (j + 1) by omega]
    · refine ⟨pb, ?_, rfl, by omega⟩
      simp only [pbData, if_neg hb]
      rw [show min (room + 1) (8 * pb.len - (8 * pb.bi + pb.k.val)) = 0 by omega]
      simp

/-- `PACK`'s loop, started with its operands in range: it answers `OK` exactly where every group fits,
writes three bytes a group, touches no byte of `OUT_B` outside them and no other space, and keeps the
spaces in canonical form. -/
theorem packFrom_spec {p : Params} {src : Space} {dst0 dcap : Nat}
    (hd : dst0 + dcap ≤ p.bOutCap) (g si j : Nat) (m : Memory)
    (hs : si + 2 * g ≤ spaceSize p src) (hm : m.SpaceOk p .outB) (hj : j ≤ dcap) :
    ∃ m', packFrom p src dst0 dcap g si j m
        = some (if j + 3 * g ≤ dcap then .ok else .eCapacity,
            j + 3 * min g ((dcap - j) / 3), m') ∧
      m'.SpaceOk p .outB ∧ m' = { m with outB := m'.outB } ∧
      (∀ sp i, sp ≠ .outB ∨ i < dst0 + j ∨ dst0 + j + 3 * min g ((dcap - j) / 3) ≤ i →
        m'.byteAt sp i = m.byteAt sp i) ∧
      (src ≠ .outB ∨ si + 2 * g ≤ dst0 + j ∨ dst0 + j + 3 * g ≤ si →
        ∀ q, q < min g ((dcap - j) / 3) →
          (m'.byteAt .outB (dst0 + j + 3 * q), m'.byteAt .outB (dst0 + j + 3 * q + 1),
              m'.byteAt .outB (dst0 + j + 3 * q + 2))
            = packTwo p (m.byteAt src (si + 2 * q)) (m.byteAt src (si + 2 * q + 1))) := by
  induction g generalizing si j m with
  | zero =>
    refine ⟨m, by simp [packFrom, hj], hm, rfl, fun _ _ _ => rfl, fun _ q hq => ?_⟩
    simp at hq
  | succ g ih =>
    by_cases hc : dcap < j + 3
    · have h0 : (dcap - j) / 3 = 0 := by omega
      refine ⟨m, ?_, hm, rfl, fun _ _ _ => rfl, fun _ q hq => ?_⟩
      · simp only [packFrom, if_pos hc, h0, Nat.min_zero, Nat.mul_zero, Nat.add_zero]
        rw [if_neg (by omega)]
      · simp [h0] at hq
    · have hr0 := memRead_eq (p := p) (m := m) (show si < spaceSize p src by omega)
      have hr1 := memRead_eq (p := p) (m := m) (show si + 1 < spaceSize p src by omega)
      obtain ⟨o, ho⟩ : ∃ o, packTwo p (m.byteAt src si) (m.byteAt src (si + 1)) = o := ⟨_, rfl⟩
      have hw := memWriteList_eq (p := p) (m := m) (sp := .outB) (i := dst0 + j)
        (bs := [o.1, o.2.1, o.2.2])
        (.inr (by simp only [spaceSize, List.length_cons, List.length_nil]; omega))
      obtain ⟨m1, hm1⟩ : ∃ m1, m.setBank .outB
        (bankWrite (m.bank .outB) (dst0 + j) [o.1, o.2.1, o.2.2]) = m1 := ⟨_, rfl⟩
      rw [hm1] at hw
      have hm1ok : m1.SpaceOk p .outB := by
        rw [← hm1]
        refine ⟨bankWrite_wf hm.1 _ _, bankWrite_bound _ _ hm.2 ?_⟩
        simp only [spaceSize, List.length_cons, List.length_nil]; omega
      have hm1get : ∀ sp i, m1.byteAt sp i
          = if h : sp = .outB ∧ dst0 + j ≤ i ∧ i - (dst0 + j) < 3
            then [o.1, o.2.1, o.2.2][i - (dst0 + j)]'(by simpa using h.2.2)
            else m.byteAt sp i := by
        intro sp i
        unfold Memory.byteAt
        rw [← hm1]
        by_cases hsp : sp = .outB
        · subst hsp
          rw [Memory.bank_setBank, bankGet_bankWrite hm.1]
          simp
        · rw [Memory.bank_setBank_ne _ _ hsp, dif_neg (fun h => hsp h.1)]
      obtain ⟨m', h, hok, hmm, hfr, hby⟩ := ih (si + 2) (j + 3) m1 (by omega) hm1ok (by omega)
      have hdiv : (dcap - j) / 3 = (dcap - (j + 3)) / 3 + 1 := by omega
      have hmin : min (g + 1) ((dcap - j) / 3) = min g ((dcap - (j + 3)) / 3) + 1 := by omega
      refine ⟨m', ?_, hok, by rw [hmm, ← hm1]; rfl, ?_, ?_⟩
      · simp only [packFrom, if_neg hc, hr0, hr1, ho, hw, h, hmin]
        congr 2
        · simp only [show j + 3 + 3 * g = j + 3 * (g + 1) by omega]
        · congr 1; omega
      · intro sp i hi
        have h1 : sp ≠ .outB ∨ i < dst0 + (j + 3) ∨
            dst0 + (j + 3) + 3 * min g ((dcap - (j + 3)) / 3) ≤ i := by
          rcases hi with hi | hi | hi
          · exact .inl hi
          · exact .inr (.inl (by omega))
          · exact .inr (.inr (by omega))
        have h2 : ¬(sp = .outB ∧ dst0 + j ≤ i ∧ i - (dst0 + j) < 3) := by
          rintro ⟨e, e1, e2⟩
          rcases hi with hi | hi | hi
          · exact hi e
          · omega
          · omega
        rw [hfr sp i h1, hm1get, dif_neg h2]
      · intro hov q hq
        rcases Nat.eq_zero_or_pos q with rfl | hq0
        · have e : ∀ x, x < 3 → m'.byteAt .outB (dst0 + j + x) = m1.byteAt .outB (dst0 + j + x) :=
            fun x hx => hfr .outB _ (.inr (.inl (by omega)))
          simp only [Nat.mul_zero, Nat.add_zero]
          rw [show m'.byteAt .outB (dst0 + j) = m1.byteAt .outB (dst0 + j) from e 0 (by omega),
            e 1 (by omega), e 2 (by omega), hm1get, hm1get, hm1get,
            dif_pos ⟨rfl, by omega, by omega⟩, dif_pos ⟨rfl, by omega, by omega⟩,
            dif_pos ⟨rfl, by omega, by omega⟩, ho]
          simp
        · have hov1 : src ≠ .outB ∨ si + 2 + 2 * g ≤ dst0 + (j + 3) ∨
              dst0 + (j + 3) + 3 * g ≤ si + 2 := by
            rcases hov with hov | hov | hov
            · exact .inl hov
            · exact .inr (.inl (by omega))
            · exact .inr (.inr (by omega))
          have hb := hby hov1 (q - 1) (by omega)
          have e1 : dst0 + (j + 3) + 3 * (q - 1) = dst0 + j + 3 * q := by omega
          have e2 : si + 2 + 2 * (q - 1) = si + 2 * q := by omega
          have hin : ∀ i, si ≤ i → i < si + 2 * (g + 1) →
              ¬(src = .outB ∧ dst0 + j ≤ i ∧ i - (dst0 + j) < 3) := by
            rintro i h1 h2 ⟨e, h3, h4⟩
            rcases hov with hov | hov | hov
            · exact hov e
            · omega
            · omega
          rw [e1, e2, hm1get src, hm1get src, dif_neg (hin _ (by omega) (by omega)),
            dif_neg (hin _ (by omega) (by omega))] at hb
          exact hb

theorem list_drop_take_range {α} (f : Nat → α) (n a b : Nat) :
    (((List.range n).map f).drop a).take b = (List.range (min b (n - a))).map fun j => f (a + j) := by
  apply List.ext_getElem
  · simp
  · intro i h1 h2
    simp

@[simp] theorem streamA_length (p : Params) (m : Memory) (n : Nat) :
    (streamA p m n).length = 8 * n + 1 := by simp [streamA]

@[simp] theorem streamB_length (p : Params) (m : Memory) (n : Nat) :
    (streamB p m n).length = 8 * n := by simp [streamB]

/-- What `paResume` answers: the stream's next pairs, `COMPLETE` exactly when the terminator is among
them, and the session after them. -/
theorem paResume_spec (p : Params) (m : Memory) (n b : Nat) (pa : PaSession) (hn : n ≤ aMaxPayload) :
    ∃ st pa', paResume p m n b pa
        = some (((streamA p m n).drop (min (paPosition n pa) (8*n))).take b, st, pa') ∧
      (st = .complete ↔ 8 * n + 1 - min (paPosition n pa) (8*n) ≤ b) ∧
      (st = .complete → pa' = paInitial) ∧
      (st = .yielded → min (paPosition n pa') (8*n) = min (paPosition n pa) (8*n) + b ∧ pa'.tc =
          pa.tc) := by
  have hdrop : ∀ a b, a ≤ 8 * n → ((streamA p m n).drop a).take b
      = (List.range (min b (8 * n - a))).map (fun j => if payloadBit m (a + j) then sym1 p else sym0 p)
        ++ (if 8 * n + 1 - a ≤ b then [symT p] else []) := by
    intro a b ha
    unfold streamA
    rw [List.drop_append_of_le_length (by simpa using ha), List.take_append, list_drop_take_range]
    congr 1
    simp only [List.length_drop, List.length_map, List.length_range]
    split
    · rw [List.take_of_length_le]; simp; omega
    · rw [show b - (8*n - a) = 0 by omega]; rfl
  cases hst : pa.st with
  | terminator =>
    have hp : paPosition n pa = 8 * n := by simp [paPosition, hst]
    rw [hp, Nat.min_self, hdrop _ _ (le_refl _)]
    by_cases hb : b = 0
    · subst hb
      exact ⟨.yielded, pa, by simp [paResume, hst, paTerminate], by simp, by simp, by simp [hp]⟩
    · exact ⟨.complete, paInitial, by simp [paResume, hst, paTerminate, hb]; try omega,
        by simp; omega, by simp, by simp⟩
  | payload =>
    have hp : paPosition n pa = 8 * pa.bi + pa.k.val := by simp [paPosition, hst]
    have hk := pa.k.isLt
    obtain ⟨pa', h, h1, h2, h3⟩ := paData_spec p m n hn b pa
    rw [hp, hdrop _ _ (by omega)]
    simp only [paResume, hst, h]
    have hk' := pa'.k.isLt
    have hst' : pa'.st = .payload := h1.trans hst
    by_cases hb : pa'.bi < n
    · refine ⟨.yielded, pa', ?_, ?_, by simp, fun _ => ⟨?_, h2⟩⟩
      · rw [if_pos hb, if_neg (by omega)]
        rw [show min (8 * pa.bi + pa.k.val) (8*n) = 8 * pa.bi + pa.k.val by omega]
        simp
      · simp; omega
      · simp only [paPosition, hst']; omega
    · rw [if_neg hb]
      have hle : 8 * n - (8 * pa.bi + pa.k.val) ≤ b := by omega
      have hmin : min b (8 * n - (8 * pa.bi + pa.k.val)) = 8 * n - (8 * pa.bi + pa.k.val) := by omega
      have hmin2 : min b (8 * n - min (8 * pa.bi + pa.k.val) (8*n)) = 8 * n -
          (8 * pa.bi + pa.k.val) := by omega
      have hmap : (List.range (8 * n - (8 * pa.bi + pa.k.val))).map (fun j => if payloadBit m (min
          (8 * pa.bi + pa.k.val) (8*n) + j) then sym1 p else sym0 p)
        = (List.range (8 * n - (8 * pa.bi + pa.k.val))).map (fun j => if payloadBit m
            (8 * pa.bi + pa.k.val + j) then sym1 p else sym0 p) := by
        apply List.map_congr_left
        intro j hj
        simp only [List.mem_range] at hj
        rw [show min (8 * pa.bi + pa.k.val) (8*n) = 8 * pa.bi + pa.k.val by omega]
      rw [hmin, hmin2, hmap]
      by_cases hr : b - (8 * n - (8 * pa.bi + pa.k.val)) = 0
      · refine ⟨.yielded, { pa' with st := .terminator }, ?_, ?_, by simp, fun _ => ⟨?_, h2⟩⟩
        · simp only [paTerminate, if_pos hr]; rw [if_neg (by omega)]; simp
        · simp; omega
        · simp only [paPosition]; omega
      · refine ⟨.complete, paInitial, ?_, ?_, by simp, by simp⟩
        · simp only [paTerminate, if_neg hr]; rw [if_pos (by omega)]
        · simp; omega

/-- What `pbResume` answers: the frame's next pairs, `COMPLETE` exactly when the last is among them, and
the session after them. -/
theorem pbResume_spec (p : Params) (m : Memory) (b : Nat) (pb : PbSession) (hl : pb.len ≤ p.bOutCap) :
    ∃ st pb', pbResume p m b pb = some (((streamB p m pb.len).drop (8 * pb.bi + pb.k.val)).take b,
        st, pb') ∧
      (st = .complete ↔ 8 * pb.len - (8 * pb.bi + pb.k.val) ≤ b) ∧
      (st = .complete → pb' = pbEmptied pb) ∧
      (st = .yielded → pb' = { pb with bi := pb'.bi, k := pb'.k } ∧
        8 * pb'.bi + pb'.k.val = 8 * pb.bi + pb.k.val + b) := by
  obtain ⟨pb', h, he, hp⟩ := pbData_spec p m b pb hl
  have hlen : pb'.len = pb.len := by rw [he]
  have hk := pb'.k.isLt
  simp only [pbResume, h, streamB, list_drop_take_range, hlen]
  by_cases hb : pb'.bi < pb.len
  · exact ⟨.yielded, pb', by rw [if_pos hb], by simp; omega, by simp, fun _ => ⟨he, by omega⟩⟩
  · refine ⟨.complete, pbEmptied pb', by rw [if_neg hb], by simp; omega, fun _ => by rw [he]; rfl, by simp⟩

/-- What `frameWrite` leaves in `OUT_B` from an aligned input that fits: the frame of R111, and every
byte beyond it as it was. -/
theorem frameWrite_spec (p : Params) (pb : PbSession) (n : Nat) (m : Memory) (hm : m.SpaceOk p .outB)
    (h4 : 4 ≤ n) (hn : n ≤ p.bInCap) (he : (n - 4) % 2 = 0) (hl : frameLen pb.npre n ≤ p.bOutCap) :
    ∃ m', frameWrite p pb n m = some (.ok, 3 * ((n - 4) / 2), m') ∧ m'.SpaceOk p .outB ∧
      m' = { m with outB := m'.outB } ∧
      (∀ j, j < pb.npre → m'.byteAt .outB j = pb.preByte) ∧
      (∀ j, j < 4 → m'.byteAt .outB (pb.npre + j) = m.byteAt .inB j) ∧
      (∀ g, g < (n - 4) / 2 →
        (m'.byteAt .outB (pb.npre + 4 + 3 * g), m'.byteAt .outB (pb.npre + 4 + 3 * g + 1),
            m'.byteAt .outB (pb.npre + 4 + 3 * g + 2))
          = packTwo p (m.byteAt .inB (4 + 2 * g)) (m.byteAt .inB (4 + 2 * g + 1))) ∧
      (∀ i, frameLen pb.npre n ≤ i → m'.byteAt .outB i = m.byteAt .outB i) := by
  unfold frameLen at *
  obtain ⟨m1, hm1⟩ : ∃ m1, m.setBank .outB (bankWrite (m.bank .outB) 0
      (List.replicate pb.npre pb.preByte)) = m1 := ⟨_, rfl⟩
  have w1 := memWriteList_eq (p := p) (m := m) (sp := .outB) (i := 0) (bs :=
      List.replicate pb.npre pb.preByte)
    (.inr (by simp only [spaceSize, List.length_replicate]; omega))
  rw [hm1] at w1
  have ok1 : m1.SpaceOk p .outB := by
    rw [← hm1]
    exact ⟨bankWrite_wf hm.1 _ _, bankWrite_bound _ _ hm.2
        (by simp only [spaceSize, List.length_replicate]; omega)⟩
  have in1 : ∀ i, m1.byteAt .inB i = m.byteAt .inB i := by
    intro i; rw [← hm1]; rfl
  have r1 := memReadList_eq (p := p) (m := m1) (sp := .inB) (i := 0) (n := 4) (.inr
      (by simp only [spaceSize]; omega))
  obtain ⟨start, hst⟩ : ∃ st, (List.range 4).map (fun j => m1.byteAt .inB (0 + j)) = st := ⟨_, rfl⟩
  have hstl : start.length = 4 := by rw [← hst]; simp
  obtain ⟨m2, hm2⟩ : ∃ m2, m1.setBank .outB (bankWrite (m1.bank .outB) pb.npre start) = m2 := ⟨_, rfl⟩
  have w2 := memWriteList_eq (p := p) (m := m1) (sp := .outB) (i := pb.npre) (bs := start)
    (.inr (by simp only [spaceSize, hstl]; omega))
  rw [hm2] at w2
  have ok2 : m2.SpaceOk p .outB := by
    rw [← hm2]
    exact ⟨bankWrite_wf ok1.1 _ _, bankWrite_bound _ _ ok1.2 (by simp only [spaceSize, hstl]; omega)⟩
  obtain ⟨m3, h3, ok3, hm3, fr3, by3⟩ := packFrom_spec (p := p) (src := .inB) (dst0 := pb.npre + 4)
    (dcap := p.bOutCap - pb.npre - 4) (by omega) ((n-4)/2) 4 0 m2
        (by simp only [spaceSize]; omega) ok2 (by omega)
  have hmin : min ((n-4) / 2) ((p.bOutCap - pb.npre - 4 - 0) / 3) = (n-4) / 2 := by omega
  rw [hmin, if_pos (by omega)] at h3
  rw [hmin] at fr3 by3
  have g1 : ∀ i, m1.byteAt .outB i = if i < pb.npre then pb.preByte else m.byteAt .outB i := by
    intro i
    rw [← hm1]; unfold Memory.byteAt
    rw [Memory.bank_setBank, bankGet_bankWrite hm.1]
    simp
  have g2 : ∀ i, m2.byteAt .outB i = if h : pb.npre ≤ i ∧
      i - pb.npre < start.length then start[i - pb.npre] else m1.byteAt .outB i := by
    intro i
    rw [← hm2]; unfold Memory.byteAt
    rw [Memory.bank_setBank, bankGet_bankWrite ok1.1]
  have in2 : ∀ i, m2.byteAt .inB i = m.byteAt .inB i := by
    intro i; rw [← in1, ← hm2]; rfl
  refine ⟨m3, ?_, ok3, ?_, ?_, ?_, ?_, ?_⟩
  · rw [hst] at r1
    simp only [frameWrite, w1, r1, w2, packRun, if_neg (show ¬ (n-4) % 2 = 1 by omega), h3]
    simp
  · rw [hm3, ← hm2, ← hm1]; rfl
  · intro j hj
    rw [fr3 .outB j (by omega), g2, dif_neg (by omega), g1, if_pos hj]
  · intro j hj
    rw [fr3 .outB _ (by omega), g2, dif_pos (by rw [hstl]; omega)]
    simp [← hst, in1]
  · intro g hg
    have := by3 (.inl (by simp)) g hg
    simpa [in2] using this
  · intro i hi
    rw [fr3 .outB i (by omega), g2, dif_neg (by rw [hstl]; omega), g1, if_neg (by omega)]

end Sys2Proof.Machine
end

