-- ==== Sys2Proof/Laws/Frames.lean ====
section
/-! SUPPORT. Frames of the single updates, and how frames compose. -/

namespace Sys2Proof.Machine

theorem SameBut.refl (ps : List Part) (s : State) : SameBut ps s s := by
  intro q _
  cases q <;> simp [Part.Same]

theorem SameBut.mono {ps qs : List Part} {s t : State} (h : SameBut ps s t) (hs : ps ⊆ qs) :
    SameBut qs s t := fun q hq => h q fun hp => hq (hs hp)

theorem SameBut.trans {ps : List Part} {s t u : State} (h : SameBut ps s t) (h' : SameBut ps t u) :
    SameBut ps s u := by
  intro q hq
  have a := h q hq
  have b := h' q hq
  cases q with
  | space sp => intro i; rw [b i, a i]
  | _ => exact b.trans a

/-- Two states that agree on every field but the outputs are the same for every frame. -/
theorem SameBut.answer (s : State) (r : Result) : SameBut [] s (s.answer r) := by
  intro q _
  cases q <;> simp [Part.Same]

theorem SameBut.setPa (s : State) (x : PaSession) : SameBut [.pa] s (s.setPa x) := by
  intro q hq
  cases q <;> simp_all [Part.Same]

theorem SameBut.setPb (s : State) (x : PbSession) : SameBut [.pb] s (s.setPb x) := by
  intro q hq
  cases q <;> simp_all [Part.Same]

theorem SameBut.setCh (s : State) (c : Chan) (x : Channel) : SameBut [.ch c] s (s.setCh c x) := by
  intro q hq
  cases q with
  | ch d => cases c <;> cases d <;> first | exact absurd (List.mem_singleton.mpr rfl) hq | rfl
  | _ => simp [Part.Same]

theorem SameBut.setSend (s : State) (c : Chan) (x : Option Send) :
    SameBut [.send c] s (s.setSend c x) := by
  intro q hq
  cases q with
  | send d => cases c <;> cases d <;> first | exact absurd (List.mem_singleton.mpr rfl) hq | rfl
  | _ => simp [Part.Same]

theorem SameBut.setRx (s : State) (x : Rx) : SameBut [.rx] s (s.setRx x) := by
  intro q hq
  cases q <;> simp_all [Part.Same]

theorem SameBut.setCrit (s : State) (x : Bool) : SameBut [.crit] s (s.setCrit x) := by
  intro q hq
  cases q <;> simp_all [Part.Same]

theorem SameBut.setIssue (s : State) (x : Issue) : SameBut [.issue] s (s.setIssue x) := by
  intro q hq
  cases q <;> simp_all [Part.Same]

theorem SameBut.setFresh (s : State) (x : Nat) : SameBut [.fresh] s (s.setFresh x) := by
  intro q hq
  cases q <;> simp_all [Part.Same]

theorem SameBut.setEvents (s : State) (x : List Event) : SameBut [.events] s (s.setEvents x) := by
  intro q hq
  cases q <;> simp_all [Part.Same]

theorem SameBut.setOut (s : State) (x : Outputs) : SameBut [] s (s.setOut x) := by
  intro q _
  cases q <;> simp [Part.Same]

/-- New byte spaces are a change of one space where every other space reads as before. -/
theorem SameBut.setMem (s : State) (m : Memory) (sp : Space)
    (h : ∀ sp', sp' ≠ sp → ∀ i, m.byteAt sp' i = s.mem.byteAt sp' i) :
    SameBut [.space sp] s (s.setMem m) := by
  intro q hq
  cases q with
  | space sp' => exact h sp' fun e => hq (List.mem_singleton.mpr (congrArg Part.space e))
  | _ => simp [Part.Same]

/-- New byte spaces in which every byte reads as before change nothing. -/
theorem SameBut.setMem_same (s : State) (m : Memory)
    (h : ∀ sp i, m.byteAt sp i = s.mem.byteAt sp i) : SameBut [] s (s.setMem m) := by
  intro q _
  cases q with
  | space sp => exact h sp
  | _ => simp [Part.Same]

/-- Replacing one bank leaves every other space as it reads. -/
theorem Memory.byteAt_setBank_ne (m : Memory) {sp sp' : Space} (b : Bank) (i : Nat) (h : sp' ≠ sp) :
    (m.setBank sp b).byteAt sp' i = m.byteAt sp' i := by
  unfold Memory.byteAt
  rw [Memory.bank_setBank_ne _ _ h]

end Sys2Proof.Machine
end

