-- ==== Sys2Proof/Laws/Transmit.lean ====
section
/-! SUPPORT. A transmit's resume and end steps: the fields they leave, their frames, which transmit a resume
word serves, and what an unowned session says of the transmits. -/

namespace Sys2Proof.Machine

/-! ## Fields -/

@[simp] theorem finishTransmit_params (c : Chan) (st : Status) (s : State) :
    (finishTransmit c st s).params = s.params := by
  simp [finishTransmit]
@[simp] theorem finishTransmit_pa (c : Chan) (st : Status) (s : State) :
    (finishTransmit c st s).pa = s.pa := by
  simp [finishTransmit]
@[simp] theorem finishTransmit_pb (c : Chan) (st : Status) (s : State) :
    (finishTransmit c st s).pb = s.pb := by
  simp [finishTransmit]
@[simp] theorem finishTransmit_rx (c : Chan) (st : Status) (s : State) :
    (finishTransmit c st s).rx = s.rx := by
  simp [finishTransmit]
@[simp] theorem finishTransmit_mem (c : Chan) (st : Status) (s : State) :
    (finishTransmit c st s).mem = s.mem := by
  simp [finishTransmit]
@[simp] theorem finishTransmit_crit (c : Chan) (st : Status) (s : State) :
    (finishTransmit c st s).crit = s.crit := by
  simp [finishTransmit]
@[simp] theorem finishTransmit_obs (c : Chan) (st : Status) (s : State) :
    (finishTransmit c st s).obs = s.obs := by
  simp [finishTransmit]
@[simp] theorem finishTransmit_issue (c : Chan) (st : Status) (s : State) :
    (finishTransmit c st s).issue = s.issue := by
  simp [finishTransmit]
@[simp] theorem finishTransmit_fresh (c : Chan) (st : Status) (s : State) :
    (finishTransmit c st s).fresh = s.fresh := by
  simp [finishTransmit]
@[simp] theorem finishTransmit_events (c : Chan) (st : Status) (s : State) :
    (finishTransmit c st s).events = s.events := by
  simp [finishTransmit]
@[simp] theorem finishTransmit_out (c : Chan) (st : Status) (s : State) :
    (finishTransmit c st s).out = ⟨.status st, false⟩ := by
  simp [finishTransmit]

theorem finishTransmit_ch (c : Chan) (st : Status) (s : State) :
    (finishTransmit c st s).ch c = { s.ch c with tx := none } := by
  simp [finishTransmit]

theorem finishTransmit_ch_other (c : Chan) (st : Status) (s : State) :
    (finishTransmit c st s).ch c.other = s.ch c.other := by
  cases c <;> rfl

theorem finishTransmit_send (c : Chan) (st : Status) (s : State) :
    (finishTransmit c st s).send c = sendAfterTransmit st (s.send c) := by
  cases c <;> rfl

theorem finishTransmit_send_other (c : Chan) (st : Status) (s : State) :
    (finishTransmit c st s).send c.other = s.send c.other := by
  cases c <;> rfl

@[simp] theorem stagePairs_params (c : Chan) (t : Transmit) (out : List Pair) (st : ResumeStatus)
    (s : State) :
    (stagePairs c t out st s).params = s.params := by
  simp [stagePairs]
@[simp] theorem stagePairs_pa (c : Chan) (t : Transmit) (out : List Pair) (st : ResumeStatus)
    (s : State) :
    (stagePairs c t out st s).pa = s.pa := by
  simp [stagePairs]
@[simp] theorem stagePairs_pb (c : Chan) (t : Transmit) (out : List Pair) (st : ResumeStatus)
    (s : State) :
    (stagePairs c t out st s).pb = s.pb := by
  simp [stagePairs]
@[simp] theorem stagePairs_rx (c : Chan) (t : Transmit) (out : List Pair) (st : ResumeStatus)
    (s : State) :
    (stagePairs c t out st s).rx = s.rx := by
  simp [stagePairs]
@[simp] theorem stagePairs_mem (c : Chan) (t : Transmit) (out : List Pair) (st : ResumeStatus)
    (s : State) :
    (stagePairs c t out st s).mem = s.mem := by
  simp [stagePairs]
@[simp] theorem stagePairs_crit (c : Chan) (t : Transmit) (out : List Pair) (st : ResumeStatus)
    (s : State) :
    (stagePairs c t out st s).crit = s.crit := by
  simp [stagePairs]
@[simp] theorem stagePairs_sendA (c : Chan) (t : Transmit) (out : List Pair) (st : ResumeStatus)
    (s : State) :
    (stagePairs c t out st s).sendA = s.sendA := by
  simp [stagePairs]
@[simp] theorem stagePairs_sendB (c : Chan) (t : Transmit) (out : List Pair) (st : ResumeStatus)
    (s : State) :
    (stagePairs c t out st s).sendB = s.sendB := by
  simp [stagePairs]
@[simp] theorem stagePairs_issue (c : Chan) (t : Transmit) (out : List Pair) (st : ResumeStatus)
    (s : State) :
    (stagePairs c t out st s).issue = s.issue := by
  simp [stagePairs]
@[simp] theorem stagePairs_fresh (c : Chan) (t : Transmit) (out : List Pair) (st : ResumeStatus)
    (s : State) :
    (stagePairs c t out st s).fresh = s.fresh := by
  simp [stagePairs]
@[simp] theorem stagePairs_events (c : Chan) (t : Transmit) (out : List Pair) (st : ResumeStatus)
    (s : State) :
    (stagePairs c t out st s).events = s.events := by
  simp [stagePairs]
@[simp] theorem stagePairs_out (c : Chan) (t : Transmit) (out : List Pair) (st : ResumeStatus)
    (s : State) :
    (stagePairs c t out st s).out = ⟨.pairs out st, false⟩ := by
  simp [stagePairs]
@[simp] theorem stagePairs_obs (c : Chan) (t : Transmit) (out : List Pair) (st : ResumeStatus)
    (s : State) :
    (stagePairs c t out st s).obs = { s.obs with
      line := lineAppend s.obs.line (s.ch c).pin (out.map (sentBy (s.ch c))) } := by
  simp [stagePairs]

theorem stagePairs_ch (c : Chan) (t : Transmit) (out : List Pair) (st : ResumeStatus) (s : State) :
    (stagePairs c t out st s).ch c
      = { s.ch c with tx := some { t with staged := decide (st = .complete) } } := by
  simp [stagePairs]

theorem stagePairs_ch_other (c : Chan) (t : Transmit) (out : List Pair) (st : ResumeStatus)
    (s : State) : (stagePairs c t out st s).ch c.other = s.ch c.other := by
  cases c <;> rfl

theorem stagePairs_send (c d : Chan) (t : Transmit) (out : List Pair) (st : ResumeStatus)
    (s : State) : (stagePairs c t out st s).send d = s.send d := by
  cases c <;> cases d <;> rfl

/-! ## Frames -/

/-- Appending to a pin's line leaves every other pin's line as it was. -/
theorem lineGet_lineAppend_ne (l : List (Nat × List Sent)) {pin q : Nat} (ys : List Sent)
    (h : q ≠ pin) : lineGet (lineAppend l pin ys) q = lineGet l q := by
  induction l with
  | nil =>
    simp only [lineAppend]
    split
    · rfl
    · simp [lineGet, Ne.symm h]
  | cons y l ih =>
    obtain ⟨k, v⟩ := y
    simp only [lineAppend]
    split
    · split
      · rfl
      · simp [lineGet, Ne.symm h]
    · split <;> rename_i hk
      · subst hk; simp [lineGet, Ne.symm h]
      · simp [lineGet, ih]

theorem SameBut.setObs_line (s : State) (pin : Nat) (ys : List Sent) :
    SameBut [.line pin] s (s.setObs { s.obs with line := lineAppend s.obs.line pin ys }) := by
  intro q hq
  cases q with
  | line p =>
    exact lineGet_lineAppend_ne _ _ fun e => hq (List.mem_singleton.mpr (congrArg Part.line e))
  | _ => simp [Part.Same]

/-- A resume step's pairs change its channel and its pin's line. -/
theorem stagePairs_frame (c : Chan) (t : Transmit) (out : List Pair) (st : ResumeStatus) (s : State) :
    SameBut [.ch c, .line (s.ch c).pin] s (stagePairs c t out st s) :=
  ((SameBut.setObs_line _ _ _).mono (by simp)).trans
    (((SameBut.setCh _ _ _).mono (by simp)).trans ((SameBut.answer _ _).mono (by simp)))

/-- A transmit's end changes its channel and its caller's send. -/
theorem finishTransmit_frame (c : Chan) (st : Status) (s : State) :
    SameBut [.ch c, .send c] s (finishTransmit c st s) :=
  ((SameBut.setCh _ _ _).mono (by simp)).trans
    (((SameBut.setSend _ _ _).mono (by simp)).trans ((SameBut.answer _ _).mono (by simp)))

/-! ## Resume steps -/

theorem resumable_some {e : Enc} {x : Option Transmit} {t : Transmit} :
    resumable e x = some t ↔ x = some t ∧ t.enc = e ∧ t.staged = false := by
  cases x with
  | none => simp [resumable]
  | some u =>
    simp only [resumable, Option.some.injEq]
    by_cases h : u.enc = e ∧ u.staged = false
    · simp only [if_pos h, Option.some.injEq]
      exact ⟨fun hu => ⟨hu, hu ▸ h⟩, fun hu => hu.1⟩
    · simp only [if_neg h, reduceCtorEq, false_iff]
      rintro ⟨rfl, h'⟩
      exact h h'

/-- The transmit a resume word serves is in progress, drives its encoder and has not returned
`COMPLETE`. -/
theorem resumeTarget_some {s : State} {e : Enc} {c : Chan} {t : Transmit}
    (h : resumeTarget s e = some (c, t)) : (s.ch c).tx = some t ∧ t.enc = e ∧ t.staged = false := by
  unfold resumeTarget at h
  split at h <;> rename_i ha
  · cases h; exact resumable_some.mp ha
  · split at h <;> rename_i hb
    · cases h; exact resumable_some.mp hb
    · cases h

/-- A transmit that waits for pairs of its encoder, first in order, is the one a resume word serves. -/
theorem resumeTarget_of {s : State} {e : Enc} {c : Chan} {t : Transmit} (h : awaits s c t e) :
    resumeTarget s e = some (c, t) := by
  obtain ⟨h, he, hs, ho⟩ := h
  have hr : resumable e (some t) = some t := resumable_some.mpr ⟨rfl, he, hs⟩
  unfold resumeTarget
  cases c with
  | a => rw [show s.chA.tx = some t from h, hr]
  | b =>
    rw [show s.chB.tx = some t from h, hr]
    cases ha : resumable e s.chA.tx with
    | none => rfl
    | some u =>
      obtain ⟨h1, h2, h3⟩ := resumable_some.mp ha
      rw [ho rfl u h1 h2] at h3
      cases h3

/-- No transmit drives the encoder, or only one that has returned `COMPLETE`. -/
theorem resumeTarget_none {s : State} {e : Enc} : resumeTarget s e = none ↔ noneAwaits s e := by
  constructor
  · intro h c t ht he
    by_contra hs
    have hr : resumable e (s.ch c).tx = some t := resumable_some.mpr ⟨ht, he, by simpa using hs⟩
    unfold resumeTarget at h
    split at h
    · cases h
    · rename_i ha
      split at h
      · cases h
      · rename_i hb
        cases c
        · exact absurd hr (by rw [show (s.ch .a) = s.chA from rfl, ha]; simp)
        · exact absurd hr (by rw [show (s.ch .b) = s.chB from rfl, hb]; simp)
  · intro h
    cases ht : resumeTarget s e with
    | none => rfl
    | some r =>
      obtain ⟨h1, h2, h3⟩ := resumeTarget_some (c := r.1) (t := r.2) ht
      rw [h _ _ h1 h2] at h3
      cases h3

/-- What a resume step can answer: the transmit's end with `E_HW`, or its encoder's call. -/
theorem resumeStep_next {c : Chan} {f : Hw} {b : Nat} {s t : State} {call : StepOut State} :
    resumeStep c f b s call = .next t ↔
      (f = .eHw ∧ t = finishTransmit c .eHw s) ∨ (f = .ok ∧ b ≤ (s.ch c).depth ∧ call = .next t) := by
  unfold resumeStep
  cases f with
  | eHw => simp [eq_comm]
  | ok =>
    by_cases hb : (s.ch c).depth < b
    · simp only [if_pos hb]; simp; omega
    · simp only [if_neg hb]; simp [Nat.le_of_not_lt hb]

theorem resumeStep_ok {c : Chan} {b : Nat} {s : State} {call : StepOut State}
    (h : b ≤ (s.ch c).depth) : resumeStep c .ok b s call = call := by
  simp [resumeStep, Nat.not_lt.mpr h]

/-- What `PA_RESUME` can answer: outside a transmit its pairs on the result ports; in one, the transmit's
resume step. -/
theorem execPaResume_next {n b : Nat} {s t : State} (h : execPaResume n b s = .next t) :
    wellFormed s.params (.paResume n b) = true ∧
    ((resumeTarget s .pa = none ∧ ∃ r, paResume s.params s.mem n b s.pa = some r ∧
        t = (s.setPa r.2.2).answer (.pairs r.1 r.2.1)) ∨
      ∃ c x, resumeTarget s .pa = some (c, x) ∧
        (t = finishTransmit c .eHw s ∨ ∃ r, paResume s.params s.mem n b s.pa = some r ∧
          t = stagePairs c x r.1 r.2.1 (s.setPa r.2.2))) := by
  unfold execPaResume at h
  rw [withOperands_next] at h
  refine ⟨h.1, ?_⟩
  obtain ⟨-, h⟩ := h
  split at h <;> rename_i ht
  · refine .inr ⟨_, _, ht, ?_⟩
    rcases resumeStep_next.mp h with ⟨-, h⟩ | ⟨-, -, h⟩
    · exact .inl h
    · obtain ⟨r, hr, h⟩ := orOutOfRange_next.mp h
      cases h; exact .inr ⟨r, hr, rfl⟩
  · obtain ⟨r, hr, h⟩ := orOutOfRange_next.mp h
    cases h; exact .inl ⟨ht, r, hr, rfl⟩

/-- What `PB_RESUME` can answer: outside a transmit its pairs on the result ports; in one, the transmit's
resume step. -/
theorem execPbResume_next {b : Nat} {s t : State} (h : execPbResume b s = .next t) :
    wellFormed s.params (.pbResume b) = true ∧
    ((resumeTarget s .pb = none ∧ ∃ r, pbResume s.params s.mem b s.pb = some r ∧
        t = (s.setPb r.2.2).answer (.pairs r.1 r.2.1)) ∨
      ∃ c x, resumeTarget s .pb = some (c, x) ∧
        (t = finishTransmit c .eHw s ∨ ∃ r, pbResume s.params s.mem b s.pb = some r ∧
          t = stagePairs c x r.1 r.2.1 (s.setPb r.2.2))) := by
  unfold execPbResume at h
  rw [withOperands_next] at h
  refine ⟨h.1, ?_⟩
  obtain ⟨-, h⟩ := h
  split at h <;> rename_i ht
  · refine .inr ⟨_, _, ht, ?_⟩
    rcases resumeStep_next.mp h with ⟨-, h⟩ | ⟨-, -, h⟩
    · exact .inl h
    · obtain ⟨r, hr, h⟩ := orOutOfRange_next.mp h
      cases h; exact .inr ⟨r, hr, rfl⟩
  · obtain ⟨r, hr, h⟩ := orOutOfRange_next.mp h
    cases h; exact .inl ⟨ht, r, hr, rfl⟩

/-- `PA_RESUME` outside a transmit. -/
theorem execPaResume_outside {n b : Nat} {s : State} (hw : wellFormed s.params (.paResume n b) = true)
    (h : noneAwaits s .pa) {r : List Pair × ResumeStatus × PaSession}
    (hr : paResume s.params s.mem n b s.pa = some r) :
    execPaResume n b s = .next ((s.setPa r.2.2).answer (.pairs r.1 r.2.1)) := by
  simp only [execPaResume, withOperands_ok hw, resumeTarget_none.mpr h, paResumeCall, hr, orOutOfRange_some]

/-- `PB_RESUME` outside a transmit. -/
theorem execPbResume_outside {b : Nat} {s : State} (hw : wellFormed s.params (.pbResume b) = true)
    (h : noneAwaits s .pb) {r : List Pair × ResumeStatus × PbSession}
    (hr : pbResume s.params s.mem b s.pb = some r) :
    execPbResume b s = .next ((s.setPb r.2.2).answer (.pairs r.1 r.2.1)) := by
  simp only [execPbResume, withOperands_ok hw, resumeTarget_none.mpr h, pbResumeCall, hr, orOutOfRange_some]

/-! ## Ownership -/

/-- A caller that does not own a session has no transmit that drives it. -/
theorem not_ownsSession {s : State} {y : Chan} {e : Enc} (h : ownsSession s y e = false) (c : Chan)
    (t : Transmit) (ht : (s.ch c).tx = some t) (hy : t.caller = y) : t.enc ≠ e := by
  intro he
  simp only [ownsSession, Bool.or_eq_false_iff] at h
  have hd : transmitDrives y e (s.ch c).tx = true := by simp [ht, transmitDrives, hy, he]
  cases c
  · rw [show s.ch .a = s.chA from rfl, h.1.2] at hd; cases hd
  · rw [show s.ch .b = s.chB from rfl, h.2] at hd; cases hd

end Sys2Proof.Machine
end

