-- ==== Sys2Proof/Laws/Exec.lean ====
section
/-! SUPPORT. The frame of every operation: which pieces of the state its meaning may write. -/

namespace Sys2Proof.Machine

/-- The pieces of the state a resume word of encoder `e` writes beside its session: those of the transmit it
serves. -/
def resumeWrites (s : State) (e : Enc) : List Part :=
  match resumeTarget s e with
  | some (c, _) => [.ch c, .send c, .line (s.ch c).pin]
  | none => []

theorem mem_resumeWrites {s : State} {e : Enc} {q : Part} (h : q ∈ resumeWrites s e) :
    ∃ c t, (s.ch c).tx = some t ∧ t.enc = e ∧ (q = .ch c ∨ q = .send c ∨ q = .line (s.ch c).pin) := by
  unfold resumeWrites at h
  split at h <;> rename_i ht
  · obtain ⟨h1, h2, -⟩ := resumeTarget_some ht
    exact ⟨_, _, h1, h2, by simpa using h⟩
  · cases h

/-- The pieces of the state an operation may write. -/
def writes (s : State) : Instr → List Part
  | .nibEnc _ => []
  | .pack2 _ _ => []
  | .pack _ _ _ _ _ _ => [.space .outB, .fresh]
  | .paReset => [.pa]
  | .paResume _ _ => .pa :: resumeWrites s .pa
  | .pbFrame _ => [.pb, .space .outB]
  | .pbReset => [.pb]
  | .pbResume _ => .pb :: resumeWrites s .pb
  | .chConfig c _ _ _ _ _ => [.ch c]
  | .chEnable c => [.ch c]
  | .chTransmit c _ _ => [.ch c]
  | .chDisable c => [.ch c]
  | .chDelete c => [.ch c, .fresh]
  | .rxReset => [.rx]
  | .rxTick => [.rx]
  | .rxFall => [.rx, .space .rxBuf]
  | .rxRise => [.rx, .nboot]
  | .rxOvf => [.rx]
  | .rxClaim => [.rx]
  | .rxReadLen => []
  | .rxReadBuf _ => []
  | .rxClearLen => [.rx]
  | .rxReadActive => []

theorem packFrom_mem {p : Params} {src : Space} {dst0 dcap g si j : Nat} {m : Memory}
    {r : Status × Nat × Memory} (h : packFrom p src dst0 dcap g si j m = some r) :
    r.2.2 = { m with outB := r.2.2.outB } := by
  induction g generalizing si j m with
  | zero => simp only [packFrom, Option.some.injEq] at h; subst h; rfl
  | succ g ih =>
    simp only [packFrom] at h
    split at h
    · simp only [Option.some.injEq] at h; subst h; rfl
    · split at h
      · split at h
        · rename_i m' hw
          rw [ih h, (memWriteList_some hw).2]; rfl
        · cases h
      · cases h

theorem packRun_mem {p : Params} {src : Space} {src0 n dst0 dcap : Nat} {m : Memory}
    {r : Status × Nat × Memory} (h : packRun p src src0 n dst0 dcap m = some r) :
    r.2.2 = { m with outB := r.2.2.outB } := by
  unfold packRun at h
  split at h
  · simp only [Option.some.injEq] at h; subst h; rfl
  · exact packFrom_mem h

theorem frameWrite_mem {p : Params} {pb : PbSession} {n : Nat} {m : Memory}
    {r : Status × Nat × Memory} (h : frameWrite p pb n m = some r) :
    r.2.2 = { m with outB := r.2.2.outB } := by
  unfold frameWrite at h
  split at h
  · cases h
  · rename_i m1 h1
    split at h
    · cases h
    · split at h
      · cases h
      · rename_i m2 h2
        rw [packRun_mem h, (memWriteList_some h2).2, (memWriteList_some h1).2]; rfl

theorem SameBut.setOutB (s : State) (m : Memory) (h : m = { s.mem with outB := m.outB }) :
    SameBut [.space .outB] s (s.setMem m) := by
  refine SameBut.setMem s m .outB fun sp hs i => ?_
  rw [h]
  exact Memory.byteAt_setBank_ne s.mem m.outB i hs

theorem appendBit_frame {bit : Bool} {s t : State} (h : appendBit bit s = some t) :
    SameBut [.rx, .space .rxBuf] s t := by
  rw [appendBit_eq] at h
  have hmem : ∀ b, SameBut [.space .rxBuf] s (s.setMem (s.mem.setBank .rxBuf b)) := fun b =>
    SameBut.setMem s _ .rxBuf fun sp hs i => Memory.byteAt_setBank_ne _ _ _ hs
  split at h
  · split at h
    · rw [← Option.some.inj h]
      exact ((hmem _).mono (by simp)).trans ((SameBut.setRx _ _).mono (by simp))
    · rw [← Option.some.inj h]
      exact (SameBut.setRx _ _).mono (by simp)
  · rw [← Option.some.inj h]
    exact (SameBut.setRx _ _).mono (by simp)

theorem bootJump_frame (s : State) : SameBut [.rx, .nboot] s (bootJump s) := by
  intro q hq
  cases q <;> simp_all [Part.Same, bootJump]

theorem SameBut.setRx_answer (s : State) (x : Rx) (r : Result) :
    SameBut [.rx] s ((s.setRx x).answer r) :=
  (SameBut.setRx _ _).trans ((SameBut.answer _ _).mono (by simp))

theorem SameBut.setCh_answer (s : State) (c : Chan) (x : Channel) (r : Result) :
    SameBut [.ch c] s ((s.setCh c x).answer r) :=
  (SameBut.setCh _ _ _).trans ((SameBut.answer _ _).mono (by simp))

/-- The frame of every operation: it changes nothing but the pieces `writes` lists. -/
theorem exec_frame {i : Instr} {s t : State} (h : exec i s = .next t) : SameBut (writes s i) s t := by
  cases i with
  | nibEnc v =>
    simp only [exec, execNibEnc, withOperands_next, orOutOfRange_next] at h
    obtain ⟨-, x, -, h⟩ := h
    cases h; exact SameBut.answer _ _
  | pack2 b0 b1 =>
    simp only [exec, execPack2, withOperands_next] at h
    obtain ⟨-, h⟩ := h
    cases h; exact SameBut.answer _ _
  | pack src src0 n dst dst0 dcap =>
    simp only [exec, execPack, withOperands_next] at h
    obtain ⟨-, h⟩ := h
    obtain ⟨r, hr, h⟩ := orOutOfRange_next.mp h
    have hm := packRun_mem hr
    cases h
    obtain ⟨st, j, m⟩ := r
    unfold packAnswer
    split
    · rename_i j' m' he
      have : m' = m := by simp at he; exact he.2.2.symm
      subst this
      refine ((SameBut.setOutB s _ ?_).mono (by simp [writes])).trans
        (((SameBut.setFresh _ _).mono (by simp [writes])).trans ((SameBut.answer _ _).mono (by simp)))
      simp only at hm ⊢
      rw [hm]
    · rename_i st' j' m' _ he
      have : m' = m := by simp at he; exact he.2.2.symm
      subst this
      exact ((SameBut.setOutB s _ hm).mono (by simp [writes])).trans ((SameBut.answer _ _).mono (by simp))
  | paReset =>
    cases h
    exact (SameBut.setPa _ _).trans ((SameBut.answer _ _).mono (by simp))
  | paResume n b =>
    obtain ⟨-, ⟨ht, r, -, rfl⟩ | ⟨c, x, ht, rfl | ⟨r, -, rfl⟩⟩⟩ := execPaResume_next h <;>
      simp only [writes, resumeWrites, ht]
    · exact (SameBut.setPa _ _).trans ((SameBut.answer _ _).mono (by simp))
    · exact (finishTransmit_frame _ _ _).mono (by simp)
    · refine ((SameBut.setPa s r.2.2).mono (by simp)).trans ((stagePairs_frame c x _ _ _).mono ?_)
      simp
  | pbFrame n =>
    have hrej : ∀ x r, SameBut [.pb, .space .outB] s ((s.setPb x).answer r) := fun x r =>
      ((SameBut.setPb _ _).mono (by simp)).trans ((SameBut.answer _ _).mono (by simp))
    simp only [exec, execPbFrame, withOperands_next] at h
    obtain ⟨-, h⟩ := h
    split at h
    · cases h
    · split at h
      · cases h; exact hrej _ _
      · split at h
        · cases h; exact hrej _ _
        · split at h
          · cases h; exact hrej _ _
          · rw [orOutOfRange_next] at h
            obtain ⟨⟨st, j, m⟩, hr, h⟩ := h
            have hm := frameWrite_mem hr
            have := SameBut.setOutB s m hm
            cases h
            unfold frameAnswer
            split <;> rename_i he <;> cases he <;>
              exact (this.mono (by simp [writes])).trans (((SameBut.setPb _ _).mono
                  (by simp [writes])).trans
                ((SameBut.answer _ _).mono (by simp)))
  | pbReset =>
    cases h
    exact (SameBut.setPb _ _).trans ((SameBut.answer _ _).mono (by simp))
  | pbResume b =>
    obtain ⟨-, ⟨ht, r, -, rfl⟩ | ⟨c, x, ht, rfl | ⟨r, -, rfl⟩⟩⟩ := execPbResume_next h <;>
      simp only [writes, resumeWrites, ht]
    · exact (SameBut.setPb _ _).trans ((SameBut.answer _ _).mono (by simp))
    · exact (finishTransmit_frame _ _ _).mono (by simp)
    · refine ((SameBut.setPb s r.2.2).mono (by simp)).trans ((stagePairs_frame c x _ _ _).mono ?_)
      simp
  | chConfig c carrier duty res depth pin =>
    simp only [exec, execChConfig, withOperands_next] at h
    obtain ⟨-, h⟩ := h
    split at h
    · cases h
    · split at h <;> cases h
      · exact (SameBut.answer _ _).mono (by simp)
      · exact SameBut.setCh_answer _ _ _ _
  | chEnable c =>
    simp only [exec, execChEnable, withOperands_next] at h
    obtain ⟨-, h⟩ := h
    split at h
    · cases h
    · split at h <;> cases h
      · exact (SameBut.answer _ _).mono (by simp)
      · exact SameBut.setCh_answer _ _ _ _
  | chTransmit c enc len =>
    simp only [exec, execChTransmit, withOperands_next] at h
    obtain ⟨-, h⟩ := h
    split at h
    · cases h
    · split at h
      · cases h
      · split at h
        · cases h
        · split at h
          · cases h
          · cases h; exact SameBut.setCh_answer _ _ _ _
  | chDisable c =>
    simp only [exec, execChDisable, withOperands_next] at h
    obtain ⟨-, h⟩ := h
    split at h
    · cases h
    · split at h
      · cases h
      · split at h <;> cases h
        · exact (SameBut.answer _ _).mono (by simp)
        · exact SameBut.setCh_answer _ _ _ _
  | chDelete c =>
    simp only [exec, execChDelete, withOperands_next] at h
    obtain ⟨-, h⟩ := h
    split at h <;> cases h
    exact ((SameBut.setCh _ _ _).mono (by simp [writes])).trans
      (((SameBut.setFresh _ _).mono (by simp [writes])).trans ((SameBut.answer _ _).mono (by simp)))
  | rxReset => cases h; exact SameBut.setRx_answer _ _ _
  | rxTick => cases h; exact SameBut.setRx_answer _ _ _
  | rxFall =>
    simp only [exec, execRxFall] at h
    split at h
    · cases h; exact (SameBut.answer _ _).mono (by simp)
    · split at h
      · cases h; exact (SameBut.setRx_answer _ _ _).mono (by simp [writes])
      · rw [orOutOfRange_next] at h
        obtain ⟨x, hx, h⟩ := h
        cases h
        exact ((SameBut.setRx _ _).mono (by simp [writes])).trans
          ((appendBit_frame hx).trans ((SameBut.answer _ _).mono (by simp)))
  | rxRise =>
    simp only [exec, execRxRise] at h
    split at h
    · cases h; exact (SameBut.answer _ _).mono (by simp)
    · split at h
      · split at h
        · cases h
          exact ((SameBut.setRx _ _).mono (by simp [writes])).trans (bootJump_frame _)
        · cases h; exact (SameBut.setRx_answer _ _ _).mono (by simp [writes])
      · cases h; exact (SameBut.setRx_answer _ _ _).mono (by simp [writes])
  | rxOvf =>
    simp only [exec, execRxOvf] at h
    split at h
    · split at h <;> cases h <;> exact SameBut.setRx_answer _ _ _
    · cases h
  | rxClaim =>
    simp only [exec, execRxClaim, mainLoopAccess_next, orOutOfRange_next] at h
    obtain ⟨-, x, -, h⟩ := h
    cases h; exact SameBut.setRx_answer _ _ _
  | rxReadLen =>
    simp only [exec, execRxReadLen, mainLoopAccess_next] at h
    obtain ⟨-, h⟩ := h
    cases h; exact SameBut.answer _ _
  | rxReadBuf i =>
    simp only [exec, execRxReadBuf, withOperands_next, mainLoopAccess_next, orOutOfRange_next] at h
    obtain ⟨-, -, x, -, h⟩ := h
    cases h; exact SameBut.answer _ _
  | rxClearLen =>
    simp only [exec, execRxClearLen, mainLoopAccess_next] at h
    obtain ⟨-, h⟩ := h
    cases h; exact SameBut.setRx_answer _ _ _
  | rxReadActive =>
    simp only [exec, execRxReadActive, mainLoopAccess_next] at h
    obtain ⟨-, h⟩ := h
    cases h; exact SameBut.answer _ _
theorem rx_of_frame {i : Instr} {s t : State} (h : exec i s = .next t) (hw : Part.rx ∉ writes s i) :
    t.rx = s.rx :=
  exec_frame h .rx hw
theorem buf_of_frame {i : Instr} {s t : State} (h : exec i s = .next t)
    (hw : Part.space .rxBuf ∉ writes s i) : ∀ j, t.mem.byteAt .rxBuf j = s.mem.byteAt .rxBuf j :=
  exec_frame h (.space .rxBuf) hw

theorem fall_cases {s t : State} (h : execRxFall s = .next t) :
   (edgesIgnored s.rx = true ∧ t = s.answer .none) ∨ (edgesIgnored s.rx = false ∧ s.rx.ref = 0 ∧
       t = (s.setRx { s.rx with tmr := 0, commActive := true }).answer .none) ∨
   (edgesIgnored s.rx = false ∧ s.rx.ref ≠ 0 ∧ ∃ u, appendBit (bitOf s.rx.tmr s.rx.ref)
       (s.setRx { s.rx with tmr := 0, commActive := true }) = some u ∧ t = u.answer .none) := by
  unfold execRxFall at h
  split at h
  · cases h; exact .inl ⟨‹_›, rfl⟩
  · rename_i hi
    simp only [Bool.not_eq_true] at hi
    split at h
    · cases h; exact .inr (.inl ⟨hi, ‹_›, rfl⟩)
    · rw [orOutOfRange_next] at h
      obtain ⟨x, hx, h⟩ := h
      cases h
      exact .inr (.inr ⟨hi, ‹_›, x, hx, rfl⟩)

theorem rise_cases {s t : State} (h : execRxRise s = .next t) :
   (edgesIgnored s.rx = true ∧ t = s.answer .none) ∨
   (edgesIgnored s.rx = false ∧ isTerm s.rx.tmr s.rx.ref = true ∧
       bootMatch s.params s.mem s.rx.rxIdx = true ∧
       t = bootJump (s.setRx (sealFrame { s.rx with tmr := 0 }))) ∨
   (edgesIgnored s.rx = false ∧ isTerm s.rx.tmr s.rx.ref = true ∧
       bootMatch s.params s.mem s.rx.rxIdx = false ∧
       t = (s.setRx (sealFrame { s.rx with tmr := 0 })).answer .none) ∨
   (edgesIgnored s.rx = false ∧ isTerm s.rx.tmr s.rx.ref = false ∧
       t = (s.setRx { s.rx with tmr := 0, ref := s.rx.tmr }).answer .none) := by
  unfold execRxRise at h
  split at h
  · cases h; exact .inl ⟨‹_›, rfl⟩
  · rename_i hi
    simp only [Bool.not_eq_true] at hi
    split at h
    · split at h
      · cases h; exact .inr (.inl ⟨hi, ‹_›, ‹_›, rfl⟩)
      · rename_i h2
        cases h; exact .inr (.inr (.inl ⟨hi, ‹_›, by simpa using h2, rfl⟩))
    · rename_i h2
      cases h; exact .inr (.inr (.inr ⟨hi, by simpa using h2, rfl⟩))

theorem ovf_cases {s t : State} (h : execRxOvf s = .next t) :
   s.rx.ovfPend = true ∧ ((s.rx.booted = true ∧ t = (s.setRx { s.rx with ovfPend := false }).answer .none) ∨
    (s.rx.booted = false ∧ t = (s.setRx (overflowCleared s.rx)).answer .none)) := by
  unfold execRxOvf at h
  split at h
  · split at h
    · cases h; exact ⟨‹_›, .inl ⟨‹_›, rfl⟩⟩
    · rename_i h2
      cases h; exact ⟨‹_›, .inr ⟨by simpa using h2, rfl⟩⟩
  · cases h

theorem claim_cases {s t : State} (h : execRxClaim s = .next t) :
    s.rx.booted = false ∧ ∃ r, t = (s.setRx { s.rx with rxBufLen := 0 }).answer r := by
  simp only [execRxClaim, mainLoopAccess_next, orOutOfRange_next] at h
  obtain ⟨a, x, -, h⟩ := h
  cases h; exact ⟨a, _, rfl⟩

theorem clear_cases {s t : State} (h : execRxClearLen s = .next t) :
    s.rx.booted = false ∧ t = (s.setRx { s.rx with rxBufLen := 0 }).answer .none := by
  simp only [execRxClearLen, mainLoopAccess_next] at h
  obtain ⟨a, h⟩ := h
  cases h; exact ⟨a, rfl⟩

theorem appendBit_rx {bit : Bool} {s t : State} (h : appendBit bit s = some t) :
    t.rx = { s.rx with rxByte := t.rx.rxByte, rxBits := t.rx.rxBits, rxIdx := t.rx.rxIdx } := by
  rw [appendBit_eq] at h
  split at h
  · split at h <;> rw [← Option.some.inj h] <;> rfl
  · rw [← Option.some.inj h]; rfl

theorem placeBit_eq (x : Byte) (e ref : Nat) (k : Fin 8) :
    placeBit x (bitOf e ref) k = x ||| ((if 2 * ref < e then 1 else 0) <<< k.val) := by
  unfold placeBit bitOf
  by_cases h : 2 * ref < e
  · simp only [gt_iff_lt, h, decide_true, if_true]; rfl
  · simp [h]

theorem bootMatch_iff (p m n) :
    bootMatch p m n = true ↔ n = 4 ∧ (List.range 4).map (m.byteAt .rxBuf) = [0x42, 0x4F, 0x4F, 0x54] := by
  unfold bootMatch
  rw [memReadList_eq (.inr (show 0 + 4 ≤ 10 by decide))]
  simp [bootCmd]

theorem runOps_snoc (is : List Instr) (i : Instr) (s : State) :
    runOps (is ++ [i]) s = andThen (runOps is s) (exec i) := by
  induction is generalizing s with
  | nil => simp only [List.nil_append, runOps, andThen_next_eq]; cases exec i s <;> rfl
  | cons x xs ih =>
    simp only [List.cons_append, runOps]
    cases exec x s with
    | next u => simp only [andThen_next_eq]; exact ih u
    | fault => rfl
    | refused => rfl

end Sys2Proof.Machine
end

