-- ==== Sys2Proof/Laws/PerInstr.lean ====
section
/-! SUPPORT. Properties of an operation as syntax, one lemma per constructor of `Instr`. -/

namespace Sys2Proof.Laws.OperandsOnPorts

open Sys2Proof.Machine

/-- The encoder writes one byte of one of the six units of R116, and drives each operand onto its own
port (R117). -/
def Statement (i : Instr) : Prop :=
  encode i = [opWord i] ∧ (opUnit (opWord i)).toNat ≤ 5 ∧ carries (encodePorts i) i

theorem nibEnc (v : Nat) : Statement (.nibEnc v) :=
  ⟨rfl, by simp [opWord, opUnit], by simp [carries, encodePorts]⟩

theorem pack2 (b0 : Byte) (b1 : Byte) : Statement (.pack2 b0 b1) :=
  ⟨rfl, by simp [opWord, opUnit], by simp [carries, encodePorts]⟩

theorem pack (src : Space) (src0 : Nat) (n : Nat) (dst : Space) (dst0 : Nat) (dcap : Nat) :
    Statement (.pack src src0 n dst dst0 dcap) := by
  refine ⟨rfl, by simp [opWord, opUnit], ?_⟩
  simp [carries, encodePorts]

theorem paReset : Statement (.paReset) :=
  ⟨rfl, by decide, trivial⟩

theorem paResume (len : Nat) (budget : Nat) : Statement (.paResume len budget) :=
  ⟨rfl, by simp [opWord, opUnit], by simp [carries, encodePorts]⟩

theorem pbFrame (n : Nat) : Statement (.pbFrame n) :=
  ⟨rfl, by simp [opWord, opUnit], by simp [carries, encodePorts]⟩

theorem pbReset : Statement (.pbReset) :=
  ⟨rfl, by decide, trivial⟩

theorem pbResume (budget : Nat) : Statement (.pbResume budget) :=
  ⟨rfl, by simp [opWord, opUnit], by simp [carries, encodePorts]⟩

theorem chConfig (c : Chan) (carrier : Nat) (duty : Duty) (res : Nat) (depth : Nat) (pin : Nat) :
    Statement (.chConfig c carrier duty res depth pin) := by
  refine ⟨rfl, by simp [opWord, opUnit], ?_⟩
  simp [carries, encodePorts]

theorem chEnable (c : Chan) : Statement (.chEnable c) :=
  ⟨rfl, by simp [opWord, opUnit], by simp [carries, encodePorts]⟩

theorem chTransmit (c : Chan) (enc : Enc) (len : Nat) :
    Statement (.chTransmit c enc len) := by
  refine ⟨rfl, by simp [opWord, opUnit], ?_⟩
  simp [carries, encodePorts]

theorem chDisable (c : Chan) : Statement (.chDisable c) :=
  ⟨rfl, by simp [opWord, opUnit], by simp [carries, encodePorts]⟩

theorem chDelete (c : Chan) : Statement (.chDelete c) :=
  ⟨rfl, by simp [opWord, opUnit], by simp [carries, encodePorts]⟩

theorem rxReset : Statement (.rxReset) :=
  ⟨rfl, by decide, trivial⟩

theorem rxTick : Statement (.rxTick) :=
  ⟨rfl, by decide, trivial⟩

theorem rxFall : Statement (.rxFall) :=
  ⟨rfl, by decide, trivial⟩

theorem rxRise : Statement (.rxRise) :=
  ⟨rfl, by decide, trivial⟩

theorem rxOvf : Statement (.rxOvf) :=
  ⟨rfl, by decide, trivial⟩

theorem rxClaim : Statement (.rxClaim) :=
  ⟨rfl, by decide, trivial⟩

theorem rxReadLen : Statement (.rxReadLen) :=
  ⟨rfl, by decide, trivial⟩

theorem rxReadBuf (i : Nat) : Statement (.rxReadBuf i) :=
  ⟨rfl, by simp [opWord, opUnit], by simp [carries, encodePorts]⟩

theorem rxClearLen : Statement (.rxClearLen) :=
  ⟨rfl, by decide, trivial⟩

theorem rxReadActive : Statement (.rxReadActive) :=
  ⟨rfl, by decide, trivial⟩

end Sys2Proof.Laws.OperandsOnPorts
end

