-- ==== Sys2Proof/Laws/Present.lean ====
section
/-! SUPPORT. The fields of a power-on reset, and what issuing an operation answers. -/

namespace Sys2Proof.Machine

@[simp] theorem powerOnTx_params (s : State) : (powerOnTx s).params = s.params := rfl
@[simp] theorem powerOnTx_pa (s : State) : (powerOnTx s).pa = paInitial := rfl
@[simp] theorem powerOnTx_pb (s : State) :
    (powerOnTx s).pb = ⟨.empty, 0, 0, 0, s.params.bNpre, s.params.bPreByte⟩ := rfl
@[simp] theorem powerOnTx_chA (s : State) : (powerOnTx s).chA = channelAbsent s.fresh := rfl
@[simp] theorem powerOnTx_chB (s : State) : (powerOnTx s).chB = channelAbsent (s.fresh + 1) := rfl
@[simp] theorem powerOnTx_rx (s : State) : (powerOnTx s).rx = s.rx := rfl
@[simp] theorem powerOnTx_crit (s : State) : (powerOnTx s).crit = s.crit := rfl
@[simp] theorem powerOnTx_obs (s : State) : (powerOnTx s).obs = { s.obs with line := [] } := rfl
@[simp] theorem powerOnTx_sendA (s : State) : (powerOnTx s).sendA = none := rfl
@[simp] theorem powerOnTx_sendB (s : State) : (powerOnTx s).sendB = none := rfl
@[simp] theorem powerOnTx_out (s : State) : (powerOnTx s).out = outputsIdle := rfl
@[simp] theorem powerOnTx_issue (s : State) : (powerOnTx s).issue = s.issue := rfl
@[simp] theorem powerOnTx_fresh (s : State) : (powerOnTx s).fresh = s.fresh + 3 := rfl
@[simp] theorem powerOnTx_events (s : State) : (powerOnTx s).events = s.events := rfl

theorem powerOnTx_mem (s : State) :
    (powerOnTx s).mem = { s.mem with
      inA := bankFree s.fresh s.mem.inA (spaceSize s.params .inA)
      inB := bankFree (s.fresh + 1) s.mem.inB (spaceSize s.params .inB)
      outB := bankFree (s.fresh + 2) s.mem.outB (spaceSize s.params .outB) } := rfl

@[simp] theorem powerOnTx_rxBuf (s : State) : (powerOnTx s).mem.rxBuf = s.mem.rxBuf := by
  rw [powerOnTx_mem]

@[simp] theorem powerOnRx_params (s : State) : (powerOnRx s).params = s.params := by
  simp [powerOnRx]
@[simp] theorem powerOnRx_pa (s : State) : (powerOnRx s).pa = s.pa := by
  simp [powerOnRx]
@[simp] theorem powerOnRx_pb (s : State) : (powerOnRx s).pb = s.pb := by
  simp [powerOnRx]
@[simp] theorem powerOnRx_chA (s : State) : (powerOnRx s).chA = s.chA := by
  simp [powerOnRx]
@[simp] theorem powerOnRx_chB (s : State) : (powerOnRx s).chB = s.chB := by
  simp [powerOnRx]
@[simp] theorem powerOnRx_rx (s : State) : (powerOnRx s).rx = rxInitial := by
  simp [powerOnRx]
@[simp] theorem powerOnRx_crit (s : State) : (powerOnRx s).crit = false := by
  simp [powerOnRx]
@[simp] theorem powerOnRx_obs (s : State) : (powerOnRx s).obs = { s.obs with nboot := 0 } := by
  simp [powerOnRx]
@[simp] theorem powerOnRx_sendA (s : State) : (powerOnRx s).sendA = s.sendA := by
  simp [powerOnRx]
@[simp] theorem powerOnRx_sendB (s : State) : (powerOnRx s).sendB = s.sendB := by
  simp [powerOnRx]
@[simp] theorem powerOnRx_out (s : State) : (powerOnRx s).out = outputsIdle := by
  simp [powerOnRx]
@[simp] theorem powerOnRx_issue (s : State) : (powerOnRx s).issue = s.issue := by
  simp [powerOnRx]
@[simp] theorem powerOnRx_fresh (s : State) : (powerOnRx s).fresh = s.fresh + 1 := by
  simp [powerOnRx]
@[simp] theorem powerOnRx_events (s : State) : (powerOnRx s).events = s.events := by
  simp [powerOnRx]

theorem powerOnRx_mem (s : State) :
    (powerOnRx s).mem =
      { s.mem with rxBuf := bankFree s.fresh s.mem.rxBuf (spaceSize s.params .rxBuf) } := rfl

@[simp] theorem powerOnRx_inA (s : State) : (powerOnRx s).mem.inA = s.mem.inA := by
  rw [powerOnRx_mem]
@[simp] theorem powerOnRx_inB (s : State) : (powerOnRx s).mem.inB = s.mem.inB := by
  rw [powerOnRx_mem]
@[simp] theorem powerOnRx_outB (s : State) : (powerOnRx s).mem.outB = s.mem.outB := by
  rw [powerOnRx_mem]

/-- An operation that an agent issues and that answers is its effect, with issuer and draw latched. -/
theorem runInstr_next {ag : Agent} {i : Instr} {f : Hw} {s t : State} (h : runInstr ag i f s = .next t) :
    mayIssue ag i = true ∧ agentBlocked s ag = false ∧ outOfPlace s i = false ∧
      (ag = .rxIsr → s.crit = false) ∧ exec i (s.setIssue ⟨ag, f⟩) = .next t := by
  unfold runInstr at h
  split at h
  · cases h
  rename_i h1
  split at h
  · cases h
  rename_i h2
  split at h
  · cases h
  rename_i h3
  have e1 : mayIssue ag i = true := by simpa using h1
  have e2 : agentBlocked s ag = false := by simpa using h2
  have e3 : outOfPlace s i = false := by simpa using h3
  split at h <;> rename_i h4
  · obtain ⟨hc, h⟩ := takeInterrupt_next.mp h
    exact ⟨e1, e2, e3, fun _ => by simpa using hc, h⟩
  · exact ⟨e1, e2, e3, fun e => absurd e h4, h⟩

/-- A send's step that answers is its operation, issued by its caller, and what the send makes of the
answer. -/
theorem sendAdvance_next {c : Chan} {f : Hw} {s t : State} (h : sendAdvance c f s = .next t) :
    ∃ x i u, s.send c = some x ∧ sendOp s.params c x = some i ∧
      transmitBlocks c s.chA.tx = false ∧ transmitBlocks c s.chB.tx = false ∧
      exec i (s.setIssue ⟨.txCaller c, f⟩) = .next u ∧
      sendNext c x u = .next t := by
  unfold sendAdvance at h
  split at h
  · cases h
  rename_i x hx
  split at h
  · cases h
  rename_i i hi
  split at h
  · cases h
  rename_i h1
  simp only [Bool.or_eq_true, not_or, Bool.not_eq_true] at h1
  obtain ⟨u, hu, h⟩ := andThen_next.mp h
  exact ⟨x, i, u, hx, hi, h1.1, h1.2, hu, h⟩

end Sys2Proof.Machine
end

