-- ==== Sys2Proof/Laws/Safety.lean ====
section
/-! SUPPORT. Which updates keep a state safe: one lemma for each single update of the state, for the
sessions the resume operations leave, and for the steps that are not operations. -/

namespace Sys2Proof.Machine

theorem State.Ok.answer {s : State} (h : s.Ok) (r) : (s.answer r).Ok := by
  obtain ⟨h1,h2,h3,h4,h5,h6,h7,h8,h9⟩ := h
  refine ⟨h1,h2,?_,h4,h5,h6,h7,h8,?_⟩
  · intro c; have := h3 c; cases c <;> exact this
  · intro c; have := h9 c; cases c <;> exact this

theorem State.Ok.setOut {s : State} (h : s.Ok) (r) : (s.setOut r).Ok := by
  obtain ⟨h1,h2,h3,h4,h5,h6,h7,h8,h9⟩ := h
  refine ⟨h1,h2,?_,h4,h5,h6,h7,h8,?_⟩
  · intro c; have := h3 c; cases c <;> exact this
  · intro c; have := h9 c; cases c <;> exact this

theorem State.Ok.setIssue {s : State} (h : s.Ok) (r) : (s.setIssue r).Ok := by
  obtain ⟨h1,h2,h3,h4,h5,h6,h7,h8,h9⟩ := h
  refine ⟨h1,h2,?_,h4,h5,h6,h7,h8,?_⟩
  · intro c; have := h3 c; cases c <;> exact this
  · intro c; have := h9 c; cases c <;> exact this

theorem State.Ok.setFresh {s : State} (h : s.Ok) (r) : (s.setFresh r).Ok := by
  obtain ⟨h1,h2,h3,h4,h5,h6,h7,h8,h9⟩ := h
  refine ⟨h1,h2,?_,h4,h5,h6,h7,h8,?_⟩
  · intro c; have := h3 c; cases c <;> exact this
  · intro c; have := h9 c; cases c <;> exact this

theorem State.Ok.setEvents {s : State} (h : s.Ok) (r) : (s.setEvents r).Ok := by
  obtain ⟨h1,h2,h3,h4,h5,h6,h7,h8,h9⟩ := h
  refine ⟨h1,h2,?_,h4,h5,h6,h7,h8,?_⟩
  · intro c; have := h3 c; cases c <;> exact this
  · intro c; have := h9 c; cases c <;> exact this

theorem State.Ok.setPa {s : State} (h : s.Ok) {x} (hx : x.Ok) : (s.setPa x).Ok := by
  obtain ⟨h1,h2,h3,h4,h5,h6,h7,h8,h9⟩ := h
  refine ⟨hx,h2,?_,h4,h5,h6,h7,h8,?_⟩
  · intro c; have := h3 c; cases c <;> exact this
  · intro c; have := h9 c; cases c <;> exact this

theorem State.Ok.setPb {s : State} (h : s.Ok) {x} (hx : x.Ok s.params) : (s.setPb x).Ok := by
  obtain ⟨h1,h2,h3,h4,h5,h6,h7,h8,h9⟩ := h
  refine ⟨h1,hx,?_,h4,h5,h6,h7,h8,?_⟩
  · intro c; have := h3 c; cases c <;> exact this
  · intro c; have := h9 c; cases c <;> exact this

theorem State.Ok.setRx {s : State} (h : s.Ok) {x} (hx : x.Ok s.params) (hc : x.booted = true →
    s.crit = false) : (s.setRx x).Ok := by
  obtain ⟨h1,h2,h3,h4,h5,h6,h7,h8,h9⟩ := h
  refine ⟨h1,h2,?_,h4,hx,hc,h7,h8,?_⟩
  · intro c; have := h3 c; cases c <;> exact this
  · intro c; have := h9 c; cases c <;> exact this

theorem State.Ok.setMem {s : State} (h : s.Ok) {m : Memory} (hx : ∀ sp, m.SpaceOk s.params sp) :
    (s.setMem m).Ok := by
  obtain ⟨h1,h2,h3,h4,h5,h6,h7,h8,h9⟩ := h
  refine ⟨h1,h2,?_,h4,h5,h6,hx,h8,?_⟩
  · intro c; have := h3 c; cases c <;> exact this
  · intro c; have := h9 c; cases c <;> exact this

theorem State.Ok.setObs {s : State} (h : s.Ok) {x} (hx : lineWf x.line) : (s.setObs x).Ok := by
  obtain ⟨h1,h2,h3,h4,h5,h6,h7,h8,h9⟩ := h
  refine ⟨h1,h2,?_,h4,h5,h6,h7,hx,?_⟩
  · intro c; have := h3 c; cases c <;> exact this
  · intro c; have := h9 c; cases c <;> exact this

theorem State.Ok.setCrit {s : State} (h : s.Ok) {x} (hx : s.rx.booted = true → x = false) :
    (s.setCrit x).Ok := by
  obtain ⟨h1,h2,h3,h4,h5,h6,h7,h8,h9⟩ := h
  refine ⟨h1,h2,?_,h4,h5,hx,h7,h8,?_⟩
  · intro c; have := h3 c; cases c <;> exact this
  · intro c; have := h9 c; cases c <;> exact this

/-- a new channel: pins and the waiting send must be right -/
theorem State.Ok.setCh {s : State} (h : s.Ok) (c : Chan) {x : Channel} (hx : x.Ok)
    (hp : x.busy = true → (s.ch c.other).busy = true → x.pin ≠ (s.ch c.other).pin)
    (hs : ∀ y, s.send c = some y → y.stage = .blocked → ∃ t, x.tx = some t ∧ t.caller = c) :
        (s.setCh c x).Ok := by
  obtain ⟨h1,h2,h3,h4,h5,h6,h7,h8,h9⟩ := h
  have ha := h3 .a
  have hb := h3 .b
  have sa := h9 .a
  have sb := h9 .b
  cases c
  · refine ⟨h1,h2,?_,hp,h5,h6,h7,h8,?_⟩
    · intro c; cases c
      · exact hx
      · exact hb
    · intro c; cases c
      · intro y hy; exact ⟨(sa y hy).1, hs y hy⟩
      · exact sb
  · refine ⟨h1,h2,?_,fun p q => (hp q p).symm,h5,h6,h7,h8,?_⟩
    · intro c; cases c
      · exact ha
      · exact hx
    · intro c; cases c
      · exact sa
      · intro y hy; exact ⟨(sb y hy).1, hs y hy⟩

theorem State.Ok.setSend {s : State} (h : s.Ok) (c : Chan) {x : Option Send}
    (hs : ∀ y, x = some y → y.n ≤ spaceSize s.params (inputSpace c) ∧ (y.stage = .blocked → ∃ t,
        (s.ch c).tx = some t ∧ t.caller = c)) : (s.setSend c x).Ok := by
  obtain ⟨h1,h2,h3,h4,h5,h6,h7,h8,h9⟩ := h
  have ha := h3 .a
  have hb := h3 .b
  have sa := h9 .a
  have sb := h9 .b
  cases c
  · refine ⟨h1,h2,?_,h4,h5,h6,h7,h8,?_⟩
    · intro c; cases c
      · exact ha
      · exact hb
    · intro c; cases c
      · exact hs
      · exact sb
  · refine ⟨h1,h2,?_,h4,h5,h6,h7,h8,?_⟩
    · intro c; cases c
      · exact ha
      · exact hb
    · intro c; cases c
      · exact sa
      · exact hs

theorem paInitial_ok : paInitial.Ok := by simp [PaSession.Ok, paInitial]
theorem pbEmptied_ok (p pb) : (pbEmptied pb).Ok p := by simp [PbSession.Ok, pbEmptied]
theorem pbRejected_ok {p pb} (h : pb.Ok p) (he : pb.st ≠ .loaded) : (pbRejected pb).Ok p := by
  have : pb.st = .empty := by cases h : pb.st <;> simp_all
  obtain ⟨h1, -⟩ := h
  obtain ⟨a, b, c⟩ := h1 this
  simp [PbSession.Ok, pbRejected, b, c]

theorem paResume_ok {p m n b pa r} (hn : n ≤ aMaxPayload) (h : pa.Ok) (hr : paResume p m n b pa =
    some r) : r.2.2.Ok := by
  unfold paResume at hr
  have ht : ∀ out room pa', pa'.Ok → (paTerminate p out room pa').2.2.Ok := by
    intro out room pa' h
    unfold paTerminate
    split
    · exact h
    · exact paInitial_ok
  split at hr
  · obtain ⟨pa', hd, e1, e2, e3⟩ := paData_spec p m n hn b pa
    have hok : pa'.Ok := by
      obtain ⟨a, c⟩ := h
      exact ⟨by rw [e2, a], by omega⟩
    rw [hd] at hr
    simp only at hr
    split at hr
    · cases hr; exact hok
    · cases hr; exact ht _ _ _ hok
  · cases hr; exact ht _ _ _ h

theorem pbResume_ok {p m b pb r} (h : pb.Ok p) (hr : pbResume p m b pb = some r) : r.2.2.Ok p := by
  have hl : pb.len ≤ p.bOutCap := by
    cases hs : pb.st
    · rw [(h.1 hs).1]; omega
    · exact (h.2 hs).2
  obtain ⟨pb', hd, e1, e2⟩ := pbData_spec p m b pb hl
  unfold pbResume at hr
  rw [hd] at hr
  simp only at hr
  split at hr
  · rename_i hlt
    cases hr
    have hlen : pb'.len = pb.len := by rw [e1]
    have hst : pb'.st = pb.st := by rw [e1]
    refine ⟨?_, fun _ => ⟨hlt, by rw [hlen]; exact hl⟩⟩
    intro hs
    rw [hst] at hs
    have := (h.1 hs).1
    rw [hlen, this] at hlt; omega
  · cases hr; exact pbEmptied_ok _ _

theorem State.Ok.spaceOk_outB {s : State} (h : s.Ok) {m : Memory} (hm : m = { s.mem with outB :=
    m.outB }) (ho : m.SpaceOk s.params .outB) : ∀ sp, m.SpaceOk s.params sp := by
  intro sp
  cases sp with
  | outB => exact ho
  | inA => have := h.mem .inA; rw [hm]; exact this
  | inB => have := h.mem .inB; rw [hm]; exact this
  | rxBuf => have := h.mem .rxBuf; rw [hm]; exact this

theorem busy_false_of {x : Channel} (h : x.Ok) (hs : x.state ≠ .enabled) : x.busy = false := by
  cases hb : x.busy
  · rfl
  · exact absurd (h.1 hb) hs

theorem State.Ok.not_blocked {s : State} (h : s.Ok) {c : Chan} (hb : (s.ch c).busy = false) : ∀ y,
    s.send c = some y → y.stage ≠ .blocked := by
  intro y hy hs
  obtain ⟨t, ht, -⟩ := (h.sends c y hy).2 hs
  simp [Channel.busy, ht] at hb

theorem appendBit_ok {bit : Bool} {s t : State} (h : s.Ok) (hb : s.rx.booted = false)
    (hl : s.rx.rxBufLen = 0) (ha : appendBit bit s = some t) : t.Ok := by
  obtain ⟨r1, r2, r3, r4, r5, r6, r7⟩ := h.rx
  rw [appendBit_eq] at ha
  split at ha
  · split at ha
    · rename_i hi
      rw [← Option.some.inj ha]
      refine State.Ok.setRx (State.Ok.setMem h ?_) ⟨r1, r2, ?_, r4, r5, fun hh => absurd hl hh,
          ?_⟩ (fun hh => ?_)
      · exact Memory.SpaceOk.setBank h.mem (bankSet_wf (h.mem .rxBuf).1 _ _) (bankSet_bound _
          (h.mem .rxBuf).2 hi)
      · simp only [rxCap] at hi ⊢; omega
      · simp
      · simp [hb] at hh
    · rw [← Option.some.inj ha]
      refine State.Ok.setRx h ⟨r1, r2, r3, r4, r5, fun hh => absurd hl hh, ?_⟩ (fun hh => ?_)
      · simp
      · simp [hb] at hh
  · rename_i hk
    rw [← Option.some.inj ha]
    refine State.Ok.setRx h ⟨r1, r2, r3, r4, r5, fun hh => absurd hl hh, ?_⟩ (fun hh => ?_)
    · exact placeBit_lt bit r7 hk
    · simp [hb] at hh

theorem rxInitial_ok (p) : rxInitial.Ok p := by simp [Rx.Ok, rxInitial]

theorem finishTransmit_ok {s : State} (hs : s.Ok) (c st) : (finishTransmit c st s).Ok := by
  refine State.Ok.answer ?_ _
  obtain ⟨h1,h2,h3,h4,h5,h6,h7,h8,h9⟩ := hs
  have key : ∀ y, sendAfterTransmit st (s.send c) = some y → y.n ≤ spaceSize s.params
      (inputSpace c) ∧ y.stage ≠ .blocked := by
    intro y hy
    cases hx : s.send c with
    | none => rw [hx] at hy; cases hy
    | some x =>
      rw [hx] at hy
      simp only [sendAfterTransmit] at hy
      have := (h9 c x hx).1
      split at hy
      · cases hy; exact ⟨this, by simp⟩
      · cases hy; exact ⟨this, by assumption⟩
  have ha := h3 .a
  have hb := h3 .b
  have sa := h9 .a
  have sb := h9 .b
  have nx : ∀ x : Channel, x.Ok → Channel.Ok { x with tx := none } :=
      fun x hx => ⟨by simp [Channel.busy], hx.2.1, by simp, hx.2.2.2⟩
  cases c
  · refine ⟨h1,h2,?_,by simp [State.setCh, State.setSend, Channel.busy],h5,h6,h7,h8,?_⟩
    · intro c; cases c
      · exact nx _ ha
      · exact hb
    · intro c; cases c
      · intro y hy; exact ⟨(key y hy).1, fun e => absurd e (key y hy).2⟩
      · exact sb
  · refine ⟨h1,h2,?_,by simp [State.setCh, State.setSend, Channel.busy],h5,h6,h7,h8,?_⟩
    · intro c; cases c
      · exact ha
      · exact nx _ hb
    · intro c; cases c
      · exact sa
      · intro y hy; exact ⟨(key y hy).1, fun e => absurd e (key y hy).2⟩

theorem stagePairs_ok {s : State} (hs : s.Ok) (c : Chan) (t : Transmit) (htx : (s.ch c).tx =
    some t) (out st) : (stagePairs c t out st s).Ok := by
  refine State.Ok.answer (State.Ok.setCh (State.Ok.setObs hs (lineAppend_wf hs.line _ _)) c ?_ ?_ ?_) _
  · have hch := hs.chan c
    have hb : (s.ch c).busy = true := by simp [Channel.busy, htx]
    refine ⟨fun _ => hch.1 hb, hch.2.1, ?_, hch.2.2.2⟩
    intro t' ht' he
    cases ht'
    exact hch.2.2.1 t htx he
  · intro _ hb
    have hb1 : (s.ch c).busy = true := by simp [Channel.busy, htx]
    have := hs.pins
    cases c
    · exact this hb1 hb
    · exact (this hb hb1).symm
  · intro y hy hbk
    refine ⟨_, rfl, ?_⟩
    obtain ⟨t', h1, h2⟩ := (hs.sends c y (by simpa using hy)).2 hbk
    rw [htx] at h1
    cases h1
    exact h2

theorem sourceStored_ok {s : State} (hs : s.Ok) (c bytes) : (sourceStored c bytes s).Ok := by
  refine hs.setMem (Memory.SpaceOk.setBank hs.mem (bankWrite_wf (hs.mem _).1 _ _)
      (bankWrite_bound _ _ (hs.mem _).2 ?_))
  simp

theorem powerOnTx_ok {s : State} (hs : s.Ok) : (powerOnTx s).Ok := by
  obtain ⟨h1,h2,h3,h4,h5,h6,h7,h8,h9⟩ := hs
  constructor
  · rw [powerOnTx_pa]; exact paInitial_ok
  · rw [powerOnTx_pb]; simp [PbSession.Ok]
  · intro c; cases c <;> simp [State.ch, Channel.Ok, channelAbsent, Channel.busy]
  · rw [powerOnTx_chA]; simp [channelAbsent, Channel.busy]
  · rw [powerOnTx_rx, powerOnTx_params]; exact h5
  · rw [powerOnTx_rx, powerOnTx_crit]; exact h6
  · intro sp
    rw [powerOnTx_params, powerOnTx_mem]
    have a := h7 .inA
    have b := h7 .inB
    have c := h7 .outB
    have d := h7 .rxBuf
    have a1 : Bank.wf (bankFree s.fresh s.mem.inA (spaceSize s.params .inA)) := bankFree_wf a.1 _ _
    have a2 := bankFree_bound s.fresh (spaceSize s.params .inA) a.2 (le_refl _)
    have b1 : Bank.wf (bankFree (s.fresh + 1) s.mem.inB (spaceSize s.params .inB)) := bankFree_wf b.1 _ _
    have b2 := bankFree_bound (s.fresh + 1) (spaceSize s.params .inB) b.2 (le_refl _)
    have c1 : Bank.wf (bankFree (s.fresh + 2) s.mem.outB (spaceSize s.params .outB)) := bankFree_wf c.1 _ _
    have c2 := bankFree_bound (s.fresh + 2) (spaceSize s.params .outB) c.2 (le_refl _)
    simp only [Memory.bank] at a2 b2 c2
    generalize bankFree s.fresh s.mem.inA (spaceSize s.params .inA) = x at *
    generalize bankFree (s.fresh + 1) s.mem.inB (spaceSize s.params .inB) = y at *
    generalize bankFree (s.fresh + 2) s.mem.outB (spaceSize s.params .outB) = z at *
    cases sp
    · exact ⟨a1, a2⟩
    · exact ⟨b1, b2⟩
    · exact ⟨c1, c2⟩
    · exact d
  · rw [powerOnTx_obs]; simp [lineWf]
  · intro c; cases c <;> simp [sendOk, State.send]

theorem powerOnRx_ok {s : State} (hs : s.Ok) : (powerOnRx s).Ok := by
  unfold powerOnRx
  refine State.Ok.setOut (State.Ok.setFresh (State.Ok.setObs (State.Ok.setCrit (State.Ok.setMem
      (State.Ok.setRx hs (rxInitial_ok _) (fun h => nomatch h)) ?_) (fun _ => rfl)) ?_) _) _
  rotate_left
  · exact hs.line
  intro sp
  have d := hs.mem .rxBuf
  cases sp
  · exact hs.mem .inA
  · exact hs.mem .inB
  · exact hs.mem .outB
  · exact ⟨bankFree_wf (m := s.mem.rxBuf) d.1 _ _, bankFree_bound (m := s.mem.rxBuf) _ _ d.2 (le_refl _)⟩

end Sys2Proof.Machine
end

