-- ==== Sys2Proof/Tests/Slice0.lean ====
section
/-! SUPPORT. The model's own tests: what well-formedness and the decoder refuse, every operation's word
written out from the map of R120, vectors of spec/95_test_vectors.md (its illustrative table `T_ex`), and
for every obligation with hypotheses a concrete state that meets them. -/

namespace Sys2Proof.Tests

open Sys2Proof Sys2Proof.Machine

/-! ## Helpers -/

/-- `T_ex` of spec/95, an illustration and not the hardware's table. -/
def tableEx : Vector CodeWord 16 :=
  #v[0x0D, 0x0E, 0x13, 0x15, 0x16, 0x19, 0x1A, 0x1C, 0x23, 0x25, 0x26, 0x29, 0x2A, 0x2C, 0x32, 0x34]

/-- Parameters of the vectors: `T_ex`, `TMR_MAX` = 100, `B_PRE_BYTE` = 0x55. -/
def pEx : Params where
  nibTable := tableEx
  pTicks := 1
  durMax := 4
  bInCap := 16
  bOutCap := 19
  queueDepth := 100
  txPinA := 1
  txPinB := 2
  tmrMax := 100
  ok := by decide

/-- The machine after reset with those parameters. -/
def base : State := State.resetWith pEx

/-- What a step's next state holds. -/
def after {α : Type} (f : State → α) (o : StepOut State) : Option α :=
  match o with
  | .next t => some (f t)
  | .fault _ => none
  | .refused _ => none

/-- The results of a step. -/
def resultOf (o : StepOut State) : Option Result := after (·.out.result) o

/-- The refusal of a step. -/
def refusalOf (o : StepOut State) : Option Refusal :=
  match o with
  | .next _ => none
  | .fault _ => none
  | .refused r => some r

/-- `base` with receiver fields. -/
def rxBase (x : Rx) : State := base.setRx x

/-- `base` with the bytes of one space from index 0. -/
def withBytes (sp : Space) (bs : List Byte) (s : State) : State :=
  s.setMem (s.mem.setBank sp (bankWrite (s.mem.bank sp) 0 bs))

/-- A channel of the given state on pin 1, owned by caller `c` unless it is absent. -/
def chanOf (c : Chan) (st : ChState) (tx : Option Transmit) : Channel :=
  ⟨st, 38000, ⟨1, 3⟩, 1000, 100, 1, tx, if st = .absent then none else some c⟩

/-- Such a channel of caller `a`. -/
def chan (st : ChState) (tx : Option Transmit) : Channel := chanOf .a st tx

/-- The base state with a draw latched for caller `a`. -/
def drawn (f : Hw) (x : Channel) : State := (base.setCh .a x).setIssue ⟨.txCaller .a, f⟩

/-- A Protocol-B frame of one byte 0xAA in `OUT_B`. -/
def loadedAA : State := (withBytes .outB [0xAA] base).setPb ⟨.loaded, 1, 0, 0, 12, 0x55⟩

/-- Channel A transmits a payload of one byte for caller A. -/
def transmitting : State := base.setCh .a (chan .enabled (some ⟨.pa, 1, .a, false⟩))

/-! ## Well-formedness: an ill-formed term for each check -/

theorem test_wf_nibble : wellFormed pEx (.nibEnc 16) = false := by decide
theorem test_wf_pack_source_range : wellFormed pEx (.pack .inB 15 2 .outB 0 3) = false := by decide
theorem test_wf_pack_source_node : wellFormed pEx (.pack .rxBuf 0 2 .outB 0 3) = false := by decide
theorem test_wf_pack_dest_space : wellFormed pEx (.pack .inA 0 2 .inB 0 3) = false := by decide
theorem test_wf_pack_dest_range : wellFormed pEx (.pack .inA 0 2 .outB 17 3) = false := by decide
theorem test_wf_resume_payload : wellFormed pEx (.paResume 513 0) = false := by decide
theorem test_wf_resume_budget : wellFormed pEx (.paResume 1 101) = false := by decide
theorem test_wf_frame_input : wellFormed pEx (.pbFrame 17) = false := by decide
theorem test_wf_resume_b_budget : wellFormed pEx (.pbResume 101) = false := by decide
theorem test_wf_config_depth : wellFormed pEx (.chConfig .a 38000 ⟨1, 3⟩ 1 0 1) = false := by decide
theorem test_wf_transmit_payload : wellFormed pEx (.chTransmit .a .pa 513) = false := by decide
theorem test_wf_read_index : wellFormed pEx (.rxReadBuf 10) = false := by decide
theorem test_wf_limits : wellFormed pEx (.pack .inB 14 2 .outB 16 3) = true
    ∧ wellFormed pEx (.paResume 512 100) = true ∧ wellFormed pEx (.rxReadBuf 9) = true := by decide

/-! ## Every operation's word, bit by bit from R116 and R120 -/

theorem test_decode_nibEnc : decode [0b00000000] { Ports.idle with v := 9 } = .ok (.nibEnc 9) := rfl
theorem test_decode_pack2 :
    decode [0b00000001] { Ports.idle with b0 := 0x12, b1 := 0x34 } = .ok (.pack2 0x12 0x34) := rfl
theorem test_decode_pack :
    decode [0b00000010] { Ports.idle with src := .inB, src0 := 4, n := 2, dst0 := 16, dcap := 3 }
      = .ok (.pack .inB 4 2 .outB 16 3) := rfl
theorem test_decode_paReset : decode [0b00010000] Ports.idle = .ok .paReset := rfl
theorem test_decode_paResume :
    decode [0b00010001] { Ports.idle with len := 3, budget := 4 } = .ok (.paResume 3 4) := rfl
theorem test_decode_pbFrame : decode [0b00100000] { Ports.idle with n := 6 } = .ok (.pbFrame 6) := rfl
theorem test_decode_pbReset : decode [0b00100001] Ports.idle = .ok .pbReset := rfl
theorem test_decode_pbResume :
    decode [0b00100010] { Ports.idle with budget := 7 } = .ok (.pbResume 7) := rfl
theorem test_decode_chConfig :
    decode [0b00110000]
      { Ports.idle with c := .b, carrier := 5, duty := ⟨1, 3⟩, res := 6, depth := 64, pin := 8 }
      = .ok (.chConfig .b 5 ⟨1, 3⟩ 6 64 8) := rfl
theorem test_decode_chEnable :
    decode [0b00110001] { Ports.idle with c := .b } = .ok (.chEnable .b) := rfl
theorem test_decode_chTransmit :
    decode [0b00110010] { Ports.idle with c := .b, enc := .pb, len := 2 } = .ok (.chTransmit .b .pb 2) := rfl
theorem test_decode_chDisable :
    decode [0b00110011] { Ports.idle with c := .b } = .ok (.chDisable .b) := rfl
theorem test_decode_chDelete :
    decode [0b00110100] { Ports.idle with c := .b } = .ok (.chDelete .b) := rfl
theorem test_decode_rxReset : decode [0b01000000] Ports.idle = .ok .rxReset := rfl
theorem test_decode_rxTick : decode [0b01000001] Ports.idle = .ok .rxTick := rfl
theorem test_decode_rxFall : decode [0b01000010] Ports.idle = .ok .rxFall := rfl
theorem test_decode_rxRise : decode [0b01000011] Ports.idle = .ok .rxRise := rfl
theorem test_decode_rxOvf : decode [0b01000100] Ports.idle = .ok .rxOvf := rfl
theorem test_decode_rxClaim : decode [0b01010000] Ports.idle = .ok .rxClaim := rfl
theorem test_decode_rxReadLen : decode [0b01010001] Ports.idle = .ok .rxReadLen := rfl
theorem test_decode_rxReadBuf :
    decode [0b01010010] { Ports.idle with i := 3 } = .ok (.rxReadBuf 3) := rfl
theorem test_decode_rxClearLen : decode [0b01010011] Ports.idle = .ok .rxClearLen := rfl
theorem test_decode_rxReadActive : decode [0b01010100] Ports.idle = .ok .rxReadActive := rfl

/-- The first unused word of each unit, and of each unit above the last, is refused (R118). -/
theorem test_decode_unused :
    ([0x03, 0x12, 0x23, 0x35, 0x45, 0x55, 0x60, 0xF0] : List Byte).all
      (fun w => match decode [w] Ports.idle with
        | .error e => e == .unusedWord w
        | .ok _ => false) = true := by decide

/-- The table's numbering: 23 words of 8 bits decode, the next one of unit 5 does not, and a word of two
bytes has no meaning (R119). -/
theorem test_table_words :
    decodeTableWord 8 0x42 = some .rxFall ∧ decodeTableWord 8 0x55 = none
      ∧ decodeTableWord 16 0x42 = none ∧ ((List.range 256).filter
        (fun w => (decodeTableWord 8 w).isSome)).length = 23 := by decide

/-! ## Vectors of spec/95 -/

theorem test_nib_enc : resultOf (exec (.nibEnc 1) base) = some (.code 0x0E) := by decide
theorem test_nib_enc_last : resultOf (exec (.nibEnc 15) base) = some (.code 0x34) := by decide

theorem test_pack2 : resultOf (exec (.pack2 0x12 0x34) base) = some (.group 0x39 0x35 0x56) := by decide
theorem test_pack2_order :
    resultOf (exec (.pack2 0x0F 0xF0) base) = some (.group 0x37 0x4D 0x0D) := by decide

theorem test_pack :
    after (fun t => (t.out.result, t.mem.outB))
      (exec (.pack .inA 0 4 .outB 0 6) (withBytes .inA [0x12, 0x34, 0x56, 0x78] base))
      = some (.packed .ok 6, [(0, 0x39), (1, 0x35), (2, 0x56), (3, 0x65), (4, 0xA7), (5, 0x23)]) := by
  decide
/-- An odd length is rejected before capacity is looked at; a word inside no `PB_FRAME` is listed for nobody. -/
theorem test_pack_stops :
    resultOf (exec (.pack .inA 0 3 .outB 0 0) base) = some (.packed .eAlign 0) ∧
    refusalOf (present (.op (.txCaller .b) 0x02 Ports.idle .ok) loadedAA) = some .wrongAgent := by decide

theorem test_pa_reset :
    after (·.pa) (exec .paReset (base.setPa ⟨.terminator, 3, 0, 0⟩)) = some ⟨.payload, 0, 0, 0⟩ := by
  decide

/-- The second call of payload `A5 FF`, budgets 7, 7, 7, and the last call of payload `80`. -/
theorem test_pa_resume :
    after (fun t => (t.out.result, t.pa))
      (exec (.paResume 2 7) ((withBytes .inA [0xA5, 0xFF] base).setPa ⟨.payload, 0, 7, 0⟩))
      = some (.pairs (List.replicate 7 ⟨.act, 1, .inact, 4⟩) .yielded, ⟨.payload, 1, 6, 0⟩) ∧
    after (fun t => (t.out.result, t.pa))
      (exec (.paResume 1 2) ((withBytes .inA [0x80] base).setPa ⟨.payload, 0, 7, 0⟩))
      = some (.pairs [⟨.act, 1, .inact, 4⟩, ⟨.act, 3, .inact, 1⟩] .complete, ⟨.payload, 0, 0, 0⟩) := by
  decide

/-- P1's resume step as its word in a transmit: the pairs go out on the pin with the channel's carrier, and
where the step draws `E_HW` the transmit is over with nothing sent. -/
theorem test_pa_resume_in_transmit :
    after (fun t => lineGet t.obs.line 1)
      (present (.op .txPeriph 0x11 { Ports.idle with len := 1, budget := 2 } .ok)
        (withBytes .inA [0x01] transmitting))
      = some [⟨⟨.act, 1, .inact, 4⟩, 1000, 38000, ⟨1, 3⟩⟩, ⟨⟨.act, 1, .inact, 1⟩, 1000, 38000, ⟨1, 3⟩⟩] ∧
    after (fun t => (t.out.result, t.chA.tx, t.obs.line))
      (present (.op .txPeriph 0x11 { Ports.idle with len := 1, budget := 2 } .eHw) transmitting)
      = some (.status .eHw, none, []) := by
  decide

/-- R195's example; the start symbol is verbatim. -/
theorem test_pb_frame :
    after (fun t => (t.out.result, t.pb.len, (List.range 7).map fun j => t.mem.byteAt .outB (12 + j)))
      (exec (.pbFrame 6) (withBytes .inB [0xC0, 0xDE, 0x00, 0x01, 0x12, 0x34] base))
      = some (.status .ok, 19, [0xC0, 0xDE, 0x00, 0x01, 0x39, 0x35, 0x56]) := by decide
theorem test_pb_frame_odd :
    after (fun t => (t.out.result, t.mem.outB)) (exec (.pbFrame 5) base)
      = some (.status .eAlign, []) := by decide

theorem test_pb_reset :
    after (·.pb) (exec .pbReset (base.setPb ⟨.loaded, 19, 5, 3, 12, 0x55⟩))
      = some ⟨.empty, 0, 0, 0, 12, 0x55⟩ := by decide

theorem test_pb_resume :
    after (fun t => (t.out.result, t.pb.k)) (exec (.pbResume 3) loadedAA)
      = some (.pairs [⟨.inact, 1, .inact, 1⟩, ⟨.act, 1, .act, 1⟩, ⟨.inact, 1, .inact, 1⟩] .yielded, 3) := by
  decide
theorem test_pb_resume_last_pair :
    after (fun t => (t.out.result, t.pb.st))
      (exec (.pbResume 1) (loadedAA.setPb ⟨.loaded, 1, 0, 7, 12, 0x55⟩))
      = some (.pairs [⟨.act, 1, .act, 1⟩] .complete, .empty) := by decide

theorem test_ch_config :
    after (·.chA) (exec (.chConfig .a 38000 ⟨1, 3⟩ 1000 64 7) base)
      = some ⟨.disabled, 38000, ⟨1, 3⟩, 1000, 64, 7, none, some .a⟩ := by decide
theorem test_ch_config_fails :
    after (fun t => (t.out.result, t.chA.state))
      (exec (.chConfig .a 38000 ⟨1, 3⟩ 1000 64 7) (base.setIssue ⟨.txCaller .a, .eHw⟩))
      = some (.status .eHw, .absent) := by decide

theorem test_ch_enable_fails :
    after (fun t => (t.out.result, t.chA.state)) (exec (.chEnable .a) (drawn .eHw (chan .disabled none)))
      = some (.status .eHw, .disabled) := by decide
theorem test_ch_enable_absent : refusalOf (exec (.chEnable .a) base) = some .lifecycle := by decide

theorem test_ch_transmit_begins :
    after (·.chA.tx) (exec (.chTransmit .a .pa 1) (drawn .ok (chan .enabled none)))
      = some (some ⟨.pa, 1, .a, false⟩) := by decide
theorem test_ch_transmit_pin_conflict :
    (match exec (.chTransmit .b .pa 1)
        ((drawn .ok (chan .enabled (some ⟨.pa, 1, .a, false⟩))).setCh .b (chan .enabled none)) with
      | .fault f => f == .pinConflict
      | .next _ => false
      | .refused _ => false) = true := by decide

theorem test_ch_disable_whatever_drawn :
    after (fun t => (t.out.result, t.chA.state)) (exec (.chDisable .a) (drawn .eHw (chan .enabled none)))
      = some (.status .eHw, .disabled) := by decide
theorem test_ch_disable_no_draw :
    after (fun t => (t.out.result, t.chA.state)) (exec (.chDisable .a) (drawn .eHw (chan .disabled none)))
      = some (.status .ok, .disabled) := by decide

/-- A pin rests at `INACT` but during a transmission on it (R269). -/
theorem test_rest_level :
    restLevel base 1 = some .inact ∧ restLevel transmitting 1 = none
      ∧ restLevel transmitting 2 = some .inact := by decide

theorem test_ch_delete_whatever_drawn :
    after (fun t => (t.out.result, t.chA.state)) (exec (.chDelete .a) (drawn .eHw (chan .disabled none)))
      = some (.status .eHw, .absent) := by decide

theorem test_rx_reset :
    after (·.rx) (exec .rxReset (rxBase ⟨9, true, 2, 0xFF, 3, 4, 5, true, true⟩)) = some rxInitial := by
  decide

theorem test_rx_tick_wraps :
    after (·.rx) (exec .rxTick (rxBase { rxInitial with tmr := 100 }))
      = some { rxInitial with ovfPend := true } := by decide
theorem test_rx_tick_keeps_pending :
    after (·.rx) (exec .rxTick (rxBase { rxInitial with tmr := 2, ovfPend := true }))
      = some { rxInitial with tmr := 3, ovfPend := true } := by decide

theorem test_rx_fall_threshold :
    after (·.rx.rxByte) (exec .rxFall (rxBase { rxInitial with ref := 2, tmr := 4 })) = some 0
      ∧ after (·.rx.rxByte) (exec .rxFall (rxBase { rxInitial with ref := 2, tmr := 8 })) = some 1 := by
  decide
theorem test_rx_fall_stores :
    after (fun t => (t.rx, t.mem.rxBuf))
      (exec .rxFall (rxBase { rxInitial with ref := 3, tmr := 7, rxBits := 7, rxByte := 0x25 }))
      = some ({ rxInitial with ref := 3, rxIdx := 1, commActive := true }, [(0, 0xA5)]) := by decide

theorem test_rx_rise_threshold :
    after (·.rx) (exec .rxRise (rxBase { rxInitial with ref := 3, tmr := 6 }))
      = some { rxInitial with ref := 6 } := by decide
theorem test_rx_rise_seals :
    after (·.rx) (exec .rxRise (rxBase { rxInitial with ref := 3, tmr := 7, rxIdx := 2, rxBits := 3 }))
      = some { rxInitial with ref := 3, rxBufLen := 2 } := by decide

theorem test_rx_ovf :
    after (·.rx) (exec .rxOvf (rxBase ⟨12, true, 3, 0, 0, 0, 1, true, false⟩))
      = some { rxInitial with tmr := 12, rxBufLen := 1 } := by decide
theorem test_rx_ovf_booted :
    after (·.rx) (exec .rxOvf (rxBase ⟨12, true, 3, 0, 0, 0, 0, true, true⟩))
      = some ⟨12, false, 3, 0, 0, 0, 0, true, true⟩ := by decide

/-- An overflow pending at a processed edge. -/
def edgePending : State := rxBase { rxInitial with ovfPend := true }

/-- `RXBUF` holds A5 and a frame of one byte is sealed. -/
def sealedA5 : State := (withBytes .rxBuf [0xA5] base).setRx { rxInitial with rxBufLen := 1 }

theorem test_rx_claim :
    after (fun t => (t.out.result, t.rx.rxBufLen)) (exec .rxClaim sealedA5)
      = some (.claimed 1 [0xA5], 0) := by decide
theorem test_rx_claim_empty : resultOf (exec .rxClaim base) = some (.claimed 0 []) := by decide
theorem test_rx_read_len : resultOf (exec .rxReadLen sealedA5) = some (.len 1) := by decide
theorem test_rx_read_buf : resultOf (exec (.rxReadBuf 0) sealedA5) = some (.byte 0xA5) := by decide
theorem test_rx_read_buf_refused :
    refusalOf (exec (.rxReadBuf 10) sealedA5) = some .operandRange := by decide
theorem test_rx_clear_len : after (·.rx.rxBufLen) (exec .rxClearLen sealedA5) = some 0 := by decide
theorem test_rx_read_active :
    resultOf (exec .rxReadActive (rxBase { rxInitial with commActive := true })) = some (.active true) := by
  decide

/-- The leftover reference of R345: a falling edge straight after a claimed frame decodes a spurious bit
(the gap of 2 ticks is a 0). -/
theorem test_leftover_reference :
    after (·.rx.rxBits) (exec .rxFall (rxBase { rxInitial with ref := 2, tmr := 2 })) = some 1 := by decide

/-- Status numbers and the warning mask of R301. -/
theorem test_codes :
    [Status.ok, .eCapacity, .eAlign, .eHw].map Status.code = [0, 1, 2, 3]
      ∧ [ResumeStatus.complete, .yielded].map ResumeStatus.code = [0, 1]
      ∧ Warn.mask ⟨true, false⟩ = 0b01 ∧ Warn.mask ⟨false, true⟩ = 0b10 := by decide

/-- A presented word is what the next step runs, from reset. -/
theorem test_fetch :
    after (·.rx.tmr) (step (base.withFetchWord 8 0x41)) = some 1 := by decide

/-- The memory of the reset state is in canonical form. -/
theorem test_reset_memory : Memory.wf State.reset.mem := by
  refine ⟨?_, ?_, ?_, ?_⟩ <;> exact ⟨List.Pairwise.nil, by simp [State.reset, State.resetWith]⟩

/-! ## Witnesses: a state and operands that meet the hypotheses of each obligation, clause by clause -/

/-- The base state is safe. -/
theorem base_ok : base.Ok where
  pa := ⟨rfl, by decide⟩
  pb := ⟨fun _ => ⟨rfl, rfl, rfl⟩, fun h => by cases h⟩
  chan := by
    intro c
    have hs : (base.ch c).state = .absent ∧ (base.ch c).tx = none := by cases c <;> exact ⟨rfl, rfl⟩
    refine ⟨?_, fun h => absurd hs.1 h, ?_, ?_⟩
    · simp [Channel.busy, hs.2]
    · simp [hs.2]
    · cases c <;> decide
  pins := fun h => by cases h
  rx := ⟨by decide, by decide, by decide, by decide, by decide, by decide, by decide⟩
  crit := fun h => by cases h
  mem := by
    intro sp
    have hb : base.mem.bank sp = [] := by cases sp <;> rfl
    simp [Memory.SpaceOk, hb, Bank.wf]
  line := ⟨List.Pairwise.nil, by decide⟩
  sends := by
    intro c x hx
    cases c <;> cases hx

/-- The base state with an operation word presented. -/
def presented (ag : Agent) (w : Byte) (s : State) : State := s.setEvents [.op ag w Ports.idle .ok]

theorem witness_unused_word :
    (0x55 : Byte) ∉ ([0x00, 0x01, 0x02, 0x10, 0x11, 0x20, 0x21, 0x22, 0x30, 0x31, 0x32, 0x33, 0x34, 0x40,
      0x41, 0x42, 0x43, 0x44, 0x50, 0x51, 0x52, 0x53, 0x54] : List Byte) ∧
    (presented .env 0x55 base).events = .op .env 0x55 Ports.idle .ok :: [] := by decide

theorem witness_operands_out_of_range :
    15 < 16 ∧ 10 ≤ 10 ∧ base.params.queueDepth < 101 ∧ 512 < 513 ∧ base.params.bInCap < 17 ∧
    spaceSize base.params .inB < 15 + 2 ∧ spaceSize base.params .inB < 17 + 0 ∧ base.params.bOutCap < 17 + 3 := by decide

theorem witness_step_runs_handler :
    (presented .rxIsr 0x42 base).events = .op .rxIsr 0x42 Ports.idle .ok :: [] ∧
    decode [0x42] Ports.idle = .ok .rxFall ∧ mayIssue .rxIsr .rxFall = true ∧
    agentBlocked (presented .rxIsr 0x42 base) .rxIsr = false ∧
    (0x42 : Byte) ≠ 0x02 ∧ (presented .rxIsr 0x42 base).crit = false := ⟨rfl, rfl, rfl, rfl, by decide, rfl⟩

theorem witness_step_runs_caller :
    (presented (.txCaller .b) 0x20 base).events = .op (.txCaller .b) 0x20 Ports.idle .ok :: [] ∧
    decode [0x20] Ports.idle = .ok (.pbFrame 0) ∧ mayIssue (.txCaller .b) (.pbFrame 0) = true ∧
    agentBlocked (presented (.txCaller .b) 0x20 base) (.txCaller .b) = false ∧
    (presented (.txCaller .b) 0x02 base).pb.st = .empty ∧ Agent.txCaller .b ≠ .rxIsr :=
  ⟨rfl, rfl, rfl, rfl, rfl, by decide⟩

theorem witness_unlisted_agents :
    (∀ ag w, (presented ag w base).events = .op ag w Ports.idle .ok :: []) ∧
    (0x02 : Byte) ∈ ([0x02, 0x20, 0x30, 0x31, 0x32, 0x33, 0x34] : List Byte) ∧
    (∀ c, Agent.txPeriph ≠ .txCaller c) ∧
    (0x10 : Byte) ∈ ([0x10, 0x21] : List Byte) ∧ Agent.env ≠ .txPeriph ∧ (∀ c, Agent.env ≠ .txCaller c) ∧
    (0x22 : Byte) ∈ ([0x11, 0x22] : List Byte) ∧ Agent.txCaller .a ≠ .txPeriph ∧
    Agent.rxIsr ≠ .rxMain ∧ Agent.rxIsr ≠ .nodeReset ∧ Agent.rxIsr ≠ .env ∧
    (0x44 : Byte) ∈ ([0x42, 0x43, 0x44] : List Byte) ∧ Agent.rxMain ≠ .rxIsr ∧
    (0x54 : Byte) ∈ ([0x50, 0x51, 0x52, 0x53, 0x54] : List Byte) ∧
    (presented (.txCaller .b) 0x02 loadedAA).pb.st = .loaded ∧
    agentBlocked (presented (.txCaller .b) 0x02 loadedAA) (.txCaller .b) = false :=
  ⟨fun _ _ => rfl, by decide, by simp, by decide, by decide, by simp, by decide, by decide, by decide, by decide,
    by decide, by decide, by decide, by decide, by decide, by decide⟩

theorem witness_transmitting_caller :
    (transmitting.ch .a).tx = some ⟨.pa, 1, .a, false⟩ ∧
    (presented (.txCaller .a) 0x00 transmitting).events = .op (.txCaller .a) 0x00 Ports.idle .ok :: [] ∧
    (0x00 : Byte) ∈ ([0x00, 0x01, 0x02, 0x10, 0x20, 0x21, 0x30, 0x31, 0x32, 0x33, 0x34] : List Byte) ∧
    ((presented (.txCaller .a) 0x00 transmitting).ch .a).tx = some ⟨.pa, 1, .a, false⟩ := by decide

theorem witness_critical_section :
    ((0x44, .rxOvf) : Byte × Instr) ∈ ([(0x42, .rxFall), (0x43, .rxRise), (0x44, .rxOvf)] :
      List (Byte × Instr)) ∧
    ((base.setCrit true).setEvents [.critEnd, .op .rxIsr 0x44 Ports.idle .ok]).rx.booted = false ∧
    ((base.setCrit true).setEvents [.critEnd, .op .rxIsr 0x44 Ports.idle .ok]).crit = true ∧
    ((base.setCrit true).setEvents [.critEnd, .op .rxIsr 0x44 Ports.idle .ok]).events
      = .critEnd :: .op .rxIsr 0x44 Ports.idle .ok :: [] := by decide

theorem witness_critical_section_masks_no_other :
    (∀ w ports f, Event.txEnd .a .ok ≠ .op .rxIsr w ports f) ∧ Event.txEnd .a .ok ≠ .critBegin ∧
    Event.txEnd .a .ok ≠ .critEnd ∧ Event.txEnd .a .ok ≠ .powerOn .receiving :=
  ⟨nofun, nofun, nofun, nofun⟩

theorem witness_nibbles : 15 < 16 ∧ 0 < 16 ∧ ¬ 16 < 16 := by decide

/-- `OUT_B` is in canonical form and in range in the base state. -/
theorem base_outB : base.mem.SpaceOk base.params .outB := base_ok.mem .outB

theorem witness_pack :
    wellFormed base.params (.pack .inA 510 2 .outB 16 3) = true ∧ base.mem.SpaceOk base.params .outB ∧
    2 % 2 = 0 ∧ 3 * (2 / 2) ≤ 3 ∧ Space.inA ≠ Space.outB :=
  ⟨by decide, base_outB, by decide, by decide, by decide⟩

theorem witness_pack_overlapping :
    wellFormed base.params (.pack .outB 0 4 .outB 1 6) = true ∧ base.mem.SpaceOk base.params .outB ∧
    4 % 2 = 0 ∧ 3 * (4 / 2) ≤ 6 :=
  ⟨by decide, base_outB, by decide, by decide⟩

theorem witness_pack_empty :
    wellFormed base.params (.pack .inB 16 0 .outB 19 0) = true ∧ base.mem.SpaceOk base.params .outB ∧
    0 % 2 = 0 ∧ 3 * (0 / 2) ≤ 0 :=
  ⟨by decide, base_outB, by decide, by decide⟩

theorem witness_pack_rejected :
    wellFormed base.params (.pack .inA 0 3 .outB 0 0) = true ∧ 3 % 2 = 1 ∧
    wellFormed base.params (.pack .inA 0 4 .outB 0 5) = true ∧ 4 % 2 = 0 ∧ 5 < 3 * (4 / 2) ∧
    base.mem.SpaceOk base.params .outB ∧ Space.inB ≠ .outB :=
  ⟨by decide, by decide, by decide, by decide, by decide, base_outB, by decide⟩

theorem witness_pa_resume_limits :
    512 ≤ 512 ∧ 100 ≤ base.params.queueDepth ∧ 0 ≤ base.params.queueDepth := by decide

/-- Both statuses of `PA_RESUME` occur: a budget of exactly the pairs left completes, one less yields. -/
theorem witness_pa_resume_statuses :
    resultOf (exec (.paResume 0 1) base) = some (.pairs [⟨.act, 3, .inact, 1⟩] .complete) ∧
    resultOf (exec (.paResume 0 0) base) = some (.pairs [] .yielded) := by decide

/-- No transmit is in progress in the base state. -/
theorem base_noneAwaits (e : Enc) : noneAwaits base e := by
  intro c t h
  cases c <;> cases h

/-- The transmit of channel A waits for pairs of `PA`. -/
theorem transmitting_awaits : awaits transmitting .a ⟨.pa, 1, .a, false⟩ .pa :=
  ⟨rfl, rfl, rfl, nofun⟩

theorem witness_pa_resume :
    noneAwaits base .pa ∧ awaits transmitting .a ⟨.pa, 1, .a, false⟩ .pa ∧
    (transmitting.setIssue ⟨.txPeriph, .ok⟩).issue.f = .ok ∧
    (transmitting.setIssue ⟨.txPeriph, .eHw⟩).issue.f = .eHw ∧ 100 ≤ (transmitting.ch .a).depth ∧
    ((transmitting.setCh .a { transmitting.chA with depth := 1 }).ch .a).depth < 2 ∧
    lineWf transmitting.obs.line ∧
    awaits (transmitting.setCh .b (chanOf .b .enabled (some ⟨.pa, 1, .b, false⟩))) .a ⟨.pa, 1, .a, false⟩ .pa :=
  ⟨base_noneAwaits _, transmitting_awaits, rfl, rfl, by decide, by decide, base_ok.line, rfl, rfl, rfl, nofun⟩

theorem witness_pa_resumption :
    1 ≤ 512 ∧ (∀ b ∈ [4, 0, 5], b ≤ base.params.queueDepth) ∧ base.pa = ⟨.payload, 0, 0, 0⟩ ∧
    noneAwaits base .pa :=
  ⟨by decide, by decide, rfl, base_noneAwaits _⟩

theorem witness_pa_between :
    base.pa.Between 0 ∧ (PaSession.mk .terminator 1 0 0).Between 1 ∧
    (PaSession.mk .payload 511 7 0).Between 512 := by
  refine ⟨⟨?_, ?_, ?_⟩, ⟨?_, ?_, ?_⟩, ⟨?_, ?_, ?_⟩⟩ <;> decide

theorem witness_durations :
    symT pEx ∈ streamA pEx base.mem 0 ++ streamB pEx base.mem 1 ∧
    bsym0 pEx ∈ streamA pEx base.mem 0 ++ streamB pEx base.mem 1 := by decide

theorem witness_pb_frame :
    base.pb.st = .empty ∧ base.mem.SpaceOk base.params .outB ∧
    (4 ≤ base.params.bInCap ∧ 4 ≤ 4 ∧ (4 - 4) % 2 = 0 ∧
      base.pb.npre + 4 + 3 * ((4 - 4) / 2) ≤ base.params.bOutCap) ∧
    (6 ≤ base.params.bInCap ∧ 4 ≤ 6 ∧ (6 - 4) % 2 = 0 ∧
      base.pb.npre + 4 + 3 * ((6 - 4) / 2) ≤ base.params.bOutCap) :=
  ⟨rfl, base_outB, by decide, by decide⟩

theorem witness_pb_frame_rejected :
    loadedAA.pb.st = .loaded ∧ base.pb.st = .empty ∧ 3 ≤ base.params.bInCap ∧ 3 < 4 ∧
    16 ≤ base.params.bInCap ∧ (5 - 4) % 2 = 1 ∧ (8 - 4) % 2 = 0 ∧
    base.params.bOutCap < base.pb.npre + 4 + 3 * ((8 - 4) / 2) := by decide

/-- Channel B transmits a loaded frame of one byte. -/
def sendingB : State := loadedAA.setCh .b (chanOf .b .enabled (some ⟨.pb, 0, .b, false⟩))

theorem witness_pb_resume :
    100 ≤ loadedAA.params.queueDepth ∧ loadedAA.pb.len ≤ loadedAA.params.bOutCap ∧
    resultOf (exec (.pbResume 0) base) = some (.pairs [] .complete) ∧ noneAwaits loadedAA .pb ∧
    awaits sendingB .b ⟨.pb, 0, .b, false⟩ .pb ∧ 100 ≤ (sendingB.ch .b).depth ∧
    lineWf sendingB.obs.line :=
  ⟨by decide, by decide, by decide, base_noneAwaits _, ⟨rfl, rfl, rfl, nofun⟩, by decide, base_ok.line⟩

theorem witness_pb_resumption :
    loadedAA.pb.st = .loaded ∧ 0 < loadedAA.pb.len ∧ loadedAA.pb.len ≤ loadedAA.params.bOutCap ∧
    loadedAA.pb.bi = 0 ∧ loadedAA.pb.k = 0 ∧ (∀ b ∈ [3, 0, 5], b ≤ loadedAA.params.queueDepth) ∧
    noneAwaits loadedAA .pb :=
  ⟨by decide, by decide, by decide, by decide, by decide, by decide, base_noneAwaits _⟩

theorem witness_fair_budgets :
    (∀ k, k % 2 ≤ base.params.queueDepth) ∧ (∀ m : Nat, ∃ k, m ≤ k ∧ 1 ≤ k % 2) ∧ 512 ≤ 512 ∧
    base.pa = ⟨.payload, 0, 0, 0⟩ ∧ (∀ k, k % 2 ≤ loadedAA.params.queueDepth) ∧
    loadedAA.pb.st = .loaded ∧ 0 < loadedAA.pb.len ∧ loadedAA.pb.len ≤ loadedAA.params.bOutCap ∧
    loadedAA.pb.bi = 0 ∧ loadedAA.pb.k = 0 ∧ noneAwaits base .pa ∧ noneAwaits loadedAA .pb :=
  ⟨fun k => by show k % 2 ≤ 100; omega, fun m => ⟨2 * m + 1, by omega, by omega⟩, by decide, rfl,
    fun k => by show k % 2 ≤ 100; omega, by decide, by decide, by decide, by decide, by decide,
    base_noneAwaits _, base_noneAwaits _⟩

theorem witness_ch_config :
    (base.setIssue ⟨.txCaller .b, .ok⟩).issue = ⟨.txCaller .b, .ok⟩ ∧
    1 ≤ 1 ∧ (base.ch .a).state = .absent ∧
    (base.setIssue ⟨.txCaller .a, .eHw⟩).issue.f = .eHw ∧
    ((drawn .ok (chan .disabled none)).ch .a).state ≠ .absent := by decide

theorem witness_ch_enable :
    ((drawn .ok (chan .disabled none)).ch .a).state = .disabled ∧
    (drawn .ok (chan .disabled none)).issue.f = .ok ∧ (drawn .eHw (chan .disabled none)).issue.f = .eHw ∧
    (base.ch .a).state ≠ .disabled := by decide

/-- Both channels enabled on one pin, a frame loaded, an operation of caller A latched. -/
def bothEnabled (txb : Option Transmit) : State :=
  ((loadedAA.setCh .a (chan .enabled none)).setCh .b (chanOf .b .enabled txb)).setIssue ⟨.txCaller .a, .ok⟩

theorem witness_ch_transmit :
    (bothEnabled none).issue.agent = .txCaller .a ∧ 512 ≤ 512 ∧
    ((bothEnabled none).ch .a).state = .enabled ∧ ((bothEnabled none).ch .a).busy = false ∧
    (bothEnabled none).pb.st = .loaded ∧ ((bothEnabled none).ch .b).busy = false ∧
    ((bothEnabled (some ⟨.pa, 1, .b, false⟩)).ch .b).busy = true ∧
    ((bothEnabled (some ⟨.pa, 1, .b, false⟩)).ch .b).pin
      = ((bothEnabled (some ⟨.pa, 1, .b, false⟩)).ch .a).pin := by decide

theorem witness_ch_transmit_refused :
    ((drawn .ok (chan .disabled none)).ch .a).state ≠ .enabled ∧
    ((drawn .ok (chan .enabled (some ⟨.pa, 1, .a, false⟩))).ch .a).busy = true ∧
    (drawn .ok (chan .enabled none)).issue.agent = .txCaller .a ∧
    ((drawn .ok (chan .enabled none)).ch .a).state = .enabled ∧
    ((drawn .ok (chan .enabled none)).ch .a).busy = false ∧
    (drawn .ok (chan .enabled none)).pb.st = .empty := by decide

theorem witness_ch_disable :
    ((drawn .ok (chan .enabled none)).ch .a).state = .enabled ∧
    ((drawn .ok (chan .enabled none)).ch .a).busy = false ∧
    ((drawn .ok (chan .disabled none)).ch .a).state = .disabled ∧
    ((drawn .ok (chan .disabled none)).ch .a).busy = false ∧ (base.ch .a).state = .absent ∧
    (transmitting.ch .a).state ≠ .absent ∧ (transmitting.ch .a).busy = true := by decide

theorem witness_ch_delete :
    ((drawn .ok (chan .disabled none)).ch .a).state = .disabled ∧
    ((drawn .ok (chan .enabled none)).ch .a).state ≠ .disabled := by decide

theorem witness_transmit_stream_a :
    lineWf transmitting.obs.line ∧ (transmitting.ch .a).tx = some ⟨.pa, 1, .a, false⟩ ∧
    (∀ b ∈ [4, 5], b ≤ (transmitting.ch .a).depth ∧ b ≤ transmitting.params.queueDepth) ∧ 1 ≤ 512 ∧
    transmitting.pa = ⟨.payload, 0, 0, 0⟩ ∧ [4, 5].dropLast.sum < 8 * 1 + 1 :=
  ⟨base_ok.line, rfl, by decide, by decide, rfl, by decide⟩

theorem witness_transmit_stream_b :
    lineWf sendingB.obs.line ∧ (sendingB.ch .b).tx = some ⟨.pb, 0, .b, false⟩ ∧
    (∀ b ∈ [8], b ≤ (sendingB.ch .b).depth ∧ b ≤ sendingB.params.queueDepth) ∧
    0 < sendingB.pb.len ∧ sendingB.pb.len ≤ sendingB.params.bOutCap ∧ sendingB.pb.bi = 0 ∧
    sendingB.pb.k = 0 ∧ [8].dropLast.sum < 8 * sendingB.pb.len :=
  ⟨base_ok.line, rfl, by decide, by decide, by decide, rfl, rfl, by decide⟩

theorem witness_transmit_end :
    (transmitting.ch .a).tx = some ⟨.pa, 1, .a, false⟩ ∧ (transmitting.ch .b).busy = false ∧
    ((base.setCh .a (chan .enabled (some ⟨.pa, 1, .a, true⟩))).ch .a).tx
      = some ⟨.pa, 1, .a, true⟩ := by decide

theorem witness_source_read :
    callerBlocked base .b = false ∧ base.mem.SpaceOk base.params (inputSpace .b) ∧
    15 < spaceSize base.params (inputSpace .b) ∧ 15 < (List.replicate 17 (0x5A : Byte)).length ∧
    min (List.replicate 17 (0x5A : Byte)).length (spaceSize base.params (inputSpace .b)) ≤ 16 :=
  ⟨by decide, base_ok.mem .inB, by decide, by decide, by decide⟩

/-- A send of caller `c` at a stage, its channel in a state. -/
def sending (c : Chan) (stage : SendStage) (st : ChState) : State :=
  (base.setCh c (chanOf c st none)).setSend c (some ⟨stage, 4, ⟨false, false⟩, false, .beforeTransmit⟩)

/-- Nothing keeps such a send from its next step. -/
theorem sending_free (c : Chan) (stage : SendStage) (st : ChState) : freeToSend (sending c stage st) c := by
  intro d t h
  cases c <;> cases d <;> cases h

/-- A send of caller A that its transmit blocks. -/
def blockedA (staged : Bool) : State :=
  (base.setCh .a (chan .enabled (some ⟨.pa, 4, .a, staged⟩))).setSend .a
    (some ⟨.blocked, 4, ⟨false, false⟩, false, .beforeConfig⟩)

theorem witness_send_release :
    (blockedA true).send .a = some ⟨.blocked, 4, ⟨false, false⟩, false, .beforeConfig⟩ ∧
    ((blockedA true).ch .a).tx = some ⟨.pa, 4, .a, true⟩ ∧
    ((blockedA false).ch .a).tx = some ⟨.pa, 4, .a, false⟩ ∧ freeToSend (sending .a .disable .enabled) .a ∧
    (sending .a .disable .enabled).send .a = some ⟨.disable, 4, ⟨false, false⟩, false, .beforeTransmit⟩ ∧
    ((sending .a .disable .enabled).ch .a).state ≠ .absent ∧
    ((sending .a .disable .enabled).ch .a).busy = false ∧ freeToSend (sending .b .enable .disabled) .b ∧
    (sending .b .enable .disabled).send .b = some ⟨.enable, 4, ⟨false, false⟩, false, .beforeTransmit⟩ ∧
    ((sending .b .enable .disabled).ch .b).state = .disabled ∧ freeToSend (sending .a .config .absent) .a ∧
    (sending .a .config .absent).send .a = some ⟨.config, 4, ⟨false, false⟩, false, .beforeTransmit⟩ ∧
    ((sending .a .config .absent).ch .a).state = .absent :=
  ⟨rfl, rfl, rfl, sending_free _ _ _, rfl, by decide, rfl, sending_free _ _ _, rfl, rfl, sending_free _ _ _,
    rfl, rfl⟩

theorem witness_send_configures :
    freeToSend (sending .b .config .absent) .b ∧ ((sending .b .config .absent).ch .b).state = .absent ∧
    freeToSend (sending .a .enable .disabled) .a ∧ ((sending .a .enable .disabled).ch .a).state = .disabled ∧
    freeToSend (sending .a .prepare .enabled) .a ∧ freeToSend (sending .a .transmit .enabled) .a ∧
    (sending .a .transmit .enabled).send .a = some ⟨.transmit, 4, ⟨false, false⟩, false, .beforeTransmit⟩ ∧
    4 ≤ 512 ∧ ((sending .a .transmit .enabled).ch .a).state = .enabled ∧
    ((sending .a .transmit .enabled).ch .a).busy = false ∧
    ¬ (((sending .a .transmit .enabled).ch .b).busy = true ∧
      ((sending .a .transmit .enabled).ch .b).pin = ((sending .a .transmit .enabled).ch .a).pin) :=
  ⟨sending_free _ _ _, rfl, sending_free _ _ _, rfl, sending_free _ _ _, sending_free _ _ _, rfl, by decide, rfl,
    rfl, by decide⟩

/-- Caller B owns both channels, and with them both sessions, in the middle of a loaded frame. -/
def ownedByB : State :=
  (loadedAA.setCh .a (chanOf .b .enabled none)).setCh .b (chanOf .b .enabled none)

theorem ownedByB_ok (c : Chan) : (ownedByB.ch c).Ok := by
  cases c <;> exact ⟨fun _ => rfl, fun _ => by decide, fun t h => (by cases h), by decide⟩

theorem witness_ownership_of_the_other :
    (ownedByB.ch .a).owner = some (Chan.other .a) ∧
    ownsSession ownedByB (Chan.other .a) .pa = true ∧ ownsSession ownedByB (Chan.other .a) .pb = true ∧
    WithinOwn ownedByB (.op (.txCaller .a) 0x00 Ports.idle .ok) ∧
    (∃ t, present (.op (.txCaller .a) 0x00 Ports.idle .ok) ownedByB = .next t) ∧
    WithinOwn (sending .a .config .absent) (.sendStep .a .ok) ∧ SinglyDriven (sending .a .config .absent) ∧
    ∃ t, present (.sendStep .a .ok) (sending .a .config .absent) = .next t := by
  refine ⟨rfl, rfl, rfl, ?_, ⟨_, rfl⟩, ?_, ?_, ⟨_, rfl⟩⟩
  · intro x i h
    cases x <;> cases h
    rfl
  · intro x i h
    cases x <;> cases h
    rfl
  · intro t u h
    cases h

/-- The resets are legal where the other caller owns the session, mid-frame, and for a send whose channel the
other caller has configured since. -/
theorem witness_resets_legal :
    (presented (.txCaller .a) 0x21 ownedByB).events = .op (.txCaller .a) 0x21 Ports.idle .ok :: [] ∧
    callerBlocked (presented (.txCaller .a) 0x21 ownedByB) .a = false ∧
    (presented (.txCaller .a) 0x10 ownedByB).events = .op (.txCaller .a) 0x10 Ports.idle .ok :: [] ∧
    callerBlocked (presented (.txCaller .a) 0x10 ownedByB) .a = false ∧
    ((sending .b .release .absent).setCh .b (chanOf .a .enabled none)).sendB
      = some ⟨.release, 4, ⟨false, false⟩, false, .beforeTransmit⟩ ∧
    freeToSend ((sending .b .release .absent).setCh .b (chanOf .a .enabled none)) .b :=
  ⟨rfl, rfl, rfl, rfl, rfl, fun d t h => by cases d <;> cases h⟩

/-- A `PB_SEND` about to frame `n` bytes. -/
def framing (n : Nat) (s : State) : State :=
  s.setSend .b (some ⟨.prepare, n, ⟨false, false⟩, false, .beforeConfig⟩)

/-- Nothing keeps it from doing so. -/
theorem framing_free (n : Nat) : freeToSend (framing n base) .b ∧ freeToSend (framing n loadedAA) .b := by
  refine ⟨fun d t h => ?_, fun d t h => ?_⟩ <;> cases d <;> cases h

theorem witness_pb_send_rejected :
    freeToSend (framing 3 base) .b ∧ freeToSend (framing 3 loadedAA) .b ∧
    (framing 3 base).sendB = some ⟨.prepare, 3, ⟨false, false⟩, false, .beforeConfig⟩ ∧
    (framing 3 base).pb.st = .empty ∧ (framing 3 loadedAA).pb.st = .loaded ∧
    3 ≤ base.params.bInCap ∧ 3 < 4 ∧ 5 ≤ base.params.bInCap ∧ (5 - 4) % 2 = 1 ∧
    8 ≤ base.params.bInCap ∧ base.params.bOutCap < base.pb.npre + 4 + 3 * ((8 - 4) / 2) :=
  ⟨(framing_free 3).1, (framing_free 3).2, rfl, rfl, rfl, by decide, by decide, by decide, by decide, by decide,
    by decide⟩

theorem witness_pa_send :
    base.Ok ∧ callerBlocked base .a = false ∧ base.chA.state = .absent ∧
    ¬ (base.chB.busy = true ∧ base.chB.pin = base.params.txPinA) ∧
    (∀ b ∈ [4, 5], b ≤ base.params.queueDepth) ∧
    [4, 5].dropLast.sum < 8 * min ([0x01] : List Byte).length 512 + 1 ∧
    8 * min ([0x01] : List Byte).length 512 + 1 ≤ [4, 5].sum :=
  ⟨base_ok, by decide, by decide, by decide, by decide, by decide, by decide⟩

/-- `PB_SEND` of R195's example, 19 bytes or 152 pairs, and of a start symbol alone. -/
theorem witness_pb_send :
    base.Ok ∧ callerBlocked base .b = false ∧ base.chB.state = .absent ∧
    base.pb.st = .empty ∧ ¬ (base.chA.busy = true ∧ base.chA.pin = base.params.txPinB) ∧
    min ([0xC0, 0xDE, 0x00, 0x01, 0x12, 0x34] : List Byte).length base.params.bInCap = 6 ∧
    (6 - 4) % 2 = 0 ∧ base.pb.npre + 4 + 3 * ((6 - 4) / 2) = 19 ∧ 19 ≤ base.params.bOutCap ∧
    (∀ b ∈ [100, 52], b ≤ base.params.queueDepth) ∧ [100, 52].dropLast.sum < 8 * 19 ∧
    8 * 19 ≤ [100, 52].sum ∧ base.pb.npre + 4 + 3 * ((4 - 4) / 2) ≤ base.params.bOutCap :=
  ⟨base_ok, by decide, by decide, rfl, by decide, by decide, by decide, by decide, by decide, by decide, by decide,
    by decide, by decide⟩

theorem witness_overflow_period :
    base.rx.tmr = 0 ∧ base.params.tmrMax < 101 ∧ edgePending.rx.tmr = 0 ∧
    edgePending.rx.ovfPend = true ∧ base.rx.booted = false ∧ base.rx.rxBufLen = 0 := by decide

theorem witness_falling_edge :
    base.rx.booted = false ∧ base.rx.rxBufLen = 0 ∧ base.mem.SpaceOk base.params .rxBuf ∧
    base.rx.ref = 0 ∧ (rxBase { rxInitial with ref := 1, rxBits := 6 }).rx.rxBits ≠ 7 ∧
    (rxBase { rxInitial with ref := 1, rxBits := 7, rxIdx := 9 }).rx.rxIdx < 10 ∧
    ¬ (rxBase { rxInitial with ref := 1, rxBits := 7, rxIdx := 10 }).rx.rxIdx < 10 :=
  ⟨rfl, rfl, base_ok.mem .rxBuf, rfl, by decide, by decide, by decide⟩

/-- The fifth byte of BOOT and one more: a pulse that only records is no jump. -/
theorem witness_rising_edge_records :
    (rxBase { rxInitial with ref := 3, tmr := 6, rxIdx := 4 }).rx.booted = false ∧
    (rxBase { rxInitial with ref := 3, tmr := 6, rxIdx := 4 }).rx.rxBufLen = 0 ∧
    ¬ ((rxBase { rxInitial with ref := 3, tmr := 6, rxIdx := 4 }).rx.ref ≠ 0 ∧
      2 * (rxBase { rxInitial with ref := 3, tmr := 6, rxIdx := 4 }).rx.ref
        < (rxBase { rxInitial with ref := 3, tmr := 6, rxIdx := 4 }).rx.tmr) := by decide

theorem witness_rising_edge :
    (rxBase { rxInitial with ref := 3, tmr := 7, rxIdx := 4 }).rx.ref ≠ 0 ∧
    2 * (rxBase { rxInitial with ref := 3, tmr := 7, rxIdx := 4 }).rx.ref
      < (rxBase { rxInitial with ref := 3, tmr := 7, rxIdx := 4 }).rx.tmr ∧
    (rxBase { rxInitial with ref := 3, tmr := 7, rxIdx := 4 }).rx.booted = false ∧
    (rxBase { rxInitial with ref := 3, tmr := 7, rxIdx := 4 }).rx.rxBufLen = 0 ∧
    (List.range 4).map ((rxBase { rxInitial with ref := 3, tmr := 7, rxIdx := 4 }).mem.byteAt .rxBuf)
      ≠ [0x42, 0x4F, 0x4F, 0x54] := by decide

/-- The four bytes of the boot command decoded, its terminator's pulse of 7 ticks just measured. -/
def bootSeal : State :=
  (withBytes .rxBuf bootCmd base).setRx { rxInitial with ref := 3, tmr := 7, rxIdx := 4 }

theorem witness_boot_command :
    bootSeal.rx.booted = false ∧ bootSeal.rx.rxBufLen = 0 ∧ bootSeal.rx.ref ≠ 0 ∧
    2 * bootSeal.rx.ref < bootSeal.rx.tmr ∧ bootSeal.rx.rxIdx = 4 ∧
    (List.range 4).map (bootSeal.mem.byteAt .rxBuf) = [0x42, 0x4F, 0x4F, 0x54] := by decide

/-- The jump counts once and strobes once. -/
theorem witness_boot_jump :
    after (fun t => (t.obs.nboot, t.out.bootJump, t.rx.booted)) (exec .rxRise bootSeal)
      = some (1, true, true) := by decide

/-- A node that has jumped, with an overflow pending. -/
def bootedPending : State := rxBase { rxInitial with booted := true, ovfPend := true }

/-- A frame awaits consumption, with an overflow pending. -/
def sealedPending : State := sealedA5.setRx { rxInitial with rxBufLen := 1, ovfPend := true }

theorem witness_booted : bootedPending.rx.booted = true ∧ bootedPending.rx.ovfPend = true ∧ 9 < 10 := by
  decide

theorem witness_back_pressure :
    sealedPending.rx.rxBufLen ≠ 0 ∧ sealedPending.rx.booted = false ∧ sealedPending.rx.ovfPend = true := by
  decide

theorem witness_overflow_handler :
    sealedPending.rx.booted = false ∧ sealedPending.rx.ovfPend = true ∧ base.rx.booted = false ∧
    base.rx.ovfPend = false := by decide

/-- `base` with bytes in `IN_A`. -/
def withInA (bs : List Byte) : State := withBytes .inA bs base

/-- It is safe for up to 512 bytes. -/
theorem withInA_ok (bs : List Byte) (h : bs.length ≤ 512) : (withInA bs).Ok :=
  base_ok.setMem (Memory.SpaceOk.setBank base_ok.mem (bankWrite_wf (base_ok.mem .inA).1 _ _)
    (bankWrite_bound _ _ (base_ok.mem .inA).2 (by simpa [spaceSize] using h)))

/-- A payload of 12 bytes, the boot command and an empty payload. -/
theorem witness_round_trip :
    base.Ok ∧ rxView base.rx = .idleArmed ∧ 1 ≤ 25 ∧ 4 * 25 ≤ base.params.tmrMax ∧ 12 ≤ 512 ∧ 0 ≤ 512 ∧
    (withInA bootCmd).Ok ∧ rxView (withInA bootCmd).rx = .idleArmed ∧ 4 ≤ 512 ∧
    (List.range 4).map ((withInA bootCmd).mem.byteAt .inA) = [0x42, 0x4F, 0x4F, 0x54] :=
  ⟨base_ok, by decide, by decide, by decide, by decide, by decide, withInA_ok _ (by decide), by decide, by decide,
    by decide⟩

/-- R244 with reference 3: a gap of 6 is still a 0, one of 7 a 1, a data pulse may be 6 after 3. -/
theorem witness_tolerance :
    base.Ok ∧ rxView base.rx = .idleArmed ∧
    tolerated base.params.tmrMax
      [(3, 7), (3, 6), (6, 13), (6, 12), (6, 1), (12, 25), (12, 0), (1, 100)] (bitsOf [0xA5]) 3 ∧
    ([0xA5] : List Byte) ≠ [0x42, 0x4F, 0x4F, 0x54] :=
  ⟨base_ok, by decide, by simp [tolerated, bitsOf, base, State.resetWith, pEx, List.range_succ], by decide⟩

/-- The boot command with every pulse of 3 ticks, and the empty payload. -/
theorem witness_tolerance_boot :
    tolerated base.params.tmrMax ((bitsOf bootCmd).map fun b => (3, if b then 12 else 3)) (bitsOf bootCmd) 9 ∧
    tolerated base.params.tmrMax [] (bitsOf []) 9 := by
  constructor
  · simp [tolerated, bitsOf, bootCmd, base, State.resetWith, pEx, List.range_succ]
  · simp [tolerated, bitsOf, base, State.resetWith, pEx]

theorem witness_claim :
    (rxBase { rxInitial with rxBufLen := 10 }).rx.booted = false ∧
    (rxBase { rxInitial with rxBufLen := 10 }).rx.rxBufLen ≤ 10 ∧ 9 < 10 := by decide

theorem witness_sealed_frame :
    (∃ t, exec .rxFall sealedA5 = .next t) ∧ (∃ t, exec .rxClaim sealedA5 = .next t) ∧
    sealedA5.rx.rxBufLen ≠ 0 := ⟨⟨_, rfl⟩, ⟨_, rfl⟩, by decide⟩

/-- Each way of R54 to change the length or the buffer occurs. -/
theorem witness_ownership :
    after (·.rx.rxBufLen) (exec .rxRise (rxBase { rxInitial with ref := 3, tmr := 7, rxIdx := 2 })) = some 2 ∧
    after (·.rx.rxBufLen) (exec .rxClaim sealedA5) = some 0 ∧
    after (·.mem.byteAt .rxBuf 0)
      (exec .rxFall (rxBase { rxInitial with ref := 3, tmr := 7, rxBits := 7, rxByte := 0x25 }))
      = some 0xA5 ∧ 5 ≤ (opUnit (opWord .rxClaim)).toNat := by decide

theorem witness_nodes :
    (∃ t, exec .rxFall base = .next t) ∧ isReceiver .rxFall = true ∧
    (∃ t, exec (.pbFrame 4) base = .next t) ∧ isReceiver (.pbFrame 4) = false :=
  ⟨⟨_, rfl⟩, by decide, ⟨_, rfl⟩, by decide⟩

theorem witness_safe_step : base.Ok ∧ ∃ t, step base = .next t := ⟨base_ok, _, rfl⟩

end Sys2Proof.Tests
end

section
/-! PROOFS of the family `00_scope`: the invariant `State.Ok` is kept by every step
(`EveryStepKeepsTheMachineSafe`), and no operation of one node writes a piece of the other's
(`NodesShareNoState`). First what each channel operation, `PACK` and `PB_FRAME` can answer, one inversion lemma
an operation; then the updates of a component that keep it in its range; then one lemma per kind of input. -/

namespace Sys2Proof.Machine

/-! ## What the channel operations can answer -/

/-- `CH_CONFIG` fails and changes nothing, or makes an absent channel a disabled one of its caller. -/
theorem execChConfig_next {c : Chan} {carrier : Nat} {duty : Duty} {res depth pin : Nat} {s t : State}
    (h : execChConfig c carrier duty res depth pin s = .next t) :
    1 ≤ depth ∧ (s.ch c).state = .absent ∧
      (s.issue.f = .eHw ∧ t = s.answer (.status .eHw) ∨
        s.issue.f = .ok ∧ t = (s.setCh c ⟨.disabled, carrier, duty, res, depth, pin, none,
          some (callerOf s.issue.agent c)⟩).answer (.status .ok)) := by
  obtain ⟨hw, h⟩ := withOperands_next.mp h
  refine ⟨by simpa [wellFormed] using hw, ?_⟩
  split at h
  · cases h
  next hs =>
    refine ⟨by simpa using hs, ?_⟩
    split at h <;> cases h
    next hf => exact .inl ⟨hf, rfl⟩
    next hf => exact .inr ⟨hf, rfl⟩

/-- `CH_ENABLE` fails and changes nothing, or makes a disabled channel an enabled one. -/
theorem execChEnable_next {c : Chan} {s t : State} (h : execChEnable c s = .next t) :
    (s.ch c).state = .disabled ∧
      (s.issue.f = .eHw ∧ t = s.answer (.status .eHw) ∨
        s.issue.f = .ok ∧ t = (s.setCh c { s.ch c with state := .enabled }).answer (.status .ok)) := by
  obtain ⟨-, h⟩ := withOperands_next.mp h
  split at h
  · cases h
  next hs =>
    refine ⟨by simpa using hs, ?_⟩
    split at h <;> cases h
    next hf => exact .inl ⟨hf, rfl⟩
    next hf => exact .inr ⟨hf, rfl⟩

/-- `CH_TRANSMIT` begins a transmit on an enabled, idle channel whose pin is free, of a frame that is loaded
where it drives `PB`. -/
theorem execChTransmit_next {c : Chan} {enc : Enc} {len : Nat} {s t : State}
    (h : execChTransmit c enc len s = .next t) :
    (enc = .pa → len ≤ aMaxPayload) ∧ (s.ch c).state = .enabled ∧ (s.ch c).busy = false ∧
      (enc = .pb → s.pb.st = .loaded) ∧ pinTaken s c = false ∧
      t = (s.setCh c { s.ch c with
        tx := some ⟨enc, len, callerOf s.issue.agent c, false⟩ }).answer .none := by
  obtain ⟨hw, h⟩ := withOperands_next.mp h
  have hlen : enc = .pa → len ≤ aMaxPayload := by
    rintro rfl
    simpa [wellFormed] using hw
  split at h
  · cases h
  next hs =>
    split at h
    · cases h
    next hb =>
      split at h
      · cases h
      next hl =>
        split at h
        · cases h
        next hp =>
          cases h
          exact ⟨hlen, by simpa using hs, by simpa using hb, by simpa using hl, by simpa using hp, rfl⟩

/-- `CH_DISABLE` leaves an idle channel that exists disabled: it was so already, or it becomes so. -/
theorem execChDisable_next {c : Chan} {s t : State} (h : execChDisable c s = .next t) :
    (s.ch c).state ≠ .absent ∧ (s.ch c).busy = false ∧
      ((s.ch c).state = .disabled ∧ t = s.answer (.status .ok) ∨
        (s.ch c).state = .enabled ∧ t = (s.setCh c { s.ch c with state := .disabled }).answer
          (.status (statusOfDraw s.issue.f))) := by
  obtain ⟨-, h⟩ := withOperands_next.mp h
  split at h
  · cases h
  next hs =>
    split at h
    · cases h
    next hb =>
      refine ⟨hs, by simpa using hb, ?_⟩
      split at h <;> cases h
      next hd => exact .inl ⟨hd, rfl⟩
      next hd => exact .inr ⟨by cases hst : (s.ch c).state <;> simp_all, rfl⟩

/-- `CH_DELETE` makes a disabled channel an absent one. -/
theorem execChDelete_next {c : Chan} {s t : State} (h : execChDelete c s = .next t) :
    (s.ch c).state = .disabled ∧
      t = ((s.setCh c (channelAbsent s.fresh)).setFresh (s.fresh + 1)).answer
        (.status (statusOfDraw s.issue.f)) := by
  obtain ⟨-, h⟩ := withOperands_next.mp h
  split at h
  · cases h
  next hs =>
    cases h
    exact ⟨by simpa using hs, rfl⟩

/-! ## What packing and framing can answer -/

/-- `PACK` answers with its ranges inside their spaces. -/
theorem execPack_next {src dst : Space} {src0 n dst0 dcap : Nat} {s t : State}
    (h : execPack src src0 n dst dst0 dcap s = .next t) :
    src0 + n ≤ spaceSize s.params src ∧ dst0 + dcap ≤ s.params.bOutCap ∧
      ∃ r, packRun s.params src src0 n dst0 dcap s.mem = some r ∧ t = packAnswer s r := by
  obtain ⟨hw, h⟩ := withOperands_next.mp h
  obtain ⟨r, hr, h⟩ := orOutOfRange_next.mp h
  simp only [wellFormed, Bool.and_eq_true, fits_iff] at hw
  obtain ⟨⟨⟨-, hsrc⟩, -⟩, hdst⟩ := hw
  cases h
  exact ⟨hsrc, hdst, r, hr, rfl⟩

/-- `PB_FRAME` with no frame loaded rejects its input, or frames an aligned input that fits. -/
theorem execPbFrame_next {n : Nat} {s t : State} (h : execPbFrame n s = .next t) :
    n ≤ s.params.bInCap ∧ s.pb.st ≠ .loaded ∧
      ((∃ st, st ≠ .ok ∧ t = (s.setPb (pbRejected s.pb)).answer (.status st)) ∨
        (4 ≤ n ∧ (n - 4) % 2 = 0 ∧ frameLen s.pb.npre n ≤ s.params.bOutCap ∧
          ∃ r, frameWrite s.params s.pb n s.mem = some r ∧ t = frameAnswer s n r)) := by
  obtain ⟨hw, h⟩ := withOperands_next.mp h
  refine ⟨by simpa [wellFormed] using hw, ?_⟩
  split at h
  · cases h
  next hl =>
    refine ⟨hl, ?_⟩
    split at h
    · cases h; exact .inl ⟨.eAlign, by simp, rfl⟩
    next h4 =>
      split at h
      · cases h; exact .inl ⟨.eAlign, by simp, rfl⟩
      next heven =>
        split at h
        · cases h; exact .inl ⟨.eCapacity, by simp, rfl⟩
        next hcap =>
          obtain ⟨r, hr, h⟩ := orOutOfRange_next.mp h
          cases h
          exact .inr ⟨by omega, by omega, by omega, r, hr, rfl⟩

/-! ## Channels -/

/-- A channel at rest may change its lifecycle state as long as it goes on existing. -/
theorem Channel.Ok.withState {x : Channel} (h : x.Ok) (hb : x.busy = false) (he : x.state ≠ .absent)
    {st : ChState} (hst : st ≠ .absent) : Channel.Ok { x with state := st } := by
  obtain ⟨-, hdepth, hlen, howner⟩ := h
  refine ⟨fun hx => ?_, fun _ => hdepth he, hlen, iff_of_false hst fun ho => he (howner.mpr ho)⟩
  rw [show Channel.busy { x with state := st } = x.busy from rfl, hb] at hx
  cases hx

theorem channelAbsent_ok (d : Nat) : (channelAbsent d).Ok := by
  simp [Channel.Ok, channelAbsent, Channel.busy]

/-- Replacing a channel at rest by one at rest keeps a state safe: neither pins nor waiting sends speak of
it. -/
theorem State.Ok.setCh_idle {s : State} (h : s.Ok) {c : Chan} (hb : (s.ch c).busy = false) {x : Channel}
    (hx : x.Ok) (hxb : x.busy = false) : (s.setCh c x).Ok :=
  h.setCh c hx (fun hbusy => by rw [hxb] at hbusy; cases hbusy)
    fun y hy hstage => absurd hstage (h.not_blocked hb y hy)

theorem execChConfig_ok {c : Chan} {carrier : Nat} {duty : Duty} {res depth pin : Nat} {s t : State}
    (hs : s.Ok) (h : execChConfig c carrier duty res depth pin s = .next t) : t.Ok := by
  obtain ⟨hdepth, habsent, ⟨-, rfl⟩ | ⟨-, rfl⟩⟩ := execChConfig_next h
  · exact hs.answer _
  · have hb : (s.ch c).busy = false := busy_false_of (hs.chan c) (by simp [habsent])
    exact (hs.setCh_idle hb (by simp [Channel.Ok, Channel.busy, hdepth]) rfl).answer _

theorem execChEnable_ok {c : Chan} {s t : State} (hs : s.Ok) (h : execChEnable c s = .next t) : t.Ok := by
  obtain ⟨hstate, ⟨-, rfl⟩ | ⟨-, rfl⟩⟩ := execChEnable_next h
  · exact hs.answer _
  · have hb : (s.ch c).busy = false := busy_false_of (hs.chan c) (by simp [hstate])
    have hx : Channel.Ok { s.ch c with state := .enabled } :=
      (hs.chan c).withState hb (by simp [hstate]) (by simp)
    exact (hs.setCh_idle hb hx hb).answer _

theorem execChDisable_ok {c : Chan} {s t : State} (hs : s.Ok) (h : execChDisable c s = .next t) : t.Ok := by
  obtain ⟨hexists, hb, ⟨-, rfl⟩ | ⟨-, rfl⟩⟩ := execChDisable_next h
  · exact hs.answer _
  · have hx : Channel.Ok { s.ch c with state := .disabled } :=
      (hs.chan c).withState hb hexists (by simp)
    exact (hs.setCh_idle hb hx hb).answer _

theorem execChDelete_ok {c : Chan} {s t : State} (hs : s.Ok) (h : execChDelete c s = .next t) : t.Ok := by
  obtain ⟨hstate, rfl⟩ := execChDelete_next h
  have hb : (s.ch c).busy = false := busy_false_of (hs.chan c) (by simp [hstate])
  exact ((hs.setCh_idle hb (channelAbsent_ok _) rfl).setFresh _).answer _

/-- The new transmit has its pin to itself, since `CH_TRANSMIT` faults on a taken one (R318), and no send
waits on a channel that was idle. -/
theorem execChTransmit_ok {c : Chan} {enc : Enc} {len : Nat} {s t : State} (hs : s.Ok)
    (h : execChTransmit c enc len s = .next t) : t.Ok := by
  obtain ⟨hlen, hstate, hidle, -, hpin, rfl⟩ := execChTransmit_next h
  obtain ⟨-, hdepth, -, howner⟩ := hs.chan c
  have hx : Channel.Ok { s.ch c with tx := some ⟨enc, len, callerOf s.issue.agent c, false⟩ } := by
    refine ⟨fun _ => hstate, hdepth, fun t ht henc => ?_, howner⟩
    cases ht
    exact hlen henc
  refine (hs.setCh c hx ?_ ?_).answer _
  · intro _ hother (heq : (s.ch c).pin = (s.ch c.other).pin)
    simp [pinTaken, hother, heq] at hpin
  · intro y hy hstage
    exact absurd hstage (hs.not_blocked hidle y hy)

/-! ## Packing and framing -/

/-- `PACK` keeps `OUT_B` in canonical form and within its size, whichever status it ends with. -/
theorem packRun_spaceOk {p : Params} {src : Space} {src0 n dst0 dcap : Nat} {m : Memory}
    {r : Status × Nat × Memory} (hsrc : src0 + n ≤ spaceSize p src) (hdst : dst0 + dcap ≤ p.bOutCap)
    (hm : m.SpaceOk p .outB) (h : packRun p src src0 n dst0 dcap m = some r) :
    r.2.2.SpaceOk p .outB := by
  unfold packRun at h
  split at h
  · cases h; exact hm
  · obtain ⟨m', hrun, hok, -⟩ := packFrom_spec (src := src) hdst (n / 2) src0 0 m (by omega) hm
      (Nat.zero_le _)
    rw [hrun] at h
    cases h
    exact hok

/-- `PACK` answers the memory it wrote, or after `E_CAPACITY` free bytes in `OUT_B` (R148). -/
theorem packAnswer_ok {s : State} (hs : s.Ok) {r : Status × Nat × Memory}
    (hmem : ∀ sp, r.2.2.SpaceOk s.params sp) : (packAnswer s r).Ok := by
  obtain ⟨st, j, m⟩ := r
  have hbank := hmem .outB
  cases st with
  | eCapacity =>
    exact ((hs.setMem (Memory.SpaceOk.setBank (sp := .outB) hmem (bankFree_wf hbank.1 _ _)
      (bankFree_bound _ _ hbank.2 le_rfl))).setFresh _).answer _
  | ok | eAlign | eHw => exact (hs.setMem hmem).answer _

theorem execPack_ok {src dst : Space} {src0 n dst0 dcap : Nat} {s t : State} (hs : s.Ok)
    (h : execPack src src0 n dst dst0 dcap s = .next t) : t.Ok := by
  obtain ⟨hsrc, hdst, r, hr, rfl⟩ := execPack_next h
  exact packAnswer_ok hs
    (hs.spaceOk_outB (packRun_mem hr) (packRun_spaceOk hsrc hdst (hs.mem .outB) hr))

theorem execPbFrame_ok {n : Nat} {s t : State} (hs : s.Ok) (h : execPbFrame n s = .next t) : t.Ok := by
  obtain ⟨hn, hempty, ⟨st, -, rfl⟩ | ⟨h4, heven, hcap, r, hr, rfl⟩⟩ := execPbFrame_next h
  · exact (hs.setPb (pbRejected_ok hs.pb hempty)).answer _
  · obtain ⟨m, hwrite, hout, hmem, -⟩ :=
      frameWrite_spec s.params s.pb n s.mem (hs.mem .outB) h4 hn heven hcap
    rw [hwrite] at hr
    cases hr
    have hpos : 0 < frameLen s.pb.npre n := by unfold frameLen; omega
    exact ((hs.setMem (hs.spaceOk_outB hmem hout)).setPb
      ⟨by simp, fun _ => ⟨hpos, hcap⟩⟩).answer _

/-! ## Resume operations -/

theorem execPaResume_ok {n b : Nat} {s t : State} (hs : s.Ok) (h : execPaResume n b s = .next t) :
    t.Ok := by
  obtain ⟨hw, hcases⟩ := execPaResume_next h
  have hn : n ≤ aMaxPayload := by
    simp only [wellFormed, Bool.and_eq_true, fits_iff] at hw
    exact hw.1
  obtain ⟨-, r, hr, rfl⟩ | ⟨c, x, htarget, rfl | ⟨r, hr, rfl⟩⟩ := hcases
  · exact (hs.setPa (paResume_ok hn hs.pa hr)).answer _
  · exact finishTransmit_ok hs _ _
  · have htx := (resumeTarget_some htarget).1
    exact stagePairs_ok (hs.setPa (paResume_ok hn hs.pa hr)) c x (by simpa using htx) _ _

theorem execPbResume_ok {b : Nat} {s t : State} (hs : s.Ok) (h : execPbResume b s = .next t) : t.Ok := by
  obtain ⟨-, ⟨-, r, hr, rfl⟩ | ⟨c, x, htarget, rfl | ⟨r, hr, rfl⟩⟩⟩ := execPbResume_next h
  · exact (hs.setPb (pbResume_ok hs.pb hr)).answer _
  · exact finishTransmit_ok hs _ _
  · have htx := (resumeTarget_some htarget).1
    exact stagePairs_ok (hs.setPb (pbResume_ok hs.pb hr)) c x (by simpa using htx) _ _

/-- What a transmit's resume step can answer: its end with `E_HW`, or the pairs of its encoder's call, staged
on the channel. -/
theorem txResume_next {c : Chan} {f : Hw} {b : Nat} {s t : State} (h : txResume c f b s = .next t) :
    ∃ x, (s.ch c).tx = some x ∧ x.staged = false ∧
      (f = .eHw ∧ t = finishTransmit c .eHw s ∨
        (f = .ok ∧ b ≤ (s.ch c).depth ∧ x.enc = .pa ∧ x.len ≤ aMaxPayload ∧
          ∃ r, paResume s.params s.mem x.len b s.pa = some r ∧
            t = stagePairs c x r.1 r.2.1 (s.setPa r.2.2)) ∨
        (f = .ok ∧ b ≤ (s.ch c).depth ∧ x.enc = .pb ∧ ∃ r, pbResume s.params s.mem b s.pb = some r ∧
          t = stagePairs c x r.1 r.2.1 (s.setPb r.2.2))) := by
  unfold txResume at h
  split at h
  · cases h
  next x hx =>
    split at h
    · cases h
    next hstaged =>
      refine ⟨x, hx, by simpa using hstaged, ?_⟩
      split at h
      next henc =>
        obtain ⟨hf, rfl⟩ | ⟨hf, hb, h⟩ := resumeStep_next.mp h
        · exact .inl ⟨hf, rfl⟩
        · obtain ⟨hw, h⟩ := withOperands_next.mp h
          simp only [wellFormed, Bool.and_eq_true, fits_iff] at hw
          obtain ⟨r, hr, h⟩ := orOutOfRange_next.mp h
          cases h
          exact .inr (.inl ⟨hf, hb, henc, hw.1, r, hr, rfl⟩)
      next henc =>
        obtain ⟨hf, rfl⟩ | ⟨hf, hb, h⟩ := resumeStep_next.mp h
        · exact .inl ⟨hf, rfl⟩
        · obtain ⟨-, h⟩ := withOperands_next.mp h
          obtain ⟨r, hr, h⟩ := orOutOfRange_next.mp h
          cases h
          exact .inr (.inr ⟨hf, hb, henc, r, hr, rfl⟩)

theorem txResume_ok {c : Chan} {f : Hw} {b : Nat} {s t : State} (hs : s.Ok)
    (h : txResume c f b s = .next t) : t.Ok := by
  obtain ⟨x, hx, -, ⟨-, rfl⟩ | ⟨-, -, -, hlen, r, hr, rfl⟩ | ⟨-, -, -, r, hr, rfl⟩⟩ := txResume_next h
  · exact finishTransmit_ok hs _ _
  · exact stagePairs_ok (hs.setPa (paResume_ok hlen hs.pa hr)) c x (by simpa using hx) _ _
  · exact stagePairs_ok (hs.setPb (pbResume_ok hs.pb hr)) c x (by simpa using hx) _ _

/-- A transmit ends only once a resume step has returned `COMPLETE`. -/
theorem txEnd_next {c : Chan} {f : Hw} {s t : State} (h : txEnd c f s = .next t) :
    ∃ x, (s.ch c).tx = some x ∧ x.staged = true ∧ t = finishTransmit c (statusOfDraw f) s := by
  unfold txEnd at h
  split at h
  · cases h
  next x hx =>
    split at h
    next hstaged =>
      cases h
      exact ⟨x, hx, hstaged, rfl⟩
    · cases h

/-! ## Receiver -/

/-- Edges are processed exactly while the node runs its application and no frame awaits consumption. -/
theorem edgesIgnored_eq_false {rx : Rx} :
    edgesIgnored rx = false ↔ rx.booted = false ∧ rx.rxBufLen = 0 := by
  simp [edgesIgnored]

theorem tickTimer_le {tmrMax tmr : Nat} (h : tmr ≤ tmrMax) : tickTimer tmrMax tmr ≤ tmrMax := by
  unfold tickTimer
  split <;> omega

theorem Rx.Ok.tmr_le {p : Params} {rx : Rx} (h : rx.Ok p) : rx.tmr ≤ p.tmrMax := h.1

/-- A new timer value in its range keeps the receiver in range, whatever becomes of the overflow and of the
activity mark. -/
theorem Rx.Ok.withTimer {p : Params} {rx : Rx} (h : rx.Ok p) {tmr : Nat} (ht : tmr ≤ p.tmrMax)
    (pend active : Bool) : Rx.Ok p { rx with tmr := tmr, ovfPend := pend, commActive := active } := by
  obtain ⟨-, hrest⟩ := h
  exact ⟨ht, hrest⟩

theorem Rx.Ok.withRef {p : Params} {rx : Rx} (h : rx.Ok p) {ref : Nat} (hr : ref ≤ p.tmrMax) :
    Rx.Ok p { rx with ref := ref } := by
  obtain ⟨htmr, -, hrest⟩ := h
  exact ⟨htmr, hr, hrest⟩

/-- A consumed frame leaves every other field as it was. -/
theorem Rx.Ok.consumed {p : Params} {rx : Rx} (h : rx.Ok p) : Rx.Ok p { rx with rxBufLen := 0 } := by
  obtain ⟨htmr, href, hidx, -, -, -, hbyte⟩ := h
  exact ⟨htmr, href, hidx, Nat.zero_le _, fun _ => rfl, fun h0 => absurd rfl h0, hbyte⟩

/-- A frame withheld by the jump to the bootloader leaves no length behind (R241). -/
theorem Rx.Ok.jumped {p : Params} {rx : Rx} (h : rx.Ok p) :
    Rx.Ok p { rx with rxBufLen := 0, booted := true } := by
  obtain ⟨htmr, href, hidx, -, -, -, hbyte⟩ := h
  exact ⟨htmr, href, hidx, Nat.zero_le _, fun _ => rfl, fun h0 => absurd rfl h0, hbyte⟩

/-- A sealed frame is as long as the bytes stored, and the counters start again at zero (R233). -/
theorem Rx.Ok.sealed {p : Params} {rx : Rx} (h : rx.Ok p) (hb : rx.booted = false) :
    (sealFrame rx).Ok p := by
  obtain ⟨htmr, href, hidx, -⟩ := h
  refine ⟨htmr, href, Nat.zero_le _, hidx, fun hboot => ?_, fun _ => ⟨rfl, rfl, rfl⟩, by simp [sealFrame]⟩
  rw [show (sealFrame rx).booted = rx.booted from rfl, hb] at hboot
  cases hboot

theorem Rx.Ok.overflowCleared {p : Params} {rx : Rx} (h : rx.Ok p) : (overflowCleared rx).Ok p := by
  obtain ⟨htmr, -, -, hlen, hboot, -⟩ := h
  exact ⟨htmr, Nat.zero_le _, Nat.zero_le _, hlen, hboot, fun _ => ⟨rfl, rfl, rfl⟩,
    by simp [Machine.overflowCleared]⟩

/-- The jump to the bootloader is safe outside a critical section (R84, R241). -/
theorem bootJump_ok {s : State} (hs : s.Ok) (hcrit : s.crit = false) : (bootJump s).Ok := by
  have hjumped : State.Ok (s.setRx { s.rx with rxBufLen := 0, booted := true }) :=
    hs.setRx hs.rx.jumped fun _ => hcrit
  exact (hjumped.setObs (x := { s.obs with nboot := s.obs.nboot + 1 }) hs.line).setOut _

theorem execRxTick_ok {s t : State} (hs : s.Ok) (h : execRxTick s = .next t) : t.Ok := by
  cases h
  exact (hs.setRx (hs.rx.withTimer (tickTimer_le hs.rx.tmr_le) _ _) hs.crit).answer _

theorem execRxFall_ok {s t : State} (hs : s.Ok) (h : execRxFall s = .next t) : t.Ok := by
  have hstarted : (s.setRx { s.rx with tmr := 0, commActive := true }).Ok :=
    hs.setRx (hs.rx.withTimer (Nat.zero_le _) _ _) hs.crit
  obtain ⟨-, rfl⟩ | ⟨-, -, rfl⟩ | ⟨hedge, -, u, hu, rfl⟩ := fall_cases h
  · exact hs.answer _
  · exact hstarted.answer _
  · obtain ⟨hboot, hlen⟩ := edgesIgnored_eq_false.mp hedge
    exact (appendBit_ok hstarted hboot hlen hu).answer _

theorem execRxRise_ok {s t : State} (hs : s.Ok) (hcrit : s.crit = false) (h : execRxRise s = .next t) :
    t.Ok := by
  have hzero : Rx.Ok s.params { s.rx with tmr := 0 } := hs.rx.withTimer (Nat.zero_le _) _ _
  obtain ⟨-, rfl⟩ | ⟨hedge, -, -, rfl⟩ | ⟨hedge, -, -, rfl⟩ | ⟨-, -, rfl⟩ := rise_cases h
  · exact hs.answer _
  · exact bootJump_ok (hs.setRx (hzero.sealed (edgesIgnored_eq_false.mp hedge).1) hs.crit) hcrit
  · exact (hs.setRx (hzero.sealed (edgesIgnored_eq_false.mp hedge).1) hs.crit).answer _
  · exact (hs.setRx (hzero.withRef hs.rx.tmr_le) hs.crit).answer _

theorem execRxOvf_ok {s t : State} (hs : s.Ok) (h : execRxOvf s = .next t) : t.Ok := by
  obtain ⟨-, ⟨-, rfl⟩ | ⟨-, rfl⟩⟩ := ovf_cases h
  · exact (hs.setRx (hs.rx.withTimer hs.rx.tmr_le false s.rx.commActive) hs.crit).answer _
  · exact (hs.setRx hs.rx.overflowCleared hs.crit).answer _

/-! ## Every operation -/

/-- Every operation keeps the machine safe; the one that may jump to the bootloader, outside a critical
section, where the interrupt entry runs it (R84). -/
theorem exec_ok {i : Instr} {s t : State} (hs : s.Ok) (hcrit : i = .rxRise → s.crit = false)
    (h : exec i s = .next t) : t.Ok := by
  cases i with
  | nibEnc v =>
    obtain ⟨-, h⟩ := withOperands_next.mp h
    obtain ⟨_, -, h⟩ := orOutOfRange_next.mp h
    cases h
    exact hs.answer _
  | pack2 b0 b1 =>
    simp only [exec, execPack2, withOperands_next] at h
    obtain ⟨-, h⟩ := h
    cases h
    exact hs.answer _
  | pack => exact execPack_ok hs h
  | paReset =>
    cases h
    exact (hs.setPa paInitial_ok).answer _
  | paResume => exact execPaResume_ok hs h
  | pbFrame => exact execPbFrame_ok hs h
  | pbReset =>
    cases h
    exact (hs.setPb (pbEmptied_ok _ _)).answer _
  | pbResume => exact execPbResume_ok hs h
  | chConfig => exact execChConfig_ok hs h
  | chEnable => exact execChEnable_ok hs h
  | chTransmit => exact execChTransmit_ok hs h
  | chDisable => exact execChDisable_ok hs h
  | chDelete => exact execChDelete_ok hs h
  | rxReset =>
    cases h
    exact (hs.setRx (rxInitial_ok _) nofun).answer _
  | rxTick => exact execRxTick_ok hs h
  | rxFall => exact execRxFall_ok hs h
  | rxRise => exact execRxRise_ok hs (hcrit rfl) h
  | rxOvf => exact execRxOvf_ok hs h
  | rxClaim =>
    obtain ⟨-, r, rfl⟩ := claim_cases h
    exact (hs.setRx hs.rx.consumed hs.crit).answer _
  | rxClearLen =>
    obtain ⟨-, rfl⟩ := clear_cases h
    exact (hs.setRx hs.rx.consumed hs.crit).answer _
  | rxReadLen | rxReadActive =>
    obtain ⟨-, h⟩ := mainLoopAccess_next.mp h
    cases h
    exact hs.answer _
  | rxReadBuf j =>
    obtain ⟨-, h⟩ := withOperands_next.mp h
    obtain ⟨-, h⟩ := mainLoopAccess_next.mp h
    obtain ⟨_, -, h⟩ := orOutOfRange_next.mp h
    cases h
    exact hs.answer _

/-- Only a handler can jump to the bootloader, and a critical section masks the handlers (R84). -/
theorem runInstr_ok {ag : Agent} {i : Instr} {f : Hw} {s t : State} (hs : s.Ok)
    (h : runInstr ag i f s = .next t) : t.Ok := by
  obtain ⟨hag, -, -, hmask, h⟩ := runInstr_next h
  refine exec_ok (hs.setIssue _) ?_ h
  rintro rfl
  exact hmask (by simpa [mayIssue] using hag)

theorem runWord_ok {ag : Agent} {word : Byte} {ports : Ports} {f : Hw} {s t : State} (hs : s.Ok)
    (h : runWord ag word ports f s = .next t) : t.Ok := by
  unfold runWord at h
  split at h
  · cases h
  · exact runInstr_ok hs h

/-! ## The nodes -/

/-- An operation of the receiving node writes its own pieces. -/
theorem writes_subset_receiving {i : Instr} (s : State) (hi : isReceiver i = true) :
    writes s i ⊆ [.rx, .space .rxBuf, .nboot] := by
  cases i with
  | rxReset | rxTick | rxFall | rxRise | rxOvf | rxClaim | rxReadLen | rxReadBuf | rxClearLen
  | rxReadActive => simp [writes]
  | nibEnc | pack2 | pack | paReset | paResume | pbFrame | pbReset | pbResume | chConfig | chEnable
  | chTransmit | chDisable | chDelete => simp [isReceiver, opWord, opUnit] at hi

/-- The pieces of the transmitting node: its sessions, channels, sends and frame buffer, the counter of free
values, and the lines of its channels' pins. -/
def transmittingParts (s : State) : List Part :=
  [.pa, .pb, .ch .a, .ch .b, .space .outB, .fresh, .send .a, .send .b, .line s.chA.pin, .line s.chB.pin]

/-- A channel, its send and its pin's line belong to the transmitting node. -/
theorem channel_parts_mem (s : State) (c : Chan) :
    .ch c ∈ transmittingParts s ∧ .send c ∈ transmittingParts s ∧
      .line (s.ch c).pin ∈ transmittingParts s := by
  cases c <;> simp [transmittingParts, State.ch]

/-- A resume word's transmit is the transmitting node's. -/
theorem resumeWrites_subset_transmitting (s : State) (e : Enc) :
    resumeWrites s e ⊆ transmittingParts s := by
  intro q hq
  obtain ⟨c, -, -, -, hq⟩ := mem_resumeWrites hq
  obtain ⟨hch, hsend, hline⟩ := channel_parts_mem s c
  obtain rfl | rfl | rfl := hq
  · exact hch
  · exact hsend
  · exact hline

/-- An operation of the transmitting node writes its own pieces. -/
theorem writes_subset_transmitting {i : Instr} (s : State) (hi : isReceiver i = false) :
    writes s i ⊆ transmittingParts s := by
  cases i with
  | nibEnc | pack2 | pack | paReset | pbFrame | pbReset => simp [writes, transmittingParts]
  | paResume | pbResume =>
    exact List.cons_subset.mpr ⟨by simp [transmittingParts], resumeWrites_subset_transmitting s _⟩
  | chConfig c | chEnable c | chTransmit c | chDisable c =>
    simpa [writes] using (channel_parts_mem s c).1
  | chDelete c =>
    exact List.cons_subset.mpr ⟨(channel_parts_mem s c).1, by simp [transmittingParts]⟩
  | rxReset | rxTick | rxFall | rxRise | rxOvf | rxClaim | rxReadLen | rxReadBuf | rxClearLen
  | rxReadActive => simp [isReceiver, opWord, opUnit] at hi

/-- Settles O55: the frame of every operation lies within the pieces of its own node. -/
theorem nodesShareNoState : Obligations.NodesShareNoState := by
  intro i s t h
  have hframe := exec_frame h
  split
  next hi => exact hframe.mono (writes_subset_receiving s hi)
  next hi => exact hframe.mono (writes_subset_transmitting s (by simpa using hi))

/-! ## Sends -/

/-- No operation writes the parameters. -/
theorem exec_params {i : Instr} {s t : State} (h : exec i s = .next t) : t.params = s.params := by
  have hnode := nodesShareNoState i s t h
  split at hnode
  · exact hnode .params (by simp)
  · exact hnode .params (by simp)

/-- A send issues no handler. -/
theorem sendOp_ne_rxRise {p : Params} {c : Chan} {x : Send} {i : Instr} (h : sendOp p c x = some i) :
    i ≠ .rxRise := by
  rintro rfl
  unfold sendOp at h
  split at h <;> cases h

/-- At its transmit stage a send issues the `CH_TRANSMIT` of its own channel. -/
theorem sendOp_transmit {p : Params} {c : Chan} {x : Send} {i : Instr} (hx : x.stage = .transmit)
    (h : sendOp p c x = some i) : ∃ enc len, i = .chTransmit c enc len := by
  unfold sendOp at h
  rw [hx] at h
  cases c <;> cases h <;> exact ⟨_, _, rfl⟩

/-- Channel `c` transmits for caller `c`: what a waiting send of `c` relies on (R172, R203). -/
def transmitsForCaller (s : State) (c : Chan) : Prop := ∃ x, (s.ch c).tx = some x ∧ x.caller = c

/-- The `CH_TRANSMIT` a send issues makes its channel transmit for it. -/
theorem transmitsForCaller_of_sendOp {p : Params} {c : Chan} {x : Send} {i : Instr} {f : Hw} {s u : State}
    (hx : x.stage = .transmit) (hi : sendOp p c x = some i)
    (h : exec i (s.setIssue ⟨.txCaller c, f⟩) = .next u) : transmitsForCaller u c := by
  obtain ⟨enc, len, rfl⟩ := sendOp_transmit hx hi
  obtain ⟨-, -, -, -, -, rfl⟩ := execChTransmit_next h
  exact ⟨⟨enc, len, c, false⟩, by simp [callerOf], rfl⟩

/-- A send may go on to another stage with the bytes it read; to wait, it needs its transmit. -/
theorem State.Ok.setSend_stage {u : State} (hu : u.Ok) {c : Chan} {x : Send}
    (hn : x.n ≤ spaceSize u.params (inputSpace c)) {stage : SendStage} (failed : Bool)
    (hwait : stage = .blocked → transmitsForCaller u c) :
    (u.setSend c (some { x with stage := stage, failed := failed })).Ok :=
  hu.setSend c fun y hy => by
    cases hy
    exact ⟨hn, hwait⟩

theorem sendMove_ok {c : Chan} {x : Send} {okStage failStage : SendStage} {u t : State} (hu : u.Ok)
    (hn : x.n ≤ spaceSize u.params (inputSpace c))
    (hok : okStage = .blocked → transmitsForCaller u c)
    (hfail : failStage = .blocked → transmitsForCaller u c)
    (h : sendMove c x okStage failStage u = .next t) : t.Ok := by
  unfold sendMove at h
  split at h <;> cases h
  · exact hu.setSend_stage hn _ hfail
  · exact hu.setSend_stage hn _ hok

theorem sendReturn_ok {c : Chan} {st : Status} {w : Warn} {u t : State} (hu : u.Ok)
    (h : sendReturn c st w u = .next t) : t.Ok := by
  cases h
  exact (hu.setSend c (by simp)).answer _

/-- A send goes on safely after its operation, which at the transmit stage has begun its transmit: that is
the one stage from which it goes to wait. -/
theorem sendNext_ok {c : Chan} {x : Send} {u t : State} (hu : u.Ok)
    (hn : x.n ≤ spaceSize u.params (inputSpace c))
    (htx : x.stage = .transmit → transmitsForCaller u c) (h : sendNext c x u = .next t) : t.Ok := by
  cases hstage : x.stage with
  | prepare =>
    simp only [sendNext, hstage] at h
    split at h
    · cases h
      exact hu.setSend_stage hn _ (by split <;> simp)
    · exact sendReturn_ok hu h
  | config | disable | delete =>
    simp only [sendNext, hstage] at h
    exact sendMove_ok hu hn (by simp) (by simp) h
  | enable =>
    simp only [sendNext, hstage] at h
    exact sendMove_ok hu hn (by split <;> simp) (by simp) h
  | transmit =>
    simp only [sendNext, hstage] at h
    exact sendMove_ok hu hn (fun _ => htx hstage) (fun _ => htx hstage) h
  | blocked => simp [sendNext, hstage] at h
  | release =>
    simp only [sendNext, hstage] at h
    exact sendReturn_ok hu h

theorem sendAdvance_ok {c : Chan} {f : Hw} {s t : State} (hs : s.Ok) (h : sendAdvance c f s = .next t) :
    t.Ok := by
  obtain ⟨x, i, u, hx, hi, -, -, hexec, hnext⟩ := sendAdvance_next h
  have hu : u.Ok := exec_ok (hs.setIssue _) (fun hrise => absurd hrise (sendOp_ne_rxRise hi)) hexec
  have hparams : u.params = s.params := by simpa using exec_params hexec
  refine sendNext_ok hu ?_ (fun hstage => transmitsForCaller_of_sendOp hstage hi hexec) hnext
  rw [hparams]
  exact (hs.sends c x hx).1

/-- A send begins with no more bytes than its space holds, and waits for nothing yet. -/
theorem sendBegin_ok {c : Chan} {bytes : List Byte} {order : ResetOrder} {s t : State} (hs : s.Ok)
    (h : sendBegin c bytes order s = .next t) : t.Ok := by
  unfold sendBegin at h
  split at h
  · cases h
  · cases h
    refine ((sourceStored_ok hs c bytes).setSend c fun y hy => ?_).answer _
    cases hy
    exact ⟨Nat.min_le_right _ _, by dsimp only; split <;> simp⟩

theorem readSource_ok {c : Chan} {bytes : List Byte} {s t : State} (hs : s.Ok)
    (h : readSource c bytes s = .next t) : t.Ok := by
  unfold readSource at h
  split at h <;> cases h
  exact (sourceStored_ok hs c bytes).answer _

/-! ## Every input -/

/-- A critical section is entered and left only while the node runs its application (R223). -/
theorem markCritical_ok {on : Bool} {s t : State} (hs : s.Ok) (h : markCritical on s = .next t) :
    t.Ok := by
  obtain ⟨hboot, h⟩ := mainLoopAccess_next.mp h
  cases h
  exact (hs.setCrit fun hb => by rw [hboot] at hb; cases hb).answer _

theorem present_ok {e : Event} {s t : State} (hs : s.Ok) (h : present e s = .next t) : t.Ok := by
  cases e with
  | op => exact runWord_ok hs h
  | txResume => exact txResume_ok hs h
  | txEnd =>
    obtain ⟨-, -, -, rfl⟩ := txEnd_next h
    exact finishTransmit_ok hs _ _
  | readSource => exact readSource_ok hs h
  | send => exact sendBegin_ok hs h
  | sendStep => exact sendAdvance_ok hs h
  | critBegin | critEnd => exact markCritical_ok hs h
  | powerOn node =>
    cases node with
    | transmitting => cases h; exact powerOnTx_ok hs
    | receiving => cases h; exact powerOnRx_ok hs

/-- Settles O59: a step is the next input, and every input keeps the machine safe. -/
theorem everyStepKeepsTheMachineSafe : Obligations.EveryStepKeepsTheMachineSafe := by
  intro s t hs h
  unfold step at h
  split at h
  · cases h
    exact hs.setOut _
  · exact present_ok (hs.setEvents _) h

end Sys2Proof.Machine
end

section
/-! PROOFS of the family `10_state`: the values right after reset (`ResetValues`), their safety (`ResetIsSafe`,
the base case of the invariant), and who writes the receiver's shared fields (`ReceiverFieldOwnership`). For
the last, the frame of every operation leaves seven that may write a receiver field and one that may write
the buffer; what each of those does to the length is said by its inversion lemma. -/

namespace Sys2Proof.Machine

/-! ## Reset -/

@[simp] theorem State.resetWith_ch (p : Params) (c : Chan) : (State.resetWith p).ch c = channelInitial := by
  cases c <;> rfl

@[simp] theorem State.resetWith_send (p : Params) (c : Chan) : (State.resetWith p).send c = none := by
  cases c <;> rfl

@[simp] theorem State.resetWith_bank (p : Params) (sp : Space) : (State.resetWith p).mem.bank sp = [] := by
  cases sp <;> rfl

/-- Settles O56: every stated value is the field's definition; the machine's own parameters are the free ones
with the preamble count at its default. -/
theorem resetValues : Obligations.ResetValues := by
  refine ⟨⟨Config.params, rfl, rfl⟩, fun p => ⟨rfl, rfl, rfl, fun c => ?_, ?_⟩⟩
  · rw [State.resetWith_ch]
    exact ⟨rfl, rfl⟩
  · exact ⟨rfl, rfl, rfl, rfl, rfl, rfl, rfl, rfl, rfl, rfl, fun _ => rfl⟩

theorem channelInitial_ok : channelInitial.Ok := by
  simp [Channel.Ok, channelInitial, Channel.busy]

/-- The base case of the invariant: sessions, channels and receiver at their initial values, everything else
empty. -/
theorem State.resetWith_ok (p : Params) : (State.resetWith p).Ok where
  pa := paInitial_ok
  pb := by simp [PbSession.Ok, State.resetWith]
  chan c := by
    rw [State.resetWith_ch]
    exact channelInitial_ok
  pins := nofun
  rx := rxInitial_ok p
  crit := nofun
  mem sp := by simp [Memory.SpaceOk, Bank.wf]
  line := by simp [lineWf, State.resetWith]
  sends c := by simp [sendOk]

/-- Settles O58: the machine's own reset is the one with the free parameters. -/
theorem resetIsSafe : Obligations.ResetIsSafe :=
  ⟨State.resetWith_ok Config.params, State.resetWith_ok⟩

/-! ## Which operations may write the receiver's fields and buffer -/

/-- Only an operation of the receiving node may write a receiver field or the buffer. -/
theorem isReceiver_of_mem_writes {i : Instr} {s : State} {q : Part} (hw : q ∈ writes s i)
    (hq : q ∉ transmittingParts s) : isReceiver i = true := by
  by_contra hi
  exact hq (writes_subset_transmitting s (by simpa using hi) hw)

/-- The main loop's reads write no receiver field. -/
theorem rx_mem_writes {i : Instr} {s : State} (hw : Part.rx ∈ writes s i) :
    i ∈ ([.rxReset, .rxTick, .rxFall, .rxRise, .rxOvf, .rxClaim, .rxClearLen] : List Instr) := by
  have hi : isReceiver i = true := isReceiver_of_mem_writes hw (by simp [transmittingParts])
  cases i with
  | rxReset | rxTick | rxFall | rxRise | rxOvf | rxClaim | rxClearLen => simp
  | rxReadLen | rxReadBuf | rxReadActive => simp [writes] at hw
  | nibEnc | pack2 | pack | paReset | paResume | pbFrame | pbReset | pbResume | chConfig | chEnable
  | chTransmit | chDisable | chDelete => simp [isReceiver, opWord, opUnit] at hi

/-- The buffer is the falling edge's alone. -/
theorem rxBuf_mem_writes {i : Instr} {s : State} (hw : Part.space .rxBuf ∈ writes s i) : i = .rxFall := by
  have hi : isReceiver i = true := isReceiver_of_mem_writes hw (by simp [transmittingParts])
  cases i with
  | rxFall => rfl
  | rxReset | rxTick | rxRise | rxOvf | rxClaim | rxClearLen | rxReadLen | rxReadBuf | rxReadActive =>
    simp [writes] at hw
  | nibEnc | pack2 | pack | paReset | paResume | pbFrame | pbReset | pbResume | chConfig | chEnable
  | chTransmit | chDisable | chDelete => simp [isReceiver, opWord, opUnit] at hi

/-! ## What the receiver's operations do to the length and the buffer -/

/-- A falling edge stores bytes; the frame's length it leaves to the terminator's rising edge (R226). -/
theorem execRxFall_rxBufLen {s t : State} (h : execRxFall s = .next t) : t.rx.rxBufLen = s.rx.rxBufLen := by
  obtain ⟨-, rfl⟩ | ⟨-, -, rfl⟩ | ⟨-, -, u, hu, rfl⟩ := fall_cases h
  · rfl
  · rfl
  · rw [State.answer_rx, appendBit_rx hu]
    rfl

/-- A falling edge that finds a frame awaiting consumption is ignored (R224): so one that writes the buffer
found none. -/
theorem execRxFall_writes_unsealed {s t : State} (h : execRxFall s = .next t) {j : Nat}
    (hj : t.mem.byteAt .rxBuf j ≠ s.mem.byteAt .rxBuf j) : s.rx.rxBufLen = 0 := by
  obtain ⟨-, rfl⟩ | ⟨hedge, -⟩ | ⟨hedge, -⟩ := fall_cases h
  · exact absurd rfl hj
  · exact (edgesIgnored_eq_false.mp hedge).2
  · exact (edgesIgnored_eq_false.mp hedge).2

/-- A rising edge changes the length only of a receiver that processes edges, so only from zero (R224,
R233). -/
theorem execRxRise_seals_unsealed {s t : State} (h : execRxRise s = .next t)
    (hne : t.rx.rxBufLen ≠ s.rx.rxBufLen) : s.rx.rxBufLen = 0 := by
  obtain ⟨-, rfl⟩ | ⟨hedge, -⟩ | ⟨hedge, -⟩ | ⟨hedge, -⟩ := rise_cases h
  · exact absurd rfl hne
  all_goals exact (edgesIgnored_eq_false.mp hedge).2

/-- The overflow handler leaves a sealed frame's length as it is (R236). -/
theorem execRxOvf_rxBufLen {s t : State} (h : execRxOvf s = .next t) : t.rx.rxBufLen = s.rx.rxBufLen := by
  obtain ⟨-, ⟨-, rfl⟩ | ⟨-, rfl⟩⟩ := ovf_cases h <;> rfl

/-! ## Who writes the shared fields -/

/-- The length is written by a rising edge, from zero, and cleared by its consumer and by reset. -/
theorem exec_rxBufLen_changed {i : Instr} {s t : State} (h : exec i s = .next t)
    (hne : t.rx.rxBufLen ≠ s.rx.rxBufLen) :
    (i = .rxRise ∧ s.rx.rxBufLen = 0) ∨
      (i ∈ ([.rxClaim, .rxClearLen, .rxReset] : List Instr) ∧ t.rx.rxBufLen = 0) := by
  have hw : Part.rx ∈ writes s i := by
    by_contra hw
    exact hne (by rw [rx_of_frame h hw])
  have hi := rx_mem_writes hw
  cases i with
  | rxReset => cases h; exact .inr ⟨by simp, rfl⟩
  | rxTick => cases h; exact absurd rfl hne
  | rxFall => exact absurd (execRxFall_rxBufLen h) hne
  | rxRise => exact .inl ⟨rfl, execRxRise_seals_unsealed h hne⟩
  | rxOvf => exact absurd (execRxOvf_rxBufLen h) hne
  | rxClaim =>
    obtain ⟨-, r, rfl⟩ := claim_cases h
    exact .inr ⟨by simp, rfl⟩
  | rxClearLen =>
    obtain ⟨-, rfl⟩ := clear_cases h
    exact .inr ⟨by simp, rfl⟩
  | nibEnc | pack2 | pack | paReset | paResume | pbFrame | pbReset | pbResume | chConfig | chEnable
  | chTransmit | chDisable | chDelete | rxReadLen | rxReadBuf | rxReadActive => simp at hi

/-- A byte of the buffer is written by a falling edge that finds no frame awaiting consumption. -/
theorem exec_rxBuf_changed {i : Instr} {s t : State} (h : exec i s = .next t) {j : Nat}
    (hj : t.mem.byteAt .rxBuf j ≠ s.mem.byteAt .rxBuf j) : i = .rxFall ∧ s.rx.rxBufLen = 0 := by
  have hw : Part.space .rxBuf ∈ writes s i := by
    by_contra hw
    exact hj (buf_of_frame h hw j)
  obtain rfl := rxBuf_mem_writes hw
  exact ⟨rfl, execRxFall_writes_unsealed h hj⟩

/-- The main loop's accesses write no receiver field but the length (R250 to R254). -/
theorem exec_mainLoop_rx {i : Instr} {s t : State} (h : exec i s = .next t)
    (hi : 5 ≤ (opUnit (opWord i)).toNat) : { t.rx with rxBufLen := s.rx.rxBufLen } = s.rx := by
  cases i with
  | rxClaim =>
    obtain ⟨-, r, rfl⟩ := claim_cases h
    rfl
  | rxClearLen =>
    obtain ⟨-, rfl⟩ := clear_cases h
    rfl
  | rxReadLen | rxReadBuf | rxReadActive => rw [rx_of_frame h (by simp [writes])]
  | nibEnc | pack2 | pack | paReset | paResume | pbFrame | pbReset | pbResume | chConfig | chEnable
  | chTransmit | chDisable | chDelete | rxReset | rxTick | rxFall | rxRise | rxOvf =>
    simp [opWord, opUnit] at hi

/-- Settles O54: its three clauses are about the length, the buffer and the main loop. -/
theorem receiverFieldOwnership : Obligations.ReceiverFieldOwnership := fun _ _ _ h =>
  ⟨exec_rxBufLen_changed h, fun ⟨_, hj⟩ => exec_rxBuf_changed h hj, exec_mainLoop_rx h⟩

end Sys2Proof.Machine
end

section
/-! PROOFS of the family `20_memory`: the operation a step runs (`StepRunsTheDecodedOperation`), the byte source
(`SourceReadCollectsUpToCapacity`), accesses in range (`NoStepAccessesOutOfRange`), critical sections
(`CriticalSectionMasksHandlers`) and who owns what (`CallersWithinTheirOwnLeaveTheOthers`). Each of the last
three names a property of a step (`InRange`, `CritBlind`, `KeepsOwned` with `BeginsNoTransmit`), shows which
shared operations keep it, then goes through the operations and the inputs. -/

namespace Sys2Proof.Machine

/-! ## The operation a step runs -/

/-- A word is its unit and its function side by side (R116). -/
theorem word_eq_of_parts {w : Byte} {u f : Nat} (hu : (opUnit w).toNat = u)
    (hf : (opFunction w).toNat = f) : w = BitVec.ofNat 8 (16 * u + f) := by
  subst hu hf
  apply BitVec.eq_of_toNat_eq
  simp only [opUnit, opFunction, BitVec.extractLsb'_toNat, BitVec.toNat_ofNat, Nat.shiftRight_eq_div_pow]
  have := w.isLt
  omega

/-- A word that decodes is the one R120's map gives the operation it decodes to. -/
theorem eq_opWord_of_decode {w : Byte} {ports : Ports} {i : Instr} (h : decode [w] ports = .ok i) :
    w = opWord i := by
  simp only [decode, decodeOp] at h
  split at h <;> cases h <;> exact word_eq_of_parts ‹_› ‹_›

/-- `PACK` is the one operation inside `PB_FRAME` (R120). -/
theorem opWord_of_insideFramer {i : Instr} (h : insideFramer i = true) : opWord i = 0x02 := by
  cases i with
  | pack => rfl
  | _ => cases h

/-- An operation that may be issued, is in its place and is not masked is its effect, with issuer and draw
latched. -/
theorem runInstr_eq {ag : Agent} {i : Instr} {f : Hw} {s : State} (hag : mayIssue ag i = true)
    (hfree : agentBlocked s ag = false) (hplace : outOfPlace s i = false)
    (hmask : ag = .rxIsr → s.crit = false) : runInstr ag i f s = exec i (s.setIssue ⟨ag, f⟩) := by
  by_cases hisr : ag = .rxIsr
  · subst hisr
    simp [runInstr, takeInterrupt, hag, hfree, hplace, hmask rfl]
  · simp [runInstr, hag, hfree, hplace, hisr]

/-- Settles O4: the word names its operation, so the clause on the word `0x02` puts `PACK` in its place. -/
theorem stepRunsTheDecodedOperation : Obligations.StepRunsTheDecodedOperation := by
  intro s ag w ports f es i hevents hdecode hag hfree hpack hmask
  have hplace : outOfPlace (s.setEvents es) i = false := by
    by_contra h
    simp only [outOfPlace, Bool.not_eq_false, Bool.and_eq_true, decide_eq_true_eq] at h
    obtain ⟨hinside, hloaded⟩ := h
    have hempty := hpack ((eq_opWord_of_decode hdecode).trans (opWord_of_insideFramer hinside))
    rw [State.setEvents_pb, hempty] at hloaded
    cases hloaded
  have hfree' : agentBlocked (s.setEvents es) ag = false := by
    cases ag <;> exact hfree
  simp only [step, hevents, present, runWord, hdecode]
  exact runInstr_eq hag hfree' hplace hmask

/-! ## The byte source -/

/-- The byte-source read changes its caller's input space alone (R74). -/
theorem sourceStored_frame (c : Chan) (bytes : List Byte) (s : State) :
    SameBut [.space (inputSpace c)] s (sourceStored c bytes s) :=
  SameBut.setMem _ _ _ fun _ hsp i => Memory.byteAt_setBank_ne _ _ i hsp

/-- What an input space holds after a byte-source read: the bytes collected, then what it held (R74). -/
theorem sourceStored_byteAt {c : Chan} {s : State} (hwf : Bank.wf (s.mem.bank (inputSpace c)))
    (bytes : List Byte) (i : Nat) :
    (sourceStored c bytes s).mem.byteAt (inputSpace c) i
      = if h : i < spaceSize s.params (inputSpace c) ∧ i < bytes.length then bytes[i]'h.2
        else s.mem.byteAt (inputSpace c) i := by
  simp only [sourceStored, State.setMem_mem, Memory.byteAt, Memory.bank_setBank, bankGet_bankWrite hwf]
  simp

/-- Settles O32: an unblocked caller's read answers the state with the bytes stored. -/
theorem sourceReadCollectsUpToCapacity : Obligations.SourceReadCollectsUpToCapacity := by
  intro s c bytes hfree hok cap
  have hread : present (.readSource c bytes) s = .next ((sourceStored c bytes s).answer
      (.sourceRead (sourceCount c bytes s) (sourceWarnings c bytes s))) := by
    simp [present, readSource, hfree]
  refine ⟨_, hread, ?_, ?_, fun i hcap hlen => ?_, fun i hi => ?_⟩
  · simp [sourceCount, sourceWarnings, sourceWarn, cap]
  · exact (sourceStored_frame c bytes s).trans ((SameBut.answer _ _).mono (by simp))
  · rw [State.answer_mem, sourceStored_byteAt hok.1, dif_pos ⟨hcap, hlen⟩]
  · rw [State.answer_mem, sourceStored_byteAt hok.1, dif_neg fun h => hi.not_gt (lt_min h.2 h.1)]

/-! ## Accesses in range -/

/-- The answers of a step that makes no access outside a space (R71). -/
inductive InRange : StepOut State → Prop
  | next (s : State) : InRange (.next s)
  | refused (r : Refusal) : InRange (.refused r)
  | pinConflict : InRange (.fault .pinConflict)

theorem inRange_iff {o : StepOut State} : InRange o ↔ o ≠ .fault .outOfRange := by
  constructor
  · rintro ⟨⟩ <;> simp
  · intro h
    cases o with
    | next s => exact .next s
    | refused r => exact .refused r
    | fault r =>
      cases r with
      | pinConflict => exact .pinConflict
      | outOfRange => exact absurd rfl h

theorem orOutOfRange_inRange {α : Type} {o : Option α} {k : α → StepOut State} (ho : ∃ x, o = some x)
    (hk : ∀ x, InRange (k x)) : InRange (orOutOfRange o k) := by
  obtain ⟨x, rfl⟩ := ho
  exact hk x

theorem andThen_inRange {o : StepOut State} {k : State → StepOut State} (ho : InRange o)
    (hk : ∀ s, InRange (k s)) : InRange (andThen o k) := by
  cases ho with
  | next s => exact hk s
  | refused r => exact .refused r
  | pinConflict => exact .pinConflict

theorem withOperands_inRange {i : Instr} {s : State} {k : StepOut State}
    (hk : wellFormed s.params i = true → InRange k) : InRange (withOperands i s k) := by
  unfold withOperands
  split
  next hw => exact hk hw
  · constructor

theorem mainLoopAccess_inRange {s : State} {k : StepOut State} (hk : InRange k) :
    InRange (mainLoopAccess s k) := by
  unfold mainLoopAccess
  split
  · constructor
  · exact hk

theorem takeInterrupt_inRange {handler : State → StepOut State} {s : State} (hk : InRange (handler s)) :
    InRange (takeInterrupt handler s) := by
  unfold takeInterrupt
  split
  · constructor
  · exact hk

theorem resumeStep_inRange {c : Chan} {f : Hw} {b : Nat} {s : State} {call : StepOut State}
    (hk : InRange call) : InRange (resumeStep c f b s call) := by
  cases f with
  | eHw => exact .next _
  | ok =>
    simp only [resumeStep]
    split
    · constructor
    · exact hk

/-! ### What each access finds -/

/-- Every nibble has its entry in the table (R142). -/
theorem exists_nibRead_eq_some (p : Params) {v : Nat} (h : v ≤ 15) : ∃ code, nibRead p v = some code :=
  ⟨p.nibTable[v], Vector.getElem?_eq_getElem (by omega)⟩

/-- `PACK` with its ranges inside their spaces reads and writes within them. -/
theorem exists_packRun_eq_some {p : Params} {src : Space} {src0 n dst0 dcap : Nat} {m : Memory}
    (hsrc : src0 + n ≤ spaceSize p src) (hdst : dst0 + dcap ≤ p.bOutCap) (hm : m.SpaceOk p .outB) :
    ∃ r, packRun p src src0 n dst0 dcap m = some r := by
  unfold packRun
  split
  · exact ⟨_, rfl⟩
  · obtain ⟨m', hrun, -⟩ := packFrom_spec (src := src) hdst (n / 2) src0 0 m (by omega) hm (Nat.zero_le _)
    exact ⟨_, hrun⟩

/-- The frame of a session in its range lies in `OUT_B` (R39, R40). -/
theorem PbSession.Ok.len_le {p : Params} {pb : PbSession} (h : pb.Ok p) : pb.len ≤ p.bOutCap := by
  obtain ⟨hempty, hloaded⟩ := h
  cases hst : pb.st with
  | empty =>
    obtain ⟨hlen, -⟩ := hempty hst
    omega
  | loaded => exact (hloaded hst).2

theorem paResumeCall_inRange {n b : Nat} {s : State} {k : List Pair → ResumeStatus → State → State}
    (hn : n ≤ aMaxPayload) : InRange (paResumeCall n b s k) := by
  obtain ⟨_, _, hr, -⟩ := paResume_spec s.params s.mem n b s.pa hn
  exact orOutOfRange_inRange ⟨_, hr⟩ fun _ => .next _

theorem pbResumeCall_inRange {b : Nat} {s : State} {k : List Pair → ResumeStatus → State → State}
    (hs : s.Ok) : InRange (pbResumeCall b s k) := by
  obtain ⟨_, _, hr, -⟩ := pbResume_spec s.params s.mem b s.pb hs.pb.len_le
  exact orOutOfRange_inRange ⟨_, hr⟩ fun _ => .next _

/-- A payload whose length is on its port's range lies in `IN_A` (R117). -/
theorem len_le_of_paResume_wellFormed {p : Params} {n b : Nat}
    (hw : wellFormed p (.paResume n b) = true) : n ≤ aMaxPayload := by
  simp only [wellFormed, Bool.and_eq_true, fits_iff] at hw
  exact hw.1

/-! ### Operations -/

theorem execNibEnc_inRange (v : Nat) (s : State) : InRange (execNibEnc v s) :=
  withOperands_inRange fun hw =>
    orOutOfRange_inRange (exists_nibRead_eq_some _ (by simpa [wellFormed] using hw)) fun _ => .next _

theorem execPack_inRange {s : State} (hs : s.Ok) (src dst : Space) (src0 n dst0 dcap : Nat) :
    InRange (execPack src src0 n dst dst0 dcap s) := by
  refine withOperands_inRange fun hw => ?_
  simp only [wellFormed, Bool.and_eq_true, fits_iff] at hw
  obtain ⟨⟨⟨-, hsrc⟩, -⟩, hdst⟩ := hw
  exact orOutOfRange_inRange (exists_packRun_eq_some hsrc hdst (hs.mem .outB)) fun _ => .next _

theorem execPaResume_inRange (n b : Nat) (s : State) : InRange (execPaResume n b s) := by
  refine withOperands_inRange fun hw => ?_
  have hn := len_le_of_paResume_wellFormed hw
  split
  · exact resumeStep_inRange (paResumeCall_inRange hn)
  · exact paResumeCall_inRange hn

theorem execPbResume_inRange {s : State} (hs : s.Ok) (b : Nat) : InRange (execPbResume b s) := by
  refine withOperands_inRange fun _ => ?_
  split
  · exact resumeStep_inRange (pbResumeCall_inRange hs)
  · exact pbResumeCall_inRange hs

/-- `PB_FRAME` writes only a frame it has found to fit (R194, R195). -/
theorem execPbFrame_inRange {s : State} (hs : s.Ok) (n : Nat) : InRange (execPbFrame n s) := by
  refine withOperands_inRange fun hw => ?_
  split
  · constructor
  · split
    · constructor
    next h4 =>
      split
      · constructor
      next heven =>
        split
        · constructor
        next hcap =>
          obtain ⟨_, hr, -⟩ := frameWrite_spec s.params s.pb n s.mem (hs.mem .outB) (by omega)
            (by simpa [wellFormed] using hw) (by omega) (by omega)
          exact orOutOfRange_inRange ⟨_, hr⟩ fun _ => .next _

/-- A bit is appended in every state: a byte beyond the capacity is dropped (R230). -/
theorem exists_appendBit_eq_some (bit : Bool) (s : State) : ∃ t, appendBit bit s = some t := by
  rw [appendBit_eq]
  split
  · split <;> exact ⟨_, rfl⟩
  · exact ⟨_, rfl⟩

theorem execRxFall_inRange (s : State) : InRange (execRxFall s) := by
  unfold execRxFall
  split
  · constructor
  · split
    · constructor
    · exact orOutOfRange_inRange (exists_appendBit_eq_some _ _) fun _ => .next _

theorem execRxClaim_inRange {s : State} (hs : s.Ok) : InRange (execRxClaim s) := by
  obtain ⟨-, -, -, hlen, -⟩ := hs.rx
  exact mainLoopAccess_inRange
    (orOutOfRange_inRange ⟨_, memReadList_eq (.inr (by simpa [spaceSize] using hlen))⟩ fun _ => .next _)

theorem execRxReadBuf_inRange (j : Nat) (s : State) : InRange (execRxReadBuf j s) :=
  withOperands_inRange fun hw => mainLoopAccess_inRange
    (orOutOfRange_inRange ⟨_, memRead_eq (by simpa [wellFormed, spaceSize] using hw)⟩ fun _ => .next _)

/-- From a safe state no operation makes an access outside a space. -/
theorem exec_inRange {s : State} (hs : s.Ok) (i : Instr) : InRange (exec i s) := by
  cases i with
  | nibEnc v => exact execNibEnc_inRange v s
  | pack2 =>
    simp only [exec, execPack2]
    exact withOperands_inRange fun _ => .next _
  | pack => exact execPack_inRange hs ..
  | paResume => exact execPaResume_inRange ..
  | pbFrame => exact execPbFrame_inRange hs _
  | pbResume => exact execPbResume_inRange hs _
  | chConfig | chEnable =>
    simp only [exec, execChConfig, execChEnable]
    refine withOperands_inRange fun _ => ?_
    split
    · constructor
    · split <;> constructor
  | chTransmit | chDisable =>
    simp only [exec, execChTransmit, execChDisable]
    refine withOperands_inRange fun _ => ?_
    repeat' split
    all_goals constructor
  | chDelete =>
    simp only [exec, execChDelete]
    refine withOperands_inRange fun _ => ?_
    split <;> constructor
  | rxFall => exact execRxFall_inRange s
  | rxRise | rxOvf =>
    simp only [exec, execRxRise, execRxOvf]
    repeat' split
    all_goals constructor
  | rxClaim => exact execRxClaim_inRange hs
  | rxReadBuf j => exact execRxReadBuf_inRange j s
  | rxReadLen | rxClearLen | rxReadActive => exact mainLoopAccess_inRange (.next _)
  | paReset | pbReset | rxReset | rxTick => exact .next _

/-! ### Inputs -/

theorem runWord_inRange {s : State} (hs : s.Ok) (ag : Agent) (w : Byte) (ports : Ports) (f : Hw) :
    InRange (runWord ag w ports f s) := by
  unfold runWord
  split
  · constructor
  next i _ =>
    have hexec : InRange (exec i (s.setIssue ⟨ag, f⟩)) := exec_inRange (hs.setIssue _) i
    unfold runInstr
    repeat' split
    · constructor
    · constructor
    · constructor
    · exact takeInterrupt_inRange hexec
    · exact hexec

theorem txResume_inRange {s : State} (hs : s.Ok) (c : Chan) (f : Hw) (b : Nat) :
    InRange (txResume c f b s) := by
  unfold txResume
  split
  · constructor
  · split
    · constructor
    · split
      · exact resumeStep_inRange (withOperands_inRange fun hw =>
          paResumeCall_inRange (len_le_of_paResume_wellFormed hw))
      · exact resumeStep_inRange (withOperands_inRange fun _ => pbResumeCall_inRange hs)

theorem sendNext_inRange (c : Chan) (x : Send) (s : State) : InRange (sendNext c x s) := by
  have hmove : ∀ okStage failStage, InRange (sendMove c x okStage failStage s) := by
    intro okStage failStage
    unfold sendMove
    split <;> constructor
  cases hx : x.stage with
  | prepare =>
    simp only [sendNext, hx]
    split <;> constructor
  | config | enable | transmit | disable | delete =>
    simp only [sendNext, hx]
    exact hmove _ _
  | blocked | release =>
    simp only [sendNext, hx]
    constructor

theorem sendAdvance_inRange {s : State} (hs : s.Ok) (c : Chan) (f : Hw) :
    InRange (sendAdvance c f s) := by
  unfold sendAdvance
  repeat' split
  · constructor
  · constructor
  · constructor
  · exact andThen_inRange (exec_inRange (hs.setIssue _) _) (sendNext_inRange c _)

theorem present_inRange {s : State} (hs : s.Ok) (e : Event) : InRange (present e s) := by
  cases e with
  | op => exact runWord_inRange hs ..
  | txResume => exact txResume_inRange hs ..
  | txEnd =>
    simp only [present, txEnd]
    repeat' split
    all_goals constructor
  | readSource =>
    simp only [present, readSource]
    split <;> constructor
  | send =>
    simp only [present, sendBegin]
    split <;> constructor
  | sendStep => exact sendAdvance_inRange hs ..
  | critBegin | critEnd => exact mainLoopAccess_inRange (.next _)
  | powerOn node => cases node <;> exact .next _

/-- Settles O60: with no input a step accesses nothing, and every input keeps its accesses in range. -/
theorem noStepAccessesOutOfRange : Obligations.NoStepAccessesOutOfRange := by
  intro s hs
  rw [← inRange_iff]
  unfold step
  split
  · exact .next _
  · exact present_inRange (hs.setEvents _) _

/-! ## Critical sections -/

/-! ### The mark moves past every other update -/

@[simp] theorem State.setCrit_setPa (s : State) (b : Bool) (x : PaSession) :
    (s.setCrit b).setPa x = (s.setPa x).setCrit b := rfl
@[simp] theorem State.setCrit_setPb (s : State) (b : Bool) (x : PbSession) :
    (s.setCrit b).setPb x = (s.setPb x).setCrit b := rfl
@[simp] theorem State.setCrit_setRx (s : State) (b : Bool) (x : Rx) :
    (s.setCrit b).setRx x = (s.setRx x).setCrit b := rfl
@[simp] theorem State.setCrit_setMem (s : State) (b : Bool) (x : Memory) :
    (s.setCrit b).setMem x = (s.setMem x).setCrit b := rfl
@[simp] theorem State.setCrit_setIssue (s : State) (b : Bool) (x : Issue) :
    (s.setCrit b).setIssue x = (s.setIssue x).setCrit b := rfl
@[simp] theorem State.setCrit_setFresh (s : State) (b : Bool) (x : Nat) :
    (s.setCrit b).setFresh x = (s.setFresh x).setCrit b := rfl
@[simp] theorem State.setCrit_answer (s : State) (b : Bool) (r : Result) :
    (s.setCrit b).answer r = (s.answer r).setCrit b := rfl
@[simp] theorem State.setCrit_setCh (s : State) (b : Bool) (c : Chan) (x : Channel) :
    (s.setCrit b).setCh c x = (s.setCh c x).setCrit b := by
  cases c <;> rfl
@[simp] theorem State.setCrit_setSend (s : State) (b : Bool) (c : Chan) (x : Option Send) :
    (s.setCrit b).setSend c x = (s.setSend c x).setCrit b := by
  cases c <;> rfl

@[simp] theorem finishTransmit_setCrit (c : Chan) (st : Status) (s : State) (b : Bool) :
    finishTransmit c st (s.setCrit b) = (finishTransmit c st s).setCrit b := by
  cases c <;> rfl
@[simp] theorem stagePairs_setCrit (c : Chan) (t : Transmit) (out : List Pair) (st : ResumeStatus)
    (s : State) (b : Bool) :
    stagePairs c t out st (s.setCrit b) = (stagePairs c t out st s).setCrit b := by
  cases c <;> rfl
@[simp] theorem packAnswer_setCrit (s : State) (b : Bool) (r : Status × Nat × Memory) :
    packAnswer (s.setCrit b) r = (packAnswer s r).setCrit b := by
  obtain ⟨st, -⟩ := r
  cases st <;> rfl
@[simp] theorem frameAnswer_setCrit (s : State) (b : Bool) (n : Nat) (r : Status × Nat × Memory) :
    frameAnswer (s.setCrit b) n r = (frameAnswer s n r).setCrit b := by
  obtain ⟨st, -⟩ := r
  cases st <;> rfl
@[simp] theorem bootJump_setCrit (s : State) (b : Bool) :
    bootJump (s.setCrit b) = (bootJump s).setCrit b := rfl
@[simp] theorem sourceStored_setCrit (c : Chan) (bytes : List Byte) (s : State) (b : Bool) :
    sourceStored c bytes (s.setCrit b) = (sourceStored c bytes s).setCrit b := rfl
@[simp] theorem appendBit_setCrit (bit : Bool) (s : State) (b : Bool) :
    appendBit bit (s.setCrit b) = (appendBit bit s).map (·.setCrit b) := by
  simp only [appendBit_eq, apply_ite (Option.map _), Option.map_some]
  rfl

/-! ### A change of the next state moves past every shared operation -/

@[simp] theorem mapNext_next (g : State → State) (s : State) : mapNext g (.next s) = .next (g s) := rfl
@[simp] theorem mapNext_refused (g : State → State) (r : Refusal) :
    mapNext g (.refused r) = .refused r := rfl
@[simp] theorem mapNext_fault (g : State → State) (r : Fault) : mapNext g (.fault r) = .fault r := rfl

@[simp] theorem mapNext_ite (g : State → State) (p : Prop) [Decidable p] (o o' : StepOut State) :
    mapNext g (if p then o else o') = if p then mapNext g o else mapNext g o' :=
  apply_ite ..

/-- The step reads the mark of a critical section nowhere and leaves it as it is: inside a section it does what
it would do outside (R84). -/
def CritBlind (run : State → StepOut State) : Prop :=
  ∀ (b : Bool) (s : State), run (s.setCrit b) = mapNext (·.setCrit b) (run s)

@[simp] theorem mapNext_orOutOfRange {α : Type} (g : State → State) (o : Option α) (k : α → StepOut State) :
    mapNext g (orOutOfRange o k) = orOutOfRange o fun x => mapNext g (k x) := by
  cases o <;> rfl

@[simp] theorem mapNext_withOperands (g : State → State) (i : Instr) (s : State) (k : StepOut State) :
    mapNext g (withOperands i s k) = withOperands i s (mapNext g k) := by
  unfold withOperands
  split <;> rfl

@[simp] theorem mapNext_mainLoopAccess (g : State → State) (s : State) (k : StepOut State) :
    mapNext g (mainLoopAccess s k) = mainLoopAccess s (mapNext g k) := by
  unfold mainLoopAccess
  split <;> rfl

theorem mapNext_resumeStep_setCrit (c : Chan) (f : Hw) (n : Nat) (b : Bool) (s : State) (call : StepOut State) :
    mapNext (·.setCrit b) (resumeStep c f n s call) =
      resumeStep c f n (s.setCrit b) (mapNext (·.setCrit b) call) := by
  cases f with
  | eHw => simp [resumeStep]
  | ok => simp only [resumeStep, mapNext_ite, mapNext_refused, State.setCrit_ch]

theorem andThen_setCrit {run k : State → StepOut State} (hrun : CritBlind run) (hk : CritBlind k) (b : Bool)
    (s : State) : andThen (run (s.setCrit b)) k = mapNext (·.setCrit b) (andThen (run s) k) := by
  rw [hrun b s]
  cases run s with
  | next t => exact hk b t
  | fault r => rfl
  | refused r => rfl

@[simp] theorem orOutOfRange_map {α β : Type} (g : α → β) (o : Option α) (k : β → StepOut State) :
    orOutOfRange (o.map g) k = orOutOfRange o fun x => k (g x) := by
  cases o <;> rfl

/-! ### What the mark does not decide -/

@[simp] theorem withOperands_setCrit (i : Instr) (s : State) (b : Bool) (k : StepOut State) :
    withOperands i (s.setCrit b) k = withOperands i s k := rfl
@[simp] theorem mainLoopAccess_setCrit (s : State) (b : Bool) (k : StepOut State) :
    mainLoopAccess (s.setCrit b) k = mainLoopAccess s k := rfl
@[simp] theorem resumeTarget_setCrit (s : State) (b : Bool) (e : Enc) :
    resumeTarget (s.setCrit b) e = resumeTarget s e := rfl
@[simp] theorem pinTaken_setCrit (s : State) (b : Bool) (c : Chan) :
    pinTaken (s.setCrit b) c = pinTaken s c := by
  simp [pinTaken]
@[simp] theorem agentBlocked_setCrit (s : State) (b : Bool) (ag : Agent) :
    agentBlocked (s.setCrit b) ag = agentBlocked s ag := by
  cases ag with
  | txCaller x => simp [agentBlocked, callerBlocked]
  | txPeriph | rxIsr | rxMain | env | nodeReset => rfl
@[simp] theorem callerBlocked_setCrit (s : State) (b : Bool) (c : Chan) :
    callerBlocked (s.setCrit b) c = callerBlocked s c := by
  simp [callerBlocked]

@[simp] theorem outOfPlace_setCrit (s : State) (b : Bool) (i : Instr) :
    outOfPlace (s.setCrit b) i = outOfPlace s i := rfl
@[simp] theorem sourceCount_setCrit (c : Chan) (bytes : List Byte) (s : State) (b : Bool) :
    sourceCount c bytes (s.setCrit b) = sourceCount c bytes s := rfl
@[simp] theorem sourceWarnings_setCrit (c : Chan) (bytes : List Byte) (s : State) (b : Bool) :
    sourceWarnings c bytes (s.setCrit b) = sourceWarnings c bytes s := rfl

/-! ### Operations -/

theorem paResumeCall_setCrit {n m : Nat} {b : Bool} {s : State}
    {k : List Pair → ResumeStatus → State → State}
    (hk : ∀ out st u, k out st (u.setCrit b) = (k out st u).setCrit b) :
    paResumeCall n m (s.setCrit b) k = mapNext (·.setCrit b) (paResumeCall n m s k) := by
  simp [paResumeCall, hk]

theorem pbResumeCall_setCrit {m : Nat} {b : Bool} {s : State}
    {k : List Pair → ResumeStatus → State → State}
    (hk : ∀ out st u, k out st (u.setCrit b) = (k out st u).setCrit b) :
    pbResumeCall m (s.setCrit b) k = mapNext (·.setCrit b) (pbResumeCall m s k) := by
  simp [pbResumeCall, hk]

theorem execPaResume_critBlind (n m : Nat) : CritBlind (execPaResume n m) := by
  intro b s
  simp only [execPaResume, withOperands_setCrit, mapNext_withOperands, resumeTarget_setCrit]
  congr 1
  split
  · rw [mapNext_resumeStep_setCrit, paResumeCall_setCrit (by simp), State.setCrit_issue]
  · exact paResumeCall_setCrit (by simp)

theorem execPbResume_critBlind (m : Nat) : CritBlind (execPbResume m) := by
  intro b s
  simp only [execPbResume, withOperands_setCrit, mapNext_withOperands, resumeTarget_setCrit]
  congr 1
  split
  · rw [mapNext_resumeStep_setCrit, pbResumeCall_setCrit (by simp), State.setCrit_issue]
  · exact pbResumeCall_setCrit (by simp)

/-- No operation reads the mark: what masks a handler is the interrupt entry (R309). -/
theorem exec_critBlind (i : Instr) : CritBlind (exec i) := by
  intro b s
  cases i with
  | nibEnc | pack2 | pack => simp [exec, execNibEnc, execPack2, execPack]
  | paReset | pbReset | pbFrame => simp [exec, execPaReset, execPbReset, execPbFrame]
  | paResume => exact execPaResume_critBlind _ _ b s
  | pbResume => exact execPbResume_critBlind _ b s
  | chConfig | chEnable => cases hf : s.issue.f <;> simp [exec, execChConfig, execChEnable, hf]
  | chTransmit | chDisable | chDelete => simp [exec, execChTransmit, execChDisable, execChDelete]
  | rxReset | rxTick | rxFall => simp [exec, execRxReset, execRxTick, execRxFall]
  | rxRise | rxOvf =>
    simp only [exec, execRxRise, execRxOvf, mapNext_ite, mapNext_next, mapNext_refused]
    rfl
  | rxClaim | rxReadLen | rxReadBuf | rxClearLen | rxReadActive =>
    simp [exec, execRxClaim, execRxReadLen, execRxReadBuf, execRxClearLen, execRxReadActive]

/-! ### Inputs -/

theorem runInstr_critBlind {ag : Agent} (hag : ag ≠ .rxIsr) (i : Instr) (f : Hw) :
    CritBlind (runInstr ag i f) := by
  intro b s
  have hexec := exec_critBlind i b (s.setIssue ⟨ag, f⟩)
  simp [runInstr, hag, hexec]

theorem txResume_critBlind (c : Chan) (f : Hw) (m : Nat) : CritBlind (txResume c f m) := by
  intro b s
  simp only [txResume, State.setCrit_ch]
  split
  · rfl
  next t _ =>
    split
    · rfl
    · split
      · rw [mapNext_resumeStep_setCrit, mapNext_withOperands, paResumeCall_setCrit (by simp),
          withOperands_setCrit]
      · rw [mapNext_resumeStep_setCrit, mapNext_withOperands, pbResumeCall_setCrit (by simp),
          withOperands_setCrit]

theorem txEnd_critBlind (c : Chan) (f : Hw) : CritBlind (txEnd c f) := by
  intro b s
  simp only [txEnd, State.setCrit_ch]
  split
  · rfl
  · simp

theorem sendMove_critBlind (c : Chan) (x : Send) (okStage failStage : SendStage) :
    CritBlind (sendMove c x okStage failStage) := by
  intro b s
  simp [sendMove]

theorem sendReturn_critBlind (c : Chan) (st : Status) (w : Warn) : CritBlind (sendReturn c st w) := by
  intro b s
  simp [sendReturn]

theorem sendNext_critBlind (c : Chan) (x : Send) : CritBlind (sendNext c x) := by
  intro b s
  cases hx : x.stage with
  | prepare => simp [sendNext, hx, sendReturn_critBlind c _ _ b s]
  | config | enable | transmit | disable | delete =>
    simp only [sendNext, hx]
    exact sendMove_critBlind _ _ _ _ b s
  | blocked => simp [sendNext, hx]
  | release => simp [sendNext, hx, sendReturn_critBlind c _ _ b s]

theorem sendAdvance_critBlind (c : Chan) (f : Hw) : CritBlind (sendAdvance c f) := by
  intro b s
  simp only [sendAdvance, State.setCrit_send, State.setCrit_params, State.setCrit_chA, State.setCrit_chB]
  split
  · rfl
  · split
    · rfl
    · rw [mapNext_ite, mapNext_refused, State.setCrit_setIssue,
        andThen_setCrit (exec_critBlind _) (sendNext_critBlind c _)]
      rfl

/-- Of the inputs only a handler, the marks themselves and the receiving node's power-on see the mark. -/
theorem present_critBlind {e : Event} (hisr : ∀ w ports f, e ≠ .op .rxIsr w ports f)
    (hbegin : e ≠ .critBegin) (hend : e ≠ .critEnd) (hpower : e ≠ .powerOn .receiving) :
    CritBlind (present e) := by
  intro b s
  cases e with
  | op ag w ports f =>
    simp only [present, runWord]
    split
    · rfl
    · exact runInstr_critBlind (fun h => hisr w ports f (by rw [h])) _ f b s
  | txResume => exact txResume_critBlind _ _ _ b s
  | txEnd => exact txEnd_critBlind _ _ b s
  | readSource => simp [present, readSource]
  | send => simp [present, sendBegin]
  | sendStep => exact sendAdvance_critBlind _ _ b s
  | critBegin => exact absurd rfl hbegin
  | critEnd => exact absurd rfl hend
  | powerOn node =>
    cases node with
    | transmitting => rfl
    | receiving => exact absurd rfl hpower

/-! ### The marks and the handlers -/

/-- A mark is set while the node runs its application, and nothing else changes (R84). -/
theorem markCritical_next {s : State} (hboot : s.rx.booted = false) (on : Bool) :
    ∃ t, markCritical on s = .next t ∧ t.crit = on ∧ SameBut [.crit] s t :=
  ⟨(s.setCrit on).answer .none, mainLoopAccess_ok hboot, rfl,
    (SameBut.setCrit _ _).trans ((SameBut.answer _ _).mono (by simp))⟩

/-- A handler's word runs its operation through the interrupt entry. -/
theorem runWord_handler {w : Byte} {i : Instr}
    (hw : (w, i) ∈ ([(0x42, .rxFall), (0x43, .rxRise), (0x44, .rxOvf)] : List (Byte × Instr)))
    (ports : Ports) (f : Hw) (s : State) :
    runWord .rxIsr w ports f s = takeInterrupt (exec i) (s.setIssue ⟨.rxIsr, f⟩) := by
  simp only [List.mem_cons, Prod.mk.injEq, List.not_mem_nil, or_false] at hw
  obtain ⟨rfl, rfl⟩ | ⟨rfl, rfl⟩ | ⟨rfl, rfl⟩ := hw <;> rfl

/-- Settles O7: a handler is masked by the interrupt entry alone, and no other input reads the mark. -/
theorem criticalSectionMasksHandlers : Obligations.CriticalSectionMasksHandlers := by
  refine ⟨fun s w i ports f es hw hboot => ⟨markCritical_next hboot true, markCritical_next hboot false,
    fun hcrit => ?_, fun hcrit => ?_, fun hevents => ?_⟩, fun s e hisr hbegin hend hpower => ?_⟩
  · rw [present, runWord_handler hw, takeInterrupt, State.setIssue_crit, hcrit]
    rfl
  · exact ⟨_, rfl, hcrit, rfl⟩
  · refine ⟨((s.setEvents (.op .rxIsr w ports f :: es)).setCrit false).answer .none, ?_, ?_⟩
    · rw [step, hevents]
      exact mainLoopAccess_ok hboot
    · exact runWord_handler hw ports f _
  · exact present_critBlind hisr hbegin hend hpower true (s.setCrit false)

/-! ## Ownership -/

/-! ### What a send's step writes -/

/-- What a send makes of an answer is its own: its stage, or its return. -/
theorem sendNext_frame {c : Chan} {x : Send} {s t : State} (h : sendNext c x s = .next t) :
    SameBut [.send c] s t := by
  have hmove : ∀ {okStage failStage}, sendMove c x okStage failStage s = .next t → SameBut [.send c] s t := by
    intro okStage failStage h
    unfold sendMove at h
    split at h <;> cases h <;> exact SameBut.setSend _ _ _
  have hreturn : ∀ {st w}, sendReturn c st w s = .next t → SameBut [.send c] s t := by
    intro st w h
    cases h
    exact (SameBut.setSend _ _ _).trans ((SameBut.answer _ _).mono (by simp))
  cases hx : x.stage with
  | prepare =>
    simp only [sendNext, hx] at h
    split at h
    · cases h; exact SameBut.setSend _ _ _
    · exact hreturn h
  | config | enable | transmit | disable | delete =>
    simp only [sendNext, hx] at h
    exact hmove h
  | blocked => simp [sendNext, hx] at h
  | release =>
    simp only [sendNext, hx] at h
    exact hreturn h

/-- What a send may write: the channel, the session and the frame buffer of its own protocol, and the counter
of free values. -/
def sendParts (c : Chan) : List Part :=
  .ch c :: .fresh ::
    match c with
    | .a => [.pa]
    | .b => [.pb, .space .outB]

/-- A send issues operations on its own protocol's pieces alone. -/
theorem writes_sendOp_subset {p : Params} {c : Chan} {x : Send} {i : Instr} (s : State)
    (h : sendOp p c x = some i) : writes s i ⊆ sendParts c := by
  unfold sendOp at h
  split at h <;> cases h <;> simp [writes, sendParts]

/-- A step of a send writes its own protocol's pieces, and the send. -/
theorem sendAdvance_frame {c : Chan} {f : Hw} {s t : State} (h : sendAdvance c f s = .next t) :
    SameBut (.issue :: .send c :: sendParts c) s t := by
  obtain ⟨x, i, u, -, hi, -, -, hexec, hnext⟩ := sendAdvance_next h
  have hwrites := writes_sendOp_subset (s.setIssue ⟨.txCaller c, f⟩) hi
  refine ((SameBut.setIssue s ⟨.txCaller c, f⟩).mono (by simp)).trans
    (((exec_frame hexec).mono fun q hq => ?_).trans ((sendNext_frame hnext).mono (by simp)))
  exact List.mem_cons_of_mem _ (List.mem_cons_of_mem _ (hwrites hq))

/-! ### What a caller's operation writes -/

/-- A send issues only operations its caller may issue (R120). -/
theorem mayIssue_of_sendOp {p : Params} {c : Chan} {x : Send} {i : Instr} (h : sendOp p c x = some i) :
    mayIssue (.txCaller c) i = true := by
  unfold sendOp at h
  split at h <;> cases h <;> rfl

/-- What a caller's operation writes of the shared pieces is the channel and the session it is said to act
on. -/
theorem writes_of_caller {x : Chan} {i : Instr} (s : State) (h : mayIssue (.txCaller x) i = true) :
    (∀ c, .ch c ∈ writes s i → channelUsed i = some c) ∧
      (.pa ∈ writes s i → sessionUsed i = some .pa) ∧
      (.pb ∈ writes s i ∨ .space .outB ∈ writes s i → sessionUsed i = some .pb) := by
  cases i with
  | nibEnc | pack2 | pack | paReset | pbFrame | pbReset => simp [writes, sessionUsed]
  | chConfig | chEnable | chTransmit | chDisable | chDelete => simp [writes, channelUsed, eq_comm]
  | paResume | pbResume | rxReset | rxTick | rxFall | rxRise | rxOvf | rxClaim | rxReadLen | rxReadBuf
  | rxClearLen | rxReadActive => cases h

/-- What caller `y` owns reads the same in both states: its channels, its sessions, and `OUT_B` with that of
`PB` (R72, R87). -/
def KeepsOwned (y : Chan) (s t : State) : Prop :=
  (∀ c, (s.ch c).owner = some y → t.ch c = s.ch c) ∧
  (ownsSession s y .pa = true → t.pa = s.pa) ∧
  (ownsSession s y .pb = true → t.pb = s.pb ∧ ∀ i, t.mem.byteAt .outB i = s.mem.byteAt .outB i)

/-- A frame that lists nothing caller `y` owns keeps what it owns. -/
theorem keepsOwned_of_frame {y : Chan} {ps : List Part} {s t : State} (h : SameBut ps s t)
    (hch : ∀ c, (s.ch c).owner = some y → .ch c ∉ ps) (hpa : ownsSession s y .pa = true → .pa ∉ ps)
    (hpb : ownsSession s y .pb = true → .pb ∉ ps ∧ .space .outB ∉ ps) : KeepsOwned y s t :=
  ⟨fun c hc => h (.ch c) (hch c hc), fun ho => h .pa (hpa ho),
    fun ho => ⟨h .pb (hpb ho).1, h (.space .outB) (hpb ho).2⟩⟩

/-- The effect of a caller's operation that acts on nothing of the other's keeps what the other owns. -/
theorem keepsOwned_of_exec {x : Chan} {i : Instr} {f : Hw} {s t : State}
    (hag : mayIssue (.txCaller x) i = true) (hown : ownedByOther s x i = false)
    (h : exec i (s.setIssue ⟨.txCaller x, f⟩) = .next t) : KeepsOwned x.other s t := by
  obtain ⟨hch, hpa, hpb⟩ := writes_of_caller (s.setIssue ⟨.txCaller x, f⟩) hag
  simp only [ownedByOther, Bool.or_eq_false_iff] at hown
  obtain ⟨hchan, hsession⟩ := hown
  refine keepsOwned_of_frame (ps := .issue :: writes (s.setIssue ⟨.txCaller x, f⟩) i)
    (((SameBut.setIssue _ _).mono (by simp)).trans ((exec_frame h).mono (List.subset_cons_self _ _)))
    ?_ ?_ ?_
  · intro c hc hmem
    simp [hch c (by simpa using hmem), hc] at hchan
  · intro ho hmem
    simp [hpa (by simpa using hmem), ho] at hsession
  · intro ho
    constructor
    · intro hmem
      simp [hpb (.inl (by simpa using hmem)), ho] at hsession
    · intro hmem
      simp [hpb (.inr (by simpa using hmem)), ho] at hsession

/-- The rest of a send's step changes the send alone, which nobody owns. -/
theorem KeepsOwned.trans_send {y c : Chan} {s u t : State} (h : KeepsOwned y s u)
    (h' : SameBut [.send c] u t) : KeepsOwned y s t := by
  obtain ⟨hch, hpa, hpb⟩ := h
  refine ⟨fun d hd => (h' (.ch d) (by simp)).trans (hch d hd), fun ho => (h' .pa (by simp)).trans (hpa ho),
    fun ho => ?_⟩
  obtain ⟨hsession, hbuffer⟩ := hpb ho
  exact ⟨(h' .pb (by simp)).trans hsession,
    fun j => (h' (.space .outB) (by simp) j).trans (hbuffer j)⟩

/-! ### Inputs of one caller -/

theorem keepsOwned_of_op {x : Chan} {w : Byte} {ports : Ports} {f : Hw} {s t : State}
    (hwithin : WithinOwn s (.op (.txCaller x) w ports f))
    (h : present (.op (.txCaller x) w ports f) s = .next t) : KeepsOwned x.other s t := by
  simp only [present, runWord] at h
  split at h
  · cases h
  next i hi =>
    obtain ⟨hag, -, -, -, hexec⟩ := runInstr_next h
    exact keepsOwned_of_exec hag (hwithin x i (by simp [issuedBy, hi])) hexec

theorem keepsOwned_of_sendStep {x : Chan} {f : Hw} {s t : State} (hwithin : WithinOwn s (.sendStep x f))
    (h : present (.sendStep x f) s = .next t) : KeepsOwned x.other s t := by
  obtain ⟨y, i, u, hy, hi, -, -, hexec, hnext⟩ := sendAdvance_next h
  have hown : ownedByOther s x i = false := hwithin x i (by simp [issuedBy, hy, hi])
  exact (keepsOwned_of_exec (mayIssue_of_sendOp hi) hown hexec).trans_send (sendNext_frame hnext)

/-- A read of the byte source writes an input space, which nobody owns. -/
theorem keepsOwned_sourceStored (y c : Chan) (bytes : List Byte) (s : State) :
    KeepsOwned y s (sourceStored c bytes s) :=
  keepsOwned_of_frame (sourceStored_frame c bytes s) (by simp) (by simp) (by cases c <;> simp [inputSpace])

theorem keepsOwned_of_readSource {x : Chan} {bytes : List Byte} {s t : State}
    (h : present (.readSource x bytes) s = .next t) : KeepsOwned x.other s t := by
  simp only [present, readSource] at h
  split at h
  · cases h
  · cases h
    exact (keepsOwned_sourceStored x.other x bytes s).trans_send (c := x)
      ((SameBut.answer _ _).mono (by simp))

theorem keepsOwned_of_send {x : Chan} {bytes : List Byte} {order : ResetOrder} {s t : State}
    (h : present (.send x bytes order) s = .next t) : KeepsOwned x.other s t := by
  simp only [present, sendBegin] at h
  split at h
  · cases h
  · cases h
    exact (keepsOwned_sourceStored x.other x bytes s).trans_send
      ((SameBut.setSend _ _ _).trans ((SameBut.answer _ _).mono (by simp)))

/-! ### Which encoder each transmit drives -/

/-- With one channel replaced, no session is driven twice if its transmit and the other channel's differ. -/
theorem singlyDriven_setCh {c : Chan} {x : Channel} {s : State}
    (h : ∀ u v, x.tx = some u → (s.ch c.other).tx = some v → v.enc ≠ u.enc) :
    SinglyDriven (s.setCh c x) := by
  cases c with
  | a => exact fun u v hu hv => (h u v hu hv).symm
  | b => exact fun u v hu hv => h v u hv hu

/-- Every transmit of `t` was in progress on its channel in `s`, with the same encoder. -/
def BeginsNoTransmit (s t : State) : Prop :=
  ∀ c u, (t.ch c).tx = some u → ∃ v, (s.ch c).tx = some v ∧ v.enc = u.enc

theorem BeginsNoTransmit.singlyDriven {s t : State} (h : BeginsNoTransmit s t) (hs : SinglyDriven s) :
    SinglyDriven t := by
  intro u v hu hv
  obtain ⟨u', hu', heu⟩ := h .a u hu
  obtain ⟨v', hv', hev⟩ := h .b v hv
  rw [← heu, ← hev]
  exact hs u' v' hu' hv'

theorem beginsNoTransmit_of_ch {s t : State} (h : ∀ c, t.ch c = s.ch c) : BeginsNoTransmit s t := by
  intro c u hu
  rw [h c] at hu
  exact ⟨u, hu, rfl⟩

/-- One channel's change begins no transmit where that channel's own transmit is gone or drives what it did. -/
theorem beginsNoTransmit_of_channel {c : Chan} {s t : State} (hother : t.ch c.other = s.ch c.other)
    (hc : ∀ u, (t.ch c).tx = some u → ∃ v, (s.ch c).tx = some v ∧ v.enc = u.enc) :
    BeginsNoTransmit s t := by
  intro d
  by_cases hd : d = c
  · subst hd
    exact hc
  · obtain rfl : d = c.other := by
      cases c <;> cases d <;> simp_all
    rw [hother]
    exact fun u hu => ⟨u, hu, rfl⟩

theorem beginsNoTransmit_setCh {c : Chan} {x : Channel} {s : State}
    (hx : ∀ u, x.tx = some u → ∃ v, (s.ch c).tx = some v ∧ v.enc = u.enc) :
    BeginsNoTransmit s (s.setCh c x) :=
  beginsNoTransmit_of_channel (State.setCh_ch_other ..) (by simpa using hx)

theorem finishTransmit_beginsNone (c : Chan) (st : Status) (s : State) :
    BeginsNoTransmit s (finishTransmit c st s) :=
  beginsNoTransmit_of_channel (finishTransmit_ch_other c st s) (by simp [finishTransmit_ch])

theorem stagePairs_beginsNone {c : Chan} {x : Transmit} {s : State} (hx : (s.ch c).tx = some x)
    (out : List Pair) (st : ResumeStatus) : BeginsNoTransmit s (stagePairs c x out st s) := by
  refine beginsNoTransmit_of_channel (stagePairs_ch_other c x out st s) fun u hu => ⟨x, hx, ?_⟩
  rw [stagePairs_ch] at hu
  cases hu
  rfl

/-- Only `CH_TRANSMIT` begins a transmit (R264). -/
theorem exec_beginsNone {i : Instr} {s t : State} (hi : ∀ c enc len, i ≠ .chTransmit c enc len)
    (h : exec i s = .next t) : BeginsNoTransmit s t := by
  cases i with
  | nibEnc | pack2 | pack | paReset | pbFrame | pbReset | rxReset | rxTick | rxFall | rxRise | rxOvf
  | rxClaim | rxReadLen | rxReadBuf | rxClearLen | rxReadActive =>
    exact beginsNoTransmit_of_ch fun c => exec_frame h (.ch c) (by simp [writes])
  | paResume n b =>
    obtain ⟨-, ⟨-, r, -, rfl⟩ | ⟨c, x, htarget, rfl | ⟨r, -, rfl⟩⟩⟩ := execPaResume_next h
    · exact beginsNoTransmit_of_ch (by simp)
    · exact finishTransmit_beginsNone _ _ _
    · exact stagePairs_beginsNone (s := s.setPa r.2.2) (by simpa using (resumeTarget_some htarget).1) _ _
  | pbResume b =>
    obtain ⟨-, ⟨-, r, -, rfl⟩ | ⟨c, x, htarget, rfl | ⟨r, -, rfl⟩⟩⟩ := execPbResume_next h
    · exact beginsNoTransmit_of_ch (by simp)
    · exact finishTransmit_beginsNone _ _ _
    · exact stagePairs_beginsNone (s := s.setPb r.2.2) (by simpa using (resumeTarget_some htarget).1) _ _
  | chConfig c =>
    obtain ⟨-, -, ⟨-, rfl⟩ | ⟨-, rfl⟩⟩ := execChConfig_next h
    · exact beginsNoTransmit_of_ch (by simp)
    · exact beginsNoTransmit_setCh (x := ⟨_, _, _, _, _, _, none, _⟩) nofun
  | chEnable c =>
    obtain ⟨-, ⟨-, rfl⟩ | ⟨-, rfl⟩⟩ := execChEnable_next h
    · exact beginsNoTransmit_of_ch (by simp)
    · exact beginsNoTransmit_setCh (x := { s.ch c with state := .enabled }) fun u hu => ⟨u, hu, rfl⟩
  | chDisable c =>
    obtain ⟨-, -, ⟨-, rfl⟩ | ⟨-, rfl⟩⟩ := execChDisable_next h
    · exact beginsNoTransmit_of_ch (by simp)
    · exact beginsNoTransmit_setCh (x := { s.ch c with state := .disabled }) fun u hu => ⟨u, hu, rfl⟩
  | chDelete c =>
    obtain ⟨-, rfl⟩ := execChDelete_next h
    exact beginsNoTransmit_setCh (x := channelAbsent _) nofun
  | chTransmit c enc len => exact absurd rfl (hi c enc len)

/-- The transmits in progress leave encoder `e` to the caller that begins the next one. -/
theorem enc_ne_of_unowned {x : Chan} {e : Enc} {s : State} (hA : transmitBlocks x s.chA.tx = false)
    (hB : transmitBlocks x s.chB.tx = false) (ho : ownsSession s x.other e = false) {c : Chan}
    {u : Transmit} (hu : (s.ch c).tx = some u) : u.enc ≠ e := by
  refine not_ownsSession ho c u hu ?_
  have hcaller : u.caller ≠ x := by
    cases c with
    | a =>
      rw [show s.chA.tx = some u from hu] at hA
      simpa [transmitBlocks] using hA
    | b =>
      rw [show s.chB.tx = some u from hu] at hB
      simpa [transmitBlocks] using hB
  cases x <;> cases hc : u.caller <;> simp_all

/-- The operation of a caller that no transmit blocks and that keeps to its own leaves every session driven
once. -/
theorem exec_singlyDriven {x : Chan} {i : Instr} {f : Hw} {s t : State} (hs : SinglyDriven s)
    (hA : transmitBlocks x s.chA.tx = false) (hB : transmitBlocks x s.chB.tx = false)
    (hown : ownedByOther s x i = false) (h : exec i (s.setIssue ⟨.txCaller x, f⟩) = .next t) :
    SinglyDriven t := by
  by_cases hi : ∃ c enc len, i = .chTransmit c enc len
  · obtain ⟨c, enc, len, rfl⟩ := hi
    obtain ⟨-, -, -, -, -, rfl⟩ := execChTransmit_next h
    simp only [ownedByOther, sessionUsed, Bool.or_eq_false_iff] at hown
    obtain ⟨-, ho⟩ := hown
    refine singlyDriven_setCh fun u v hu hv => ?_
    cases hu
    exact enc_ne_of_unowned hA hB ho (by simpa using hv)
  · exact (exec_beginsNone (fun c enc len he => hi ⟨c, enc, len, he⟩) h).singlyDriven hs

theorem agentBlocked_txCaller {s : State} {x : Chan} (h : agentBlocked s (.txCaller x) = false) :
    transmitBlocks x s.chA.tx = false ∧ transmitBlocks x s.chB.tx = false := by
  simp only [agentBlocked, callerBlocked, Bool.or_eq_false_iff] at h
  obtain ⟨⟨-, hA⟩, hB⟩ := h
  exact ⟨hA, hB⟩

/-- Only a caller may begin a transmit (R120). -/
theorem runInstr_singlyDriven {ag : Agent} {i : Instr} {f : Hw} {s t : State} (hs : SinglyDriven s)
    (hown : ∀ x, ag = .txCaller x → ownedByOther s x i = false) (h : runInstr ag i f s = .next t) :
    SinglyDriven t := by
  obtain ⟨hag, hfree, -, -, hexec⟩ := runInstr_next h
  cases ag with
  | txCaller x =>
    obtain ⟨hA, hB⟩ := agentBlocked_txCaller hfree
    exact exec_singlyDriven hs hA hB (hown x rfl) hexec
  | txPeriph | rxIsr | rxMain | env | nodeReset =>
    refine (exec_beginsNone ?_ hexec).singlyDriven hs
    rintro c enc len rfl
    cases hag

theorem sendAdvance_singlyDriven {c : Chan} {f : Hw} {s t : State} (hs : SinglyDriven s)
    (hwithin : WithinOwn s (.sendStep c f)) (h : sendAdvance c f s = .next t) : SinglyDriven t := by
  obtain ⟨x, i, u, hx, hi, hA, hB, hexec, hnext⟩ := sendAdvance_next h
  have hu : SinglyDriven u :=
    exec_singlyDriven hs hA hB (hwithin c i (by simp [issuedBy, hx, hi])) hexec
  exact (beginsNoTransmit_of_ch fun d => sendNext_frame hnext (.ch d) (by simp)).singlyDriven hu

theorem txResume_beginsNone {c : Chan} {f : Hw} {b : Nat} {s t : State}
    (h : txResume c f b s = .next t) : BeginsNoTransmit s t := by
  obtain ⟨x, hx, -, ⟨-, rfl⟩ | ⟨-, -, -, -, r, -, rfl⟩ | ⟨-, -, -, r, -, rfl⟩⟩ := txResume_next h
  · exact finishTransmit_beginsNone _ _ _
  · exact stagePairs_beginsNone (s := s.setPa r.2.2) (by simpa using hx) _ _
  · exact stagePairs_beginsNone (s := s.setPb r.2.2) (by simpa using hx) _ _

theorem present_singlyDriven {e : Event} {s t : State} (hs : SinglyDriven s) (hwithin : WithinOwn s e)
    (h : present e s = .next t) : SinglyDriven t := by
  cases e with
  | op ag w ports f =>
    simp only [present, runWord] at h
    split at h
    · cases h
    next i hi =>
      refine runInstr_singlyDriven hs (fun x hx => hwithin x i ?_) h
      simp [issuedBy, hx, hi]
  | txResume => exact (txResume_beginsNone h).singlyDriven hs
  | txEnd =>
    obtain ⟨-, -, -, rfl⟩ := txEnd_next h
    exact (finishTransmit_beginsNone _ _ _).singlyDriven hs
  | readSource c bytes =>
    simp only [present, readSource] at h
    split at h <;> cases h
    exact hs
  | send c bytes order =>
    simp only [present, sendBegin] at h
    split at h <;> cases h
    exact (beginsNoTransmit_of_ch (by simp [sourceStored])).singlyDriven hs
  | sendStep => exact sendAdvance_singlyDriven hs hwithin h
  | critBegin | critEnd =>
    obtain ⟨-, h⟩ := mainLoopAccess_next.mp h
    cases h
    exact hs
  | powerOn node =>
    cases node with
    | transmitting =>
      cases h
      exact nofun
    | receiving =>
      cases h
      exact hs

/-! ### The obligation -/

/-- A channel that has an owner exists, and one that exists cannot be configured (R260). -/
theorem execChConfig_owned {s : State} {c y : Chan} {carrier res depth pin : Nat} {duty : Duty}
    (hok : (s.ch c).Ok) (howner : (s.ch c).owner = some y) (hdepth : 1 ≤ depth) :
    execChConfig c carrier duty res depth pin s = .refused .lifecycle := by
  obtain ⟨-, -, -, habsent⟩ := hok
  have hexists : (s.ch c).state ≠ .absent := fun h => by
    rw [habsent.mp h] at howner
    cases howner
  rw [execChConfig, withOperands_ok (by simpa [wellFormed] using hdepth), if_pos hexists]

/-- Settles O35: its four clauses are the refusal of an owned channel, the frame of a send's step, what a
caller's inputs keep of the other's, and the invariant that no session is driven twice. -/
theorem callersWithinTheirOwnLeaveTheOthers : Obligations.CallersWithinTheirOwnLeaveTheOthers := by
  refine ⟨fun s c y carrier res depth pin duty => execChConfig_owned, fun s t c f h => ?_,
    fun s t x e he hwithin h => ?_, fun s t e => present_singlyDriven⟩
  · have hframe := sendAdvance_frame h
    cases c with
    | a => exact ⟨hframe (.ch .b) (by simp [sendParts]), nofun,
        fun _ => ⟨hframe .pb (by simp [sendParts]), hframe (.space .outB) (by simp [sendParts])⟩⟩
    | b => exact ⟨hframe (.ch .a) (by simp [sendParts]), fun _ => hframe .pa (by simp [sendParts]), nofun⟩
  · show KeepsOwned x.other s t
    obtain ⟨w, ports, f, rfl⟩ | ⟨bytes, rfl⟩ | ⟨bytes, order, rfl⟩ | ⟨f, rfl⟩ := he
    · exact keepsOwned_of_op hwithin h
    · exact keepsOwned_of_readSource h
    · exact keepsOwned_of_send h
    · exact keepsOwned_of_sendStep hwithin h

end Sys2Proof.Machine
end

section
/-! PROOFS of the family `30_encoding`, operation by operation: decoding and encoding
(`DecodeAndEncodeAgree`, `WordsOfEveryUnitDecode`), what is refused (`UnusedWordsAndOperandsRefused`,
`UnlistedAgentsRefused`), packed groups (`PackTwoReturnsPackedGroup`, `PackWritesEveryGroup`) and the durations of
the symbols (`DurationsFitTheHardware`). -/

namespace Sys2Proof.Machine

/-! ## Operation words -/

/-- Only one byte is an operation word (R119). -/
theorem decode_eq_ok_iff {bytes : List Byte} {ports : Ports} {i : Instr} :
    decode bytes ports = .ok i ↔ ∃ w, bytes = [w] ∧ decodeOp w ports = .ok i := by
  unfold decode
  split
  · simp
  next bs hbs =>
    simp only [reduceCtorEq, false_iff]
    rintro ⟨w, rfl, -⟩
    exact hbs w rfl

/-- The word of an operation decodes to it where the ports carry its operands. -/
theorem decodeOp_opWord {ports : Ports} {i : Instr} (h : carries ports i) :
    decodeOp (opWord i) ports = .ok i := by
  cases i with
  | paReset | pbReset | rxReset | rxTick | rxFall | rxRise | rxOvf | rxClaim | rxReadLen | rxClearLen
  | rxReadActive => rfl
  | nibEnc | pbFrame | pbResume | chEnable | chDisable | chDelete | rxReadBuf =>
    subst h
    simp only [opWord]
    rfl
  | pack2 | paResume =>
    obtain ⟨rfl, rfl⟩ := h
    simp only [opWord]
    rfl
  | chTransmit =>
    obtain ⟨rfl, rfl, rfl⟩ := h
    simp only [opWord]
    rfl
  | pack | chConfig =>
    obtain ⟨rfl, rfl, rfl, rfl, rfl, rfl⟩ := h
    simp only [opWord]
    rfl

/-- An operation's operands are those on its ports (R117). -/
theorem carries_of_decodeOp {w : Byte} {ports : Ports} {i : Instr} (h : decodeOp w ports = .ok i) :
    carries ports i := by
  unfold decodeOp at h
  split at h <;> cases h <;> simp [carries]

/-- Settles O1: a word that decodes is its operation's, with the operands on the ports; and that word decodes
back. -/
theorem decodeAndEncodeAgree : Obligations.DecodeAndEncodeAgree := by
  intro bytes ports i
  constructor
  · intro h
    obtain ⟨w, rfl, hw⟩ := decode_eq_ok_iff.mp h
    exact ⟨congrArg (fun v => [v]) (eq_opWord_of_decode h), carries_of_decodeOp hw⟩
  · rintro ⟨rfl, hcarries⟩
    exact decodeOp_opWord hcarries

/-- Settles O3: each word is its operation's with the operands on their ports; the last two are a word outside
the map and one of two bytes. -/
theorem wordsOfEveryUnitDecode : Obligations.WordsOfEveryUnitDecode := by
  have h : ∀ (i : Instr) {ports}, carries ports i → decode (encode i) ports = .ok i :=
    fun i ports hi => decodeOp_opWord hi
  exact ⟨h (.nibEnc 1) rfl, h (.pack2 0x12 0x34) ⟨rfl, rfl⟩, h (.paResume 1 4) ⟨rfl, rfl⟩, h (.pbFrame 6) rfl,
    h (.chTransmit .b .pb 0) ⟨rfl, rfl, rfl⟩, h .rxFall trivial, h (.rxReadBuf 3) rfl, rfl, rfl⟩

/-! ## Refused words, operands and agents -/

/-- A word is refused by its own name (R118). -/
theorem decodeOp_error {w : Byte} {ports : Ports} {e : DecodeError} (h : decodeOp w ports = .error e) :
    e = .unusedWord w := by
  unfold decodeOp at h
  split at h <;> cases h
  rfl

/-- The words of R120's map. -/
theorem opWord_mem (i : Instr) :
    opWord i ∈ ([0x00, 0x01, 0x02, 0x10, 0x11, 0x20, 0x21, 0x22, 0x30, 0x31, 0x32, 0x33, 0x34, 0x40, 0x41,
      0x42, 0x43, 0x44, 0x50, 0x51, 0x52, 0x53, 0x54] : List Byte) := by
  cases i <;> simp [opWord]

/-- A presented word is decoded, and its operation issued with the input consumed. -/
theorem step_op {s : State} {ag : Agent} {w : Byte} {ports : Ports} {f : Hw} {es : List Event}
    (h : s.events = .op ag w ports f :: es) : step s = runWord ag w ports f (s.setEvents es) := by
  simp only [step, h, present]

theorem withOperands_refused {i : Instr} {s : State} {k : StepOut State}
    (h : wellFormed s.params i = false) : withOperands i s k = .refused .operandRange := by
  simp [withOperands, h]

theorem fits_eq_false {v bound : Nat} : fits v bound = false ↔ bound < v := by
  rw [← Bool.not_eq_true, fits_iff, Nat.not_le]

/-- Settles O2: a word that decodes is one of the map's, and each operand beyond its range is ill-formed. -/
theorem unusedWordsAndOperandsRefused : Obligations.UnusedWordsAndOperandsRefused := by
  refine ⟨fun w ports ag f es s hw hevents => ?_, fun s v hv => ?_, fun s i hi => ?_, fun s n b h => ?_,
    fun s b hb => ?_, fun s n hn => ?_, fun s c n hn => ?_, fun s c carrier res pin duty => ?_,
    fun s src src0 n dst0 dcap h => ?_⟩
  · rw [step_op hevents]
    cases hdecode : decodeOp w ports with
    | ok i => exact absurd (eq_opWord_of_decode hdecode ▸ opWord_mem i) hw
    | error e =>
      obtain rfl := decodeOp_error hdecode
      simp only [runWord, decode, hdecode]
  · exact withOperands_refused (by simpa [wellFormed] using hv)
  · exact withOperands_refused (by simpa [wellFormed] using hi)
  · refine withOperands_refused ?_
    simp only [wellFormed, Bool.and_eq_false_iff, fits_eq_false]
    exact h.symm
  · exact withOperands_refused (by simpa [wellFormed, fits_eq_false] using hb)
  · exact withOperands_refused (by simpa [wellFormed, fits_eq_false] using hn)
  · exact withOperands_refused (by simpa [wellFormed, fits_eq_false] using hn)
  · rw [exec, execChConfig]
    exact withOperands_refused (by simp [wellFormed])
  · refine withOperands_refused ?_
    simp only [wellFormed, Bool.and_eq_false_iff, fits_eq_false]
    exact h.imp_left fun hsrc => .inl (.inr hsrc)

theorem isCaller_eq_false {ag : Agent} : isCaller ag = false ↔ ∀ c, ag ≠ .txCaller c := by
  cases ag <;> simp [isCaller]

/-- An agent that R120 does not list for an operation is refused. -/
theorem runInstr_unlisted {ag : Agent} {i : Instr} {f : Hw} {s : State} (h : mayIssue ag i = false) :
    runInstr ag i f s = .refused .wrongAgent := by
  simp [runInstr, h]

/-- So is an agent that is free to issue one, where the operation is out of its place. -/
theorem runInstr_outOfPlace {ag : Agent} {i : Instr} {f : Hw} {s : State}
    (hfree : agentBlocked s ag = false) (hplace : outOfPlace s i = true) :
    runInstr ag i f s = .refused .wrongAgent := by
  cases hag : mayIssue ag i <;> simp [runInstr, hag, hfree, hplace]

@[simp] theorem agentBlocked_setEvents (s : State) (es : List Event) (ag : Agent) :
    agentBlocked (s.setEvents es) ag = agentBlocked s ag := by
  cases ag <;> rfl

/-- Settles O5: each word names its operation, whose row has no place for the agent; `PACK` out of its place is
refused to every agent. -/
theorem unlistedAgentsRefused : Obligations.UnlistedAgentsRefused := by
  intro s ag w ports f es hevents hcases
  have hissue : ∀ {i}, decodeOp w ports = .ok i → step s = runInstr ag i f (s.setEvents es) := by
    intro i hi
    rw [step_op hevents]
    simp only [runWord, decode, hi]
  have hunlisted : ∀ {i}, decodeOp w ports = .ok i → mayIssue ag i = false →
      step s = .refused .wrongAgent := fun hi hag => (hissue hi).trans (runInstr_unlisted hag)
  simp only [List.mem_cons, List.not_mem_nil, or_false] at hcases
  obtain ⟨hw, hag⟩ | ⟨hw, hperiph, hag⟩ | ⟨hw, hag⟩ | ⟨rfl, hmain, hreset⟩ | ⟨rfl, hag⟩ | ⟨hw, hag⟩ |
    ⟨hw, hag⟩ | ⟨rfl, hloaded, hfree⟩ := hcases
  · have hcaller := isCaller_eq_false.mpr hag
    obtain rfl | rfl | rfl | rfl | rfl | rfl | rfl := hw <;> exact hunlisted rfl hcaller
  · have hlisted : (isCaller ag || ag == .txPeriph) = false := by
      simp [isCaller_eq_false.mpr hag, hperiph]
    obtain rfl | rfl := hw <;> exact hunlisted rfl hlisted
  · obtain rfl | rfl := hw <;> exact hunlisted rfl (by simpa [mayIssue] using hag)
  · exact hunlisted rfl (by simp [mayIssue, hmain, hreset])
  · exact hunlisted rfl (by simpa [mayIssue] using hag)
  · obtain rfl | rfl | rfl := hw <;> exact hunlisted rfl (by simpa [mayIssue] using hag)
  · obtain rfl | rfl | rfl | rfl | rfl := hw <;> exact hunlisted rfl (by simpa [mayIssue] using hag)
  · rw [hissue rfl]
    exact runInstr_outOfPlace (by simpa using hfree) (by simp [outOfPlace, insideFramer, hloaded])

/-! ## Packed groups -/

/-- The three bytes of a packed group, cut from its four code words (R105). -/
theorem splitGroup_append (ta tb tc td : CodeWord) :
    splitGroup (ta ++ tb ++ tc ++ td) =
      ((ta.setWidth 8 <<< 2) ||| (tb.setWidth 8 >>> 4),
        ((tb.setWidth 8 &&& 0xF) <<< 4) ||| (tc.setWidth 8 >>> 2),
        ((tc.setWidth 8 &&& 0x3) <<< 6) ||| td.setWidth 8) := by
  simp only [splitGroup, Prod.mk.injEq]
  refine ⟨?_, ?_, ?_⟩
  all_goals
    refine BitVec.eq_of_getLsbD_eq fun i hi => ?_
    simp only [BitVec.getLsbD_extractLsb', group_getLsbD]
    interval_cases i <;> simp

/-- Settles O9: the bytes cut from the group, in a state that changes its outputs alone. -/
theorem packTwoReturnsPackedGroup : Obligations.PackTwoReturnsPackedGroup := by
  intro s b0 b1 code ta tb tc td
  have hgroup : packTwo s.params b0 b1 = ((ta <<< 2) ||| (tb >>> 4),
      ((tb &&& 0xF) <<< 4) ||| (tc >>> 2), ((tc &&& 0x3) <<< 6) ||| td) := splitGroup_append _ _ _ _
  refine ⟨s.answer (.group (packTwo s.params b0 b1).1 (packTwo s.params b0 b1).2.1
    (packTwo s.params b0 b1).2.2), rfl, ?_, SameBut.answer _ _⟩
  rw [State.answer_out, hgroup]

/-- `PACK` of an even length that fits: three bytes a group, at the places R147 gives. -/
theorem execPack_even {s : State} {src : Space} {src0 n dst0 dcap : Nat}
    (hwf : wellFormed s.params (.pack src src0 n .outB dst0 dcap) = true)
    (hok : s.mem.SpaceOk s.params .outB) (heven : n % 2 = 0) (hfits : 3 * (n / 2) ≤ dcap) :
    ∃ m, execPack src src0 n .outB dst0 dcap s
        = .next ((s.setMem m).answer (.packed .ok (3 * (n / 2)))) ∧
      (∀ sp i, sp ≠ .outB ∨ i < dst0 ∨ dst0 + 3 * (n / 2) ≤ i → m.byteAt sp i = s.mem.byteAt sp i) ∧
      (src ≠ .outB ∨ src0 + n ≤ dst0 ∨ dst0 + 3 * (n / 2) ≤ src0 → ∀ g, g < n / 2 →
        (m.byteAt .outB (dst0 + 3 * g), m.byteAt .outB (dst0 + 3 * g + 1), m.byteAt .outB (dst0 + 3 * g + 2))
          = packTwo s.params (s.mem.byteAt src (src0 + 2 * g)) (s.mem.byteAt src (src0 + 2 * g + 1))) := by
  have hranges := hwf
  simp only [wellFormed, Bool.and_eq_true, fits_iff] at hranges
  obtain ⟨⟨⟨-, hsrc⟩, -⟩, hdst⟩ := hranges
  obtain ⟨m, hrun, -, -, hframe, hgroups⟩ :=
    packFrom_spec (src := src) hdst (n / 2) src0 0 s.mem (by omega) hok (by omega)
  have hall : min (n / 2) ((dcap - 0) / 3) = n / 2 := by omega
  simp only [hall, Nat.zero_add, Nat.add_zero, if_pos hfits] at hrun hframe hgroups
  refine ⟨m, ?_, hframe, fun hov => hgroups ?_⟩
  · rw [execPack, withOperands_ok hwf, packRun, if_neg (by omega), hrun]
    rfl
  · rwa [show 2 * (n / 2) = n by omega]

/-- Settles O11: what `PACK`'s loop leaves in `OUT_B`, and nowhere else. -/
theorem packWritesEveryGroup : Obligations.PackWritesEveryGroup := by
  intro s src src0 n dst0 dcap hwf hok heven hfits
  obtain ⟨m, hexec, hframe, hgroups⟩ := execPack_even hwf hok heven hfits
  exact ⟨_, hexec, rfl, (SameBut.setMem s m .outB fun sp hsp i => hframe sp i (.inl hsp)).trans
    ((SameBut.answer _ _).mono (by simp)), fun i hi => hframe .outB i (.inr hi), hgroups⟩

/-! ## Durations -/

/-- What the parameters' constraints say of the durations (R102, R112). -/
theorem params_durations (p : Params) :
    1 ≤ p.pTicks ∧ 4 * p.pTicks ≤ p.durMax ∧ 1 ≤ p.bHbTicks ∧ p.bHbTicks ≤ p.durMax := by
  have hok := p.ok
  simp only [admissible, Bool.and_eq_true, decide_eq_true_eq] at hok
  tauto

/-- A duration the hardware can take (R102). -/
def durationsFit (p : Params) (x : Pair) : Prop :=
  1 ≤ x.d0 ∧ x.d0 ≤ p.durMax ∧ 1 ≤ x.d1 ∧ x.d1 ≤ p.durMax

/-- The five symbols of both alphabets last at least a tick and at most `DUR_MAX` (R103, R109). -/
theorem symbols_durationsFit (p : Params) :
    ∀ x ∈ [sym0 p, sym1 p, symT p, bsym0 p, bsym1 p], durationsFit p x := by
  have h := params_durations p
  simp only [List.forall_mem_cons, durationsFit, sym0, sym1, symT, bsym0, bsym1]
  simp; omega

/-- The encoders emit no other pair. -/
theorem mem_symbols_of_mem_stream {p : Params} {m : Memory} {n len : Nat} {x : Pair}
    (h : x ∈ streamA p m n ++ streamB p m len) : x ∈ [sym0 p, sym1 p, symT p, bsym0 p, bsym1 p] := by
  simp only [streamA, streamB, List.mem_append, List.mem_map, List.mem_singleton] at h
  obtain (⟨j, -, rfl⟩ | rfl) | ⟨j, -, rfl⟩ := h
  · split <;> simp
  · simp
  · split <;> simp

/-- Settles O18: every pair emitted is one of the five symbols. -/
theorem durationsFitTheHardware : Obligations.DurationsFitTheHardware :=
  fun p _ _ _ x hx => symbols_durationsFit p x (mem_symbols_of_mem_stream hx)

end Sys2Proof.Machine
end

section
/-! PROOFS of the family `30_encoding`, the sends: what each step of a send does (`SendConfiguresItsChannel`), and
the whole `PA_SEND` and `PB_SEND` (`PaSendDeliversTheFrame`, `PbSendDeliversTheFrame`). A whole send is its
preparation up to the begin of its transmit, the resume steps, which together send the pairs that were ahead
whatever their budgets (`Resumed`), and the release of its channel. -/

namespace Sys2Proof.Machine

/-! ## Transmitting -/

/-- The session of an encoder. -/
def sessionPart : Enc → Part
  | .pa => .pa
  | .pb => .pb

/-- The pairs a transmit has still to send: its encoder's stream from the session's place in it (R163, R200). -/
def pairsAhead (s : State) (x : Transmit) : List Pair :=
  match x.enc with
  | .pa => (streamA s.params s.mem x.len).drop (min (paPosition x.len s.pa) (8 * x.len))
  | .pb => (streamB s.params s.mem s.pb.len).drop (8 * s.pb.bi + s.pb.k.val)

theorem pairsAhead_pa {x : Transmit} (h : x.enc = .pa) (s : State) :
    pairsAhead s x = (streamA s.params s.mem x.len).drop (min (paPosition x.len s.pa) (8 * x.len)) := by
  simp only [pairsAhead, h]

theorem pairsAhead_pb {x : Transmit} (h : x.enc = .pb) (s : State) :
    pairsAhead s x = (streamB s.params s.mem s.pb.len).drop (8 * s.pb.bi + s.pb.k.val) := by
  simp only [pairsAhead, h]

/-- What a pin has carried after a resume step's pairs went out (R264, R269). -/
theorem stagePairs_line {s : State} (hl : lineWf s.obs.line) (c : Chan) (x : Transmit) (out : List Pair)
    (st : ResumeStatus) (q : Nat) :
    lineGet (stagePairs c x out st s).obs.line q = lineGet s.obs.line q ++
      if q = (s.ch c).pin then out.map (sentBy (s.ch c)) else [] := by
  rw [stagePairs_obs]
  simp only [lineGet_lineAppend hl]
  split <;> simp

/-- What a resume step of transmit `x` on channel `c` does with budget `b`: it sends the next `b` pairs, and the
transmit is staged to its end exactly when none is left. -/
structure Resumed (c : Chan) (x : Transmit) (b : Nat) (s t : State) : Prop where
  channel : t.ch c = { s.ch c with tx := some { x with staged := decide ((pairsAhead s x).length ≤ b) } }
  ahead : b < (pairsAhead s x).length → pairsAhead t x = (pairsAhead s x).drop b
  line : ∀ q, lineGet t.obs.line q = lineGet s.obs.line q ++
    if q = (s.ch c).pin then ((pairsAhead s x).take b).map (sentBy (s.ch c)) else []
  config : pbEmptied t.pb = pbEmptied s.pb
  frame : SameBut [sessionPart x.enc, .ch c, .line (s.ch c).pin] s t

/-- A call of the encoder whose pairs go out is a resume step: it moves the session past the pairs, and answers
`COMPLETE` exactly when none is left. -/
theorem resumed_of_stagePairs {c : Chan} {x : Transmit} {b : Nat} {st : ResumeStatus} {s u : State}
    (hline : lineWf u.obs.line) (hframe : SameBut [sessionPart x.enc] s u)
    (hconfig : pbEmptied u.pb = pbEmptied s.pb) (hall : st = .complete ↔ (pairsAhead s x).length ≤ b)
    (hahead : st = .yielded → pairsAhead u x = (pairsAhead s x).drop b) :
    Resumed c x b s (stagePairs c x ((pairsAhead s x).take b) st u) := by
  have hch : u.ch c = s.ch c := hframe (.ch c) (by cases x.enc <;> simp [sessionPart])
  refine ⟨?_, fun hb => ?_, fun q => ?_, ?_, ?_⟩
  · rw [stagePairs_ch, hch, decide_eq_decide.mpr hall]
  · have hst : st = .yielded := by
      cases st with
      | yielded => rfl
      | complete => exact absurd (hall.mp rfl) (Nat.not_le.mpr hb)
    rw [← hahead hst]
    simp [pairsAhead]
  · have hq : lineGet u.obs.line q = lineGet s.obs.line q :=
      hframe (.line q) (by cases x.enc <;> simp [sessionPart])
    rw [stagePairs_line hline, hch, hq]
  · rw [stagePairs_pb, hconfig]
  · exact (hframe.mono (by simp)).trans ((hch ▸ stagePairs_frame c x _ st u).mono (by simp))

theorem txResume_pa {s : State} {c : Chan} {x : Transmit} {b : Nat} (hs : s.Ok) (htx : (s.ch c).tx = some x)
    (hstaged : x.staged = false) (henc : x.enc = .pa) (hdepth : b ≤ (s.ch c).depth)
    (hqueue : b ≤ s.params.queueDepth) : ∃ t, txResume c .ok b s = .next t ∧ Resumed c x b s t := by
  obtain ⟨-, -, hpayload, -⟩ := hs.chan c
  have hlen : x.len ≤ aMaxPayload := hpayload x htx henc
  have hwf : wellFormed s.params (.paResume x.len b) = true := by simp [wellFormed, hlen, hqueue]
  obtain ⟨st, pa', hr, hcomplete, -, hyielded⟩ := paResume_spec s.params s.mem x.len b s.pa hlen
  have hahead := pairsAhead_pa henc s
  rw [← hahead] at hr
  refine ⟨stagePairs c x ((pairsAhead s x).take b) st (s.setPa pa'), ?_, resumed_of_stagePairs hs.line
    (by rw [henc]; exact SameBut.setPa s pa') rfl (by simpa [hahead] using hcomplete) fun hst => ?_⟩
  · simp only [txResume, htx, hstaged, henc, resumeStep_ok hdepth, withOperands_ok hwf, paResumeCall, hr,
      orOutOfRange_some, Bool.false_eq_true, if_false]
  · obtain ⟨hpos, -⟩ := hyielded hst
    rw [pairsAhead_pa henc, hahead, List.drop_drop, ← hpos]
    simp

theorem txResume_pb {s : State} {c : Chan} {x : Transmit} {b : Nat} (hs : s.Ok) (htx : (s.ch c).tx = some x)
    (hstaged : x.staged = false) (henc : x.enc = .pb) (hdepth : b ≤ (s.ch c).depth)
    (hqueue : b ≤ s.params.queueDepth) : ∃ t, txResume c .ok b s = .next t ∧ Resumed c x b s t := by
  have hwf : wellFormed s.params (.pbResume b) = true := by simp [wellFormed, hqueue]
  obtain ⟨st, pb', hr, hcomplete, hemptied, hyielded⟩ := pbResume_spec s.params s.mem b s.pb hs.pb.len_le
  have hahead := pairsAhead_pb henc s
  have hconfig : pbEmptied pb' = pbEmptied s.pb := by
    cases st with
    | complete => rw [hemptied rfl]; rfl
    | yielded => rw [(hyielded rfl).1]; rfl
  rw [← hahead] at hr
  refine ⟨stagePairs c x ((pairsAhead s x).take b) st (s.setPb pb'), ?_, resumed_of_stagePairs hs.line
    (by rw [henc]; exact SameBut.setPb s pb') hconfig (by simpa [hahead] using hcomplete) fun hst => ?_⟩
  · simp only [txResume, htx, hstaged, henc, resumeStep_ok hdepth, withOperands_ok hwf, pbResumeCall, hr,
      orOutOfRange_some, Bool.false_eq_true, if_false]
  · obtain ⟨hpb, hpos⟩ := hyielded hst
    have hlen : pb'.len = s.pb.len := by rw [hpb]
    rw [pairsAhead_pb henc, hahead, List.drop_drop, ← hpos]
    simp [hlen]

/-- A resume step of a safe state whose budget is within the channel's depth and the port's range. -/
theorem txResume_resumed {s : State} {c : Chan} {x : Transmit} {b : Nat} (hs : s.Ok)
    (htx : (s.ch c).tx = some x) (hstaged : x.staged = false) (hdepth : b ≤ (s.ch c).depth)
    (hqueue : b ≤ s.params.queueDepth) : ∃ t, txResume c .ok b s = .next t ∧ Resumed c x b s t := by
  cases henc : x.enc with
  | pa => exact txResume_pa hs htx hstaged henc hdepth hqueue
  | pb => exact txResume_pb hs htx hstaged henc hdepth hqueue

/-! ## Runs of inputs -/

theorem runInputs_cons_of {e : Event} {s t : State} (h : present e s = .next t) (es : List Event) :
    runInputs (e :: es) s = runInputs es t := by
  rw [runInputs, h, andThen_next_eq]

theorem runInputs_append_of {es : List Event} {s t : State} (h : runInputs es s = .next t)
    (es' : List Event) : runInputs (es ++ es') s = runInputs es' t := by
  induction es generalizing s with
  | nil =>
    cases h
    rfl
  | cons e es ih =>
    obtain ⟨u, hu, h⟩ := andThen_next.mp h
    rw [List.cons_append, runInputs_cons_of hu, ih h]

/-- Every run of inputs keeps the machine safe. -/
theorem runInputs_ok {es : List Event} {s t : State} (hs : s.Ok) (h : runInputs es s = .next t) : t.Ok := by
  induction es generalizing s with
  | nil =>
    cases h
    exact hs
  | cons e es ih =>
    obtain ⟨u, hu, h⟩ := andThen_next.mp h
    exact ih (present_ok hs hu) h

/-- A resume step with nothing to send, while pairs are left. -/
theorem Resumed.refl {c : Chan} {x : Transmit} {s : State} (htx : (s.ch c).tx = some x)
    (hstaged : x.staged = false) (hmore : 0 < (pairsAhead s x).length) : Resumed c x 0 s s where
  channel := by rw [decide_eq_false (Nat.not_le.mpr hmore), ← hstaged, ← htx]
  ahead _ := rfl
  line q := by simp
  config := rfl
  frame := SameBut.refl _ _

/-- Two resume steps are one of the budgets' sum, where the first leaves pairs to send (R163, R200). -/
theorem Resumed.trans {c : Chan} {x : Transmit} {b b' : Nat} {s u t : State} (h : Resumed c x b s u)
    (hmore : b < (pairsAhead s x).length) (h' : Resumed c x b' u t) : Resumed c x (b + b') s t where
  channel := by
    have hall : (pairsAhead s x).length - b ≤ b' ↔ (pairsAhead s x).length ≤ b + b' := by omega
    rw [h'.channel, h.channel, h.ahead hmore, List.length_drop]
    simp only [hall]
  ahead hsum := by
    rw [h'.ahead (by rw [h.ahead hmore, List.length_drop]; omega), h.ahead hmore, List.drop_drop]
  line q := by
    have hsent : sentBy (u.ch c) = sentBy (s.ch c) := by rw [h.channel]; rfl
    have hpin : (u.ch c).pin = (s.ch c).pin := by rw [h.channel]
    rw [h'.line, h.line, h.ahead hmore, hsent, hpin, List.take_add]
    split <;> simp
  config := h'.config.trans h.config
  frame := by
    have hpin : (u.ch c).pin = (s.ch c).pin := by rw [h.channel]
    exact h.frame.trans (hpin ▸ h'.frame)

/-- Resume steps one after the other are one of the budgets' sum: whatever the budgets, as long as only the last
can reach the end (R163, R200, R264). -/
theorem runInputs_txResume {s : State} {c : Chan} {x : Transmit} {budgets : List Nat} (hs : s.Ok)
    (htx : (s.ch c).tx = some x) (hstaged : x.staged = false)
    (hdepth : ∀ b ∈ budgets, b ≤ (s.ch c).depth) (hqueue : ∀ b ∈ budgets, b ≤ s.params.queueDepth)
    (hlast : budgets.dropLast.sum < (pairsAhead s x).length) :
    ∃ t, runInputs (budgets.map (.txResume c .ok)) s = .next t ∧ Resumed c x budgets.sum s t := by
  induction budgets generalizing s with
  | nil => exact ⟨s, rfl, Resumed.refl htx hstaged hlast⟩
  | cons b bs ih =>
    simp only [List.forall_mem_cons] at hdepth hqueue
    obtain ⟨hb, hbs⟩ := hdepth
    obtain ⟨hqb, hqbs⟩ := hqueue
    obtain ⟨u, hu, hstep⟩ := txResume_resumed hs htx hstaged hb hqb
    replace hu : present (.txResume c .ok b) s = .next u := hu
    rw [List.map_cons, runInputs_cons_of hu, List.sum_cons]
    by_cases hmore : b < (pairsAhead s x).length
    · have htxu : (u.ch c).tx = some x := by
        rw [hstep.channel, decide_eq_false (by omega), ← hstaged]
      have hparams : u.params = s.params := hstep.frame .params (by cases x.enc <;> simp [sessionPart])
      have hlastu : bs.dropLast.sum < (pairsAhead u x).length := by
        rw [hstep.ahead hmore, List.length_drop]
        cases bs with
        | nil => exact Nat.sub_pos_of_lt hmore
        | cons b' bs =>
          simp only [List.dropLast_cons_cons, List.sum_cons] at hlast ⊢
          omega
      obtain ⟨t, ht, hrest⟩ := ih (present_ok hs hu) htxu (by rw [hstep.channel]; exact hbs)
        (by rw [hparams]; exact hqbs) hlastu
      exact ⟨t, ht, hstep.trans hmore hrest⟩
    · obtain rfl : bs = [] := by
        cases bs with
        | nil => rfl
        | cons b' bs =>
          simp only [List.dropLast_cons_cons, List.sum_cons] at hlast
          omega
      exact ⟨u, rfl, hstep⟩

/-! ## Channel operations that succeed -/

theorem execChConfig_absent {s : State} {c : Chan} {carrier res depth pin : Nat} {duty : Duty}
    (hdepth : 1 ≤ depth) (habsent : (s.ch c).state = .absent) (hf : s.issue.f = .ok) :
    execChConfig c carrier duty res depth pin s = .next ((s.setCh c ⟨.disabled, carrier, duty, res, depth, pin,
      none, some (callerOf s.issue.agent c)⟩).answer (.status .ok)) := by
  rw [execChConfig, withOperands_ok (by simpa [wellFormed] using hdepth), if_neg (by simp [habsent])]
  simp only [hf]

theorem execChEnable_disabled {s : State} {c : Chan} (hdisabled : (s.ch c).state = .disabled)
    (hf : s.issue.f = .ok) :
    execChEnable c s = .next ((s.setCh c { s.ch c with state := .enabled }).answer (.status .ok)) := by
  rw [execChEnable, withOperands_ok rfl, if_neg (by simp [hdisabled])]
  simp only [hf]

theorem execChTransmit_enabled {s : State} {c : Chan} {enc : Enc} {len : Nat}
    (hlen : enc = .pa → len ≤ aMaxPayload) (henabled : (s.ch c).state = .enabled)
    (hidle : (s.ch c).busy = false) (hloaded : enc = .pb → s.pb.st = .loaded) (hpin : pinTaken s c = false) :
    execChTransmit c enc len s = .next ((s.setCh c { s.ch c with
      tx := some ⟨enc, len, callerOf s.issue.agent c, false⟩ }).answer .none) := by
  have hwf : wellFormed s.params (.chTransmit c enc len) = true := by
    cases enc <;> simp [wellFormed, hlen]
  have hframe : ¬ (enc = .pb ∧ s.pb.st ≠ .loaded) := fun ⟨h, hne⟩ => hne (hloaded h)
  rw [execChTransmit, withOperands_ok hwf, if_neg (by simp [henabled]), if_neg (by simp [hidle]),
    if_neg hframe, if_neg (by simp [hpin])]

theorem execChDisable_enabled {s : State} {c : Chan} (henabled : (s.ch c).state = .enabled)
    (hidle : (s.ch c).busy = false) :
    execChDisable c s = .next ((s.setCh c { s.ch c with state := .disabled }).answer
      (.status (statusOfDraw s.issue.f))) := by
  rw [execChDisable, withOperands_ok rfl, if_neg (by simp [henabled]), if_neg (by simp [hidle]),
    if_neg (by simp [henabled])]

theorem execChDelete_disabled {s : State} {c : Chan} (hdisabled : (s.ch c).state = .disabled) :
    execChDelete c s = .next (((s.setCh c (channelAbsent s.fresh)).setFresh (s.fresh + 1)).answer
      (.status (statusOfDraw s.issue.f))) := by
  rw [execChDelete, withOperands_ok rfl, if_neg (by simp [hdisabled])]

/-! ## Steps of a send -/

@[simp] theorem Chan.other_ne (c : Chan) : c.other ≠ c := by
  cases c <;> simp

/-- No transmit of a free caller blocks its send. -/
theorem freeToSend.not_blocks {s : State} {c : Chan} (h : freeToSend s c) (d : Chan) :
    transmitBlocks c (s.ch d).tx = false := by
  cases htx : (s.ch d).tx with
  | none => rfl
  | some x => simpa [transmitBlocks] using h d x htx

/-- A caller is free whose channel is idle, and whom the other channel's transmit does not block. -/
theorem freeToSend_of_idle {s : State} {c : Chan} (hidle : (s.ch c).tx = none)
    (hother : ∀ y, (s.ch c.other).tx = some y → y.caller ≠ c) : freeToSend s c := by
  intro d y hy
  by_cases hd : d = c
  · subst hd
    rw [hidle] at hy
    cases hy
  · obtain rfl : d = c.other := by
      cases c <;> cases d <;> simp_all
    exact hother y hy

/-- A caller stays free while its own channel is idle and the other is as it was. -/
theorem freeToSend.of_channels {s t : State} {c : Chan} (h : freeToSend s c)
    (hother : t.ch c.other = s.ch c.other) (hidle : (t.ch c).tx = none) : freeToSend t c :=
  freeToSend_of_idle hidle (hother ▸ h c.other)

/-- A free caller's send takes its next step: its operation, then what it makes of the answer. -/
theorem present_sendStep {s u : State} {c : Chan} {x : Send} {i : Instr} {f : Hw} (hx : s.send c = some x)
    (hfree : freeToSend s c) (hop : sendOp s.params c x = some i)
    (hexec : exec i (s.setIssue ⟨.txCaller c, f⟩) = .next u) :
    present (.sendStep c f) s = sendNext c x u := by
  have hA : transmitBlocks c s.chA.tx = false := hfree.not_blocks .a
  have hB : transmitBlocks c s.chB.tx = false := hfree.not_blocks .b
  simp only [present, sendAdvance, hx, hop, hA, hB, hexec, Bool.or_false, Bool.false_eq_true, if_false,
    andThen_next_eq]

theorem sendMove_of_ne_eHw {c : Chan} {x : Send} {okStage failStage : SendStage} {s : State}
    (h : resultStatus s.out.result ≠ .eHw) :
    sendMove c x okStage failStage s = .next (s.setSend c (some { x with stage := okStage })) := by
  rw [sendMove, if_neg h]

/-- Where a send goes on alike whatever its call answers, it notes a failure. -/
theorem sendMove_drawn {c : Chan} {x : Send} {stage : SendStage} {s : State} {f : Hw}
    (h : s.out.result = .status (statusOfDraw f)) :
    sendMove c x stage stage s
      = .next (s.setSend c (some { x with stage := stage, failed := x.failed || decide (f = .eHw) })) := by
  rw [sendMove, h]
  cases f <;> simp [resultStatus, statusOfDraw]

/-- A send's channel call: its channel changed, its answer on the ports, and its next stage. -/
structure SendCalled (c : Chan) (y : Channel) (r : Result) (x : Send) (s t : State) : Prop where
  channel : t.ch c = y
  out : t.out = ⟨r, false⟩
  send : t.send c = some x
  frame : SameBut [.ch c, .send c, .issue] s t

theorem sendCalled_next (c : Chan) (f : Hw) (y : Channel) (r : Result) (x : Send) (s : State) :
    SendCalled c y r x s
      ((((s.setIssue ⟨.txCaller c, f⟩).setCh c y).answer r).setSend c (some x)) where
  channel := by simp
  out := by simp
  send := by simp
  frame := ((SameBut.setIssue _ _).mono (by simp)).trans (((SameBut.setCh _ _ _).mono (by simp)).trans
    (((SameBut.answer _ _).mono (by simp)).trans ((SameBut.setSend _ _ _).mono (by simp))))

theorem SendCalled.other {c : Chan} {y : Channel} {r : Result} {x : Send} {s t : State}
    (h : SendCalled c y r x s t) : t.ch c.other = s.ch c.other :=
  h.frame (.ch c.other) (by simp)

/-- A call that leaves its channel idle leaves its caller free. -/
theorem SendCalled.freeToSend {c : Chan} {y : Channel} {r : Result} {x : Send} {s t : State}
    (h : SendCalled c y r x s t) (hfree : freeToSend s c) (hidle : y.tx = none) : freeToSend t c :=
  hfree.of_channels h.other (by rw [h.channel, hidle])

/-- The channel as the send of its protocol configures it (R172, R203). -/
def sendChannel (p : Params) : Chan → Channel
  | .a => ⟨.disabled, aCarrierHz, p.aDuty, p.txResHz, p.queueDepth, p.txPinA, none, some .a⟩
  | .b => ⟨.disabled, 0, ⟨0, 1⟩, p.txResHz, p.queueDepth, p.txPinB, none, some .b⟩

/-- The transmit that the send of `n` bytes begins (R172, R203). -/
def sendTransmit (n : Nat) : Chan → Transmit
  | .a => ⟨.pa, n, .a, false⟩
  | .b => ⟨.pb, 0, .b, false⟩

theorem resetsLate_iff {c : Chan} {order : ResetOrder} :
    resetsLate c order = true ↔ c = .a ∧ order = .beforeTransmit := by
  cases c <;> cases order <;> simp [resetsLate]

@[simp] theorem resetsLate_b (order : ResetOrder) : resetsLate .b order = false := by
  cases order <;> rfl

theorem one_le_queueDepth (p : Params) : 1 ≤ p.queueDepth := by
  have hok := p.ok
  simp only [admissible, Bool.and_eq_true, decide_eq_true_eq] at hok
  obtain ⟨⟨-, hdepth⟩, -⟩ := hok
  exact hdepth

section
variable {s : State} {c : Chan} {x : Send}

theorem sendOp_config (p : Params) (c : Chan) (h : x.stage = .config) :
    sendOp p c x = some (.chConfig c (sendChannel p c).carrierHz (sendChannel p c).duty
      (sendChannel p c).resHz (sendChannel p c).depth (sendChannel p c).pin) := by
  cases c <;> simp [sendOp, h, sendChannel]

theorem sendOp_transmitOf (p : Params) (c : Chan) (h : x.stage = .transmit) :
    sendOp p c x = some (.chTransmit c (sendTransmit x.n c).enc (sendTransmit x.n c).len) := by
  cases c <;> simp [sendOp, h, sendTransmit]

theorem sendStep_config (hx : s.send c = some x) (hfree : freeToSend s c) (hstage : x.stage = .config)
    (habsent : (s.ch c).state = .absent) :
    ∃ t, present (.sendStep c .ok) s = .next t ∧
      SendCalled c (sendChannel s.params c) (.status .ok) { x with stage := .enable } s t := by
  have hdepth : 1 ≤ (sendChannel s.params c).depth := by
    cases c <;> exact one_le_queueDepth s.params
  refine ⟨_, ?_, sendCalled_next c .ok _ _ _ s⟩
  rw [present_sendStep hx hfree (sendOp_config _ c hstage)
    (execChConfig_absent hdepth (by simpa using habsent) rfl)]
  simp only [sendNext, hstage]
  rw [sendMove_of_ne_eHw (by simp [resultStatus])]
  cases c <;> rfl

theorem sendStep_enable (hx : s.send c = some x) (hfree : freeToSend s c) (hstage : x.stage = .enable)
    (hdisabled : (s.ch c).state = .disabled) :
    ∃ t, present (.sendStep c .ok) s = .next t ∧
      SendCalled c { s.ch c with state := .enabled } (.status .ok)
        { x with stage := if resetsLate c x.order then .prepare else .transmit } s t := by
  have hop : sendOp s.params c x = some (.chEnable c) := by simp [sendOp, hstage]
  refine ⟨_, ?_, sendCalled_next c .ok _ _ _ s⟩
  rw [present_sendStep hx hfree hop (execChEnable_disabled (by simpa using hdisabled) rfl),
    State.setIssue_ch]
  simp only [sendNext, hstage]
  exact sendMove_of_ne_eHw (by simp [resultStatus])

theorem sendStep_transmit (hx : s.send c = some x) (hfree : freeToSend s c) (hstage : x.stage = .transmit)
    (hlen : c = .a → x.n ≤ aMaxPayload) (henabled : (s.ch c).state = .enabled)
    (hidle : (s.ch c).busy = false) (hloaded : c = .b → s.pb.st = .loaded)
    (hpin : ¬ ((s.ch c.other).busy = true ∧ (s.ch c.other).pin = (s.ch c).pin)) :
    ∃ t, present (.sendStep c .ok) s = .next t ∧
      SendCalled c { s.ch c with tx := some (sendTransmit x.n c) } .none { x with stage := .blocked } s t := by
  have hpayload : (sendTransmit x.n c).enc = .pa → (sendTransmit x.n c).len ≤ aMaxPayload := by
    cases c with
    | a => exact fun _ => hlen rfl
    | b => nofun
  have hframe : (sendTransmit x.n c).enc = .pb → s.pb.st = .loaded := by
    cases c with
    | a => nofun
    | b => exact fun _ => hloaded rfl
  refine ⟨_, ?_, sendCalled_next c .ok _ _ _ s⟩
  rw [present_sendStep hx hfree (sendOp_transmitOf _ c hstage) (execChTransmit_enabled hpayload
    (by simpa using henabled) (by simpa using hidle) hframe (by simpa [pinTaken] using hpin)),
    State.setIssue_ch]
  simp only [sendNext, hstage]
  rw [sendMove_of_ne_eHw (by simp [resultStatus])]
  cases c <;> rfl

/-- `PA_SEND` resets its session, before `CH_CONFIG` or before `CH_TRANSMIT` (R172, R122). -/
theorem sendStep_paReset (hx : s.send .a = some x) (hfree : freeToSend s .a) (hstage : x.stage = .prepare)
    (f : Hw) : ∃ t, present (.sendStep .a f) s = .next t ∧ t.pa = paInitial ∧
      t.send .a = some { x with stage := if resetsLate .a x.order then .transmit else .config } ∧
      SameBut [.pa, .send .a, .issue] s t := by
  have hop : sendOp s.params .a x = some .paReset := by simp [sendOp, hstage]
  refine ⟨(((s.setIssue ⟨.txCaller .a, f⟩).setPa paInitial).answer .none).setSend .a
    (some { x with stage := if resetsLate .a x.order then .transmit else .config }), ?_, by simp, by simp, ?_⟩
  · rw [present_sendStep hx hfree hop rfl]
    simp only [sendNext, hstage]
    rw [if_pos (by simp [resultStatus])]
  · exact ((SameBut.setIssue _ _).mono (by simp)).trans (((SameBut.setPa _ _).mono (by simp)).trans
      (((SameBut.answer _ _).mono (by simp)).trans ((SameBut.setSend _ _ _).mono (by simp))))

end

/-- Settles O34: the four steps of a send up to its transmit. -/
theorem sendConfiguresItsChannel : Obligations.SendConfiguresItsChannel := by
  intro s c x hx hfree late
  have hlate : resetsLate c x.order = true ↔ late := resetsLate_iff
  refine ⟨fun hstage habsent => ?_, fun hstage hdisabled => ?_, fun hc hstage => ?_,
    fun hstage hlen henabled hidle hloaded hpin => ?_⟩
  · obtain ⟨t, ht, hcall⟩ := sendStep_config hx hfree hstage habsent
    refine ⟨t, ht, hcall.out, ?_, hcall.send, hcall.frame⟩
    rw [hcall.channel]
    cases c <;> rfl
  · obtain ⟨t, ht, hcall⟩ := sendStep_enable hx hfree hstage hdisabled
    refine ⟨t, ht, hcall.out, hcall.channel, fun h => ?_, fun h => ?_, hcall.frame⟩
    · rw [hcall.send, if_pos (hlate.mpr h)]
    · rw [hcall.send, if_neg (mt hlate.mp h)]
  · subst hc
    obtain ⟨t, ht, hpa, hsend, hframe⟩ := sendStep_paReset hx hfree hstage .ok
    refine ⟨t, ht, hpa, fun h => ?_, fun h => ?_, hframe⟩
    · rw [hsend, if_pos (hlate.mpr h)]
    · rw [hsend, if_neg (mt hlate.mp h)]
  · obtain ⟨t, ht, hcall⟩ := sendStep_transmit hx hfree hstage hlen henabled hidle hloaded hpin
    refine ⟨t, ht, hcall.out, ?_, hcall.send, hcall.frame⟩
    rw [hcall.channel]
    cases c <;> rfl

/-! ## The release of a send's channel -/

theorem sendStep_disable {s : State} {c : Chan} {x : Send} (hx : s.send c = some x) (hfree : freeToSend s c)
    (hstage : x.stage = .disable) (henabled : (s.ch c).state = .enabled) (hidle : (s.ch c).busy = false)
    (f : Hw) :
    ∃ t, present (.sendStep c f) s = .next t ∧
      SendCalled c { s.ch c with state := .disabled } (.status (statusOfDraw f))
        { x with stage := .delete, failed := x.failed || decide (f = .eHw) } s t := by
  have hop : sendOp s.params c x = some (.chDisable c) := by simp [sendOp, hstage]
  refine ⟨_, ?_, sendCalled_next c f _ _ _ s⟩
  rw [present_sendStep hx hfree hop (execChDisable_enabled (by simpa using henabled) (by simpa using hidle)),
    State.setIssue_ch]
  simp only [sendNext, hstage]
  exact sendMove_drawn rfl

theorem sendStep_delete {s : State} {c : Chan} {x : Send} (hx : s.send c = some x) (hfree : freeToSend s c)
    (hstage : x.stage = .delete) (hdisabled : (s.ch c).state = .disabled) (f : Hw) :
    ∃ t, present (.sendStep c f) s = .next t ∧ t.ch c = channelAbsent s.fresh ∧
      t.send c = some { x with stage := .release, failed := x.failed || decide (f = .eHw) } ∧
      SameBut [.ch c, .fresh, .send c, .issue] s t := by
  have hop : sendOp s.params c x = some (.chDelete c) := by simp [sendOp, hstage]
  refine ⟨((((s.setIssue ⟨.txCaller c, f⟩).setCh c (channelAbsent s.fresh)).setFresh (s.fresh + 1)).answer
    (.status (statusOfDraw f))).setSend c
      (some { x with stage := .release, failed := x.failed || decide (f = .eHw) }), ?_, by simp, by simp, ?_⟩
  · rw [present_sendStep hx hfree hop (execChDelete_disabled (by simpa using hdisabled))]
    simp only [sendNext, hstage]
    exact sendMove_drawn rfl
  · exact ((SameBut.setIssue _ _).mono (by simp)).trans (((SameBut.setCh _ _ _).mono (by simp)).trans
      (((SameBut.setFresh _ _).mono (by simp)).trans (((SameBut.answer _ _).mono (by simp)).trans
        ((SameBut.setSend _ _ _).mono (by simp)))))

/-- From `s` to `t` the session of caller `c`'s protocol is reset (R160, R198). -/
def SessionReset (c : Chan) (s t : State) : Prop :=
  match c with
  | .a => t.pa = paInitial
  | .b => t.pb = pbEmptied s.pb

/-- A send's last step resets its encoder and returns. -/
theorem sendStep_release {s : State} {c : Chan} {x : Send} (hx : s.send c = some x) (hfree : freeToSend s c)
    (hstage : x.stage = .release) (f : Hw) :
    ∃ t, present (.sendStep c f) s = .next t ∧
      t.out = ⟨.sent (if x.failed then .eHw else .ok) x.warn, false⟩ ∧ t.send c = none ∧
      t.ch c = s.ch c ∧ SessionReset c s t := by
  cases c with
  | a =>
    have hop : sendOp s.params .a x = some .paReset := by simp [sendOp, hstage]
    rw [present_sendStep hx hfree hop rfl]
    simp only [sendNext, hstage]
    exact ⟨_, rfl, rfl, rfl, rfl, rfl⟩
  | b =>
    have hop : sendOp s.params .b x = some .pbReset := by simp [sendOp, hstage]
    rw [present_sendStep hx hfree hop rfl]
    simp only [sendNext, hstage]
    exact ⟨_, rfl, rfl, rfl, rfl, rfl⟩

/-- The three steps that release a send's channel, whatever is drawn (R267). -/
theorem sendReleases {s : State} {c : Chan} {x : Send} (hx : s.send c = some x) (hfree : freeToSend s c)
    (hstage : x.stage = .disable) (henabled : (s.ch c).state = .enabled) (hidle : (s.ch c).tx = none)
    (f1 f2 f3 : Hw) :
    ∃ t, runInputs [.sendStep c f1, .sendStep c f2, .sendStep c f3] s = .next t ∧
      t.out = ⟨.sent (if x.failed || decide (f1 = .eHw) || decide (f2 = .eHw) then .eHw else .ok) x.warn,
        false⟩ ∧
      (∃ d, t.ch c = channelAbsent d) ∧ t.send c = none ∧ SessionReset c s t ∧
      SameBut (.issue :: .send c :: sendParts c) s t := by
  obtain ⟨u, hu, hcall⟩ := sendStep_disable hx hfree hstage henabled (by simp [Channel.busy, hidle]) f1
  have hfreeu := hcall.freeToSend hfree hidle
  obtain ⟨v, hv, hchv, hsendv, hframev⟩ := sendStep_delete hcall.send hfreeu rfl (by rw [hcall.channel]) f2
  have hfreev : freeToSend v c :=
    hfreeu.of_channels (hframev (.ch c.other) (by simp)) (by rw [hchv]; rfl)
  obtain ⟨t, ht, hout, hsend, hch, hreset⟩ := sendStep_release hsendv hfreev rfl f3
  refine ⟨t, ?_, hout, ⟨u.fresh, by rw [hch, hchv]⟩, hsend, ?_, ?_⟩
  · rw [runInputs_cons_of hu, runInputs_cons_of hv, runInputs_cons_of ht]
    rfl
  · have hpb : v.pb = s.pb := (hframev .pb (by simp)).trans (hcall.frame .pb (by simp))
    cases c with
    | a => exact hreset
    | b => exact hreset.trans (congrArg pbEmptied hpb)
  · exact (sendAdvance_frame hu).trans ((sendAdvance_frame hv).trans (sendAdvance_frame ht))

/-! ## From a waiting send to its return -/

/-- The end step of a transmit staged to its end (R264). -/
theorem present_txEnd {s : State} {c : Chan} {x : Transmit} (htx : (s.ch c).tx = some x)
    (hstaged : x.staged = true) (f : Hw) :
    present (.txEnd c f) s = .next (finishTransmit c (statusOfDraw f) s) := by
  simp only [present, txEnd, htx, hstaged, if_true]

/-- A send whose transmit waits in a safe state delivers the pairs ahead of it, and returns (R264, R267). -/
theorem sendDelivers {s : State} {c : Chan} {x : Send} {tx : Transmit} {budgets : List Nat} (hs : s.Ok)
    (hx : s.send c = some x) (hstage : x.stage = .blocked) (htx : (s.ch c).tx = some tx)
    (hstaged : tx.staged = false) (hother : ∀ y, (s.ch c.other).tx = some y → y.caller ≠ c)
    (hdepth : ∀ b ∈ budgets, b ≤ (s.ch c).depth) (hqueue : ∀ b ∈ budgets, b ≤ s.params.queueDepth)
    (hlast : budgets.dropLast.sum < (pairsAhead s tx).length)
    (hall : (pairsAhead s tx).length ≤ budgets.sum) :
    ∃ t, runInputs (budgets.map (.txResume c .ok) ++ .txEnd c .ok :: List.replicate 3 (.sendStep c .ok)) s
        = .next t ∧
      t.out = ⟨.sent (if x.failed then .eHw else .ok) x.warn, false⟩ ∧
      (∀ q, lineGet t.obs.line q = lineGet s.obs.line q ++
        if q = (s.ch c).pin then (pairsAhead s tx).map (sentBy (s.ch c)) else []) ∧
      (t.ch c).state = .absent ∧ (t.ch c).owner = none ∧ t.send c = none ∧ SessionReset c s t ∧
      t.ch c.other = s.ch c.other := by
  obtain ⟨u, hu, hresumed⟩ := runInputs_txResume hs htx hstaged hdepth hqueue hlast
  have hsendu : u.send c = some x := (hresumed.frame (.send c) (by cases tx.enc <;> simp [sessionPart])).trans hx
  have hotheru : u.ch c.other = s.ch c.other :=
    hresumed.frame (.ch c.other) (by cases tx.enc <;> simp [sessionPart])
  have htxu : (u.ch c).tx = some { tx with staged := true } := by
    rw [hresumed.channel, decide_eq_true hall]
  have henabled : (u.ch c).state = .enabled := ((runInputs_ok hs hu).chan c).1 (by simp [Channel.busy, htxu])
  have hend := present_txEnd htxu rfl .ok
  obtain ⟨v, hv⟩ : ∃ v, finishTransmit c (statusOfDraw .ok) u = v := ⟨_, rfl⟩
  rw [hv] at hend
  have hchv : v.ch c = { u.ch c with tx := none } := by rw [← hv, finishTransmit_ch]
  have hsendv : v.send c = some { x with stage := .disable } := by
    rw [← hv, finishTransmit_send, hsendu]
    simp [sendAfterTransmit, hstage, statusOfDraw]
  have hotherv : v.ch c.other = s.ch c.other := by rw [← hv, finishTransmit_ch_other, hotheru]
  have hfreev : freeToSend v c := freeToSend_of_idle (by rw [hchv]) (hotherv ▸ hother)
  obtain ⟨t, ht, hout, ⟨d, hch⟩, hsend, hreset, hframe⟩ :=
    sendReleases hsendv hfreev rfl (by rw [hchv]; exact henabled) (by rw [hchv]) .ok .ok .ok
  refine ⟨t, ?_, by simpa using hout, fun q => ?_, by rw [hch]; rfl, by rw [hch]; rfl, hsend, ?_, ?_⟩
  · rw [runInputs_append_of hu, runInputs_cons_of hend]
    exact ht
  · have hline : lineGet t.obs.line q = lineGet u.obs.line q := by
      have hlinev : v.obs = u.obs := by rw [← hv, finishTransmit_obs]
      rw [← hlinev]
      exact hframe (.line q) (by cases c <;> simp [sendParts])
    rw [hline, hresumed.line, List.take_of_length_le hall]
  · cases c with
    | a => exact hreset
    | b =>
      have hpbv : v.pb = u.pb := by rw [← hv, finishTransmit_pb]
      exact hreset.trans ((congrArg pbEmptied hpbv).trans hresumed.config)
  · exact (hframe (.ch c.other) (by cases c <;> simp [sendParts])).trans hotherv

/-! ## Streams of byte strings -/

/-- The bytes of a space from index `i` are those of the string. -/
def HoldsBytes (m : Memory) (sp : Space) (i : Nat) (bytes : List Byte) : Prop :=
  ∀ j (h : j < bytes.length), m.byteAt sp (i + j) = bytes[j]

theorem holdsBytes_append {m : Memory} {sp : Space} {i : Nat} {xs ys : List Byte} :
    HoldsBytes m sp i (xs ++ ys) ↔ HoldsBytes m sp i xs ∧ HoldsBytes m sp (i + xs.length) ys := by
  constructor
  · intro h
    refine ⟨fun j hj => ?_, fun j hj => ?_⟩
    · rw [h j (by rw [List.length_append]; omega), List.getElem_append_left hj]
    · rw [Nat.add_assoc, h (xs.length + j) (by rw [List.length_append]; omega)]
      simp
  · rintro ⟨hxs, hys⟩ j hj
    rw [List.getElem_append]
    split
    next hlt => exact hxs j hlt
    next hge =>
      rw [← hys (j - xs.length) (by rw [List.length_append] at hj; omega)]
      congr 1
      omega

/-- Eight values a byte, in the order of the bytes, are those of the bits' positions in the string. -/
theorem range_map_eq_flatMap {α : Type} {m : Memory} {sp : Space} {bytes : List Byte}
    (h : HoldsBytes m sp 0 bytes) (f : Byte → Nat → α) :
    ((List.range (8 * bytes.length)).map fun j => f (m.byteAt sp (j / 8)) (j % 8))
      = bytes.flatMap fun x => (List.range 8).map (f x) := by
  induction bytes using List.reverseRecOn with
  | nil => rfl
  | append_singleton xs x ih =>
    obtain ⟨hxs, hx⟩ := holdsBytes_append.mp h
    have hlast : m.byteAt sp xs.length = x := by simpa using hx 0 (by simp)
    rw [List.flatMap_append, ← ih hxs, List.length_append, List.length_singleton, Nat.mul_add,
      List.range_add, List.map_append, List.map_map]
    congr 1
    rw [List.flatMap_singleton]
    refine List.map_congr_left fun k hk => ?_
    have hk8 : k < 8 := List.mem_range.mp hk
    simp only [Function.comp]
    rw [show (8 * xs.length + k) / 8 = xs.length by omega, show (8 * xs.length + k) % 8 = k by omega, hlast]

/-- The Protocol-A stream of the bytes a space holds (R104, R163). -/
theorem streamA_eq {m : Memory} {bytes : List Byte} (p : Params) (h : HoldsBytes m .inA 0 bytes) :
    streamA p m bytes.length
      = (bitsOf bytes).map (fun b => if b then sym1 p else sym0 p) ++ [symT p] := by
  rw [streamA, bitsOf, List.map_flatMap]
  simp only [payloadBit, List.map_map]
  exact congrArg (· ++ [symT p])
    (range_map_eq_flatMap h fun x k => if x.getLsbD k then sym1 p else sym0 p)

/-- The Protocol-B stream of the bytes a space holds (R109, R200). -/
theorem streamB_eq {m : Memory} {bytes : List Byte} (p : Params) (h : HoldsBytes m .outB 0 bytes) :
    streamB p m bytes.length = pairsB p bytes :=
  range_map_eq_flatMap h fun x k => if x.getLsbD (7 - k) then bsym1 p else bsym0 p

@[simp] theorem bitsOf_length (bytes : List Byte) : (bitsOf bytes).length = 8 * bytes.length := by
  simp [bitsOf, List.length_flatMap, Nat.mul_comm]

@[simp] theorem pairsB_length (p : Params) (bytes : List Byte) : (pairsB p bytes).length = 8 * bytes.length := by
  simp [pairsB, List.length_flatMap, Nat.mul_comm]

/-! ## The preparation of a send -/

theorem callerBlocked_eq_false {s : State} {c : Chan} (h : callerBlocked s c = false) : freeToSend s c := by
  simp only [callerBlocked, Bool.or_eq_false_iff] at h
  obtain ⟨⟨-, hA⟩, hB⟩ := h
  intro d y hy
  cases d with
  | a => simpa [transmitBlocks, show s.chA.tx = some y from hy] using hA
  | b => simpa [transmitBlocks, show s.chB.tx = some y from hy] using hB

/-- A send begins with the bytes offered in its input space, up to the space's size (R74). -/
theorem present_send {s : State} {c : Chan} (hwf : Bank.wf (s.mem.bank (inputSpace c)))
    (hfree : callerBlocked s c = false) (bytes : List Byte) (order : ResetOrder) :
    ∃ t, present (.send c bytes order) s = .next t ∧
      t.send c = some ⟨if resetsLate c order then .config else .prepare, sourceCount c bytes s,
        sourceWarnings c bytes s, false, order⟩ ∧
      HoldsBytes t.mem (inputSpace c) 0 (bytes.take (spaceSize s.params (inputSpace c))) ∧
      SameBut [.space (inputSpace c), .send c] s t := by
  refine ⟨((sourceStored c bytes s).setSend c (some ⟨if resetsLate c order then .config else .prepare,
    sourceCount c bytes s, sourceWarnings c bytes s, false, order⟩)).answer
      (.sourceRead (sourceCount c bytes s) (sourceWarnings c bytes s)), ?_, by simp, fun j hj => ?_, ?_⟩
  · simp [present, sendBegin, hfree]
  · rw [List.length_take, lt_min_iff] at hj
    rw [State.answer_mem, State.setSend_mem, Nat.zero_add, sourceStored_byteAt hwf, dif_pos hj,
      List.getElem_take]
  · exact ((sourceStored_frame c bytes s).mono (by simp)).trans
      (((SameBut.setSend _ _ _).mono (by simp)).trans ((SameBut.answer _ _).mono (by simp)))

/-- `CH_CONFIG` and `CH_ENABLE` of a send take an absent channel to an enabled one. -/
theorem sendConfigures {s : State} {c : Chan} {x : Send} (hx : s.send c = some x) (hfree : freeToSend s c)
    (hstage : x.stage = .config) (habsent : (s.ch c).state = .absent) :
    ∃ t, runInputs [.sendStep c .ok, .sendStep c .ok] s = .next t ∧
      t.ch c = { sendChannel s.params c with state := .enabled } ∧
      t.send c = some { x with stage := if resetsLate c x.order then .prepare else .transmit } ∧
      SameBut [.ch c, .send c, .issue] s t := by
  obtain ⟨u, hu, hconfig⟩ := sendStep_config hx hfree hstage habsent
  have hidle : (sendChannel s.params c).tx = none := by cases c <;> rfl
  have hdisabled : (u.ch c).state = .disabled := by
    rw [hconfig.channel]
    cases c <;> rfl
  obtain ⟨t, ht, henable⟩ := sendStep_enable hconfig.send (hconfig.freeToSend hfree hidle) rfl hdisabled
  refine ⟨t, ?_, ?_, henable.send, hconfig.frame.trans henable.frame⟩
  · rw [runInputs_cons_of hu, runInputs_cons_of ht]
    rfl
  · rw [henable.channel, hconfig.channel]

/-- A `PA_SEND` that has begun is ready to transmit after three steps, in either order of its reset (R122,
R172). -/
theorem paSend_readies {s : State} {x : Send} (hx : s.send .a = some x) (hfree : freeToSend s .a)
    (hstage : x.stage = if resetsLate .a x.order then .config else .prepare)
    (habsent : (s.ch .a).state = .absent) (hidle : (s.ch .a).tx = none) :
    ∃ t, runInputs (List.replicate 3 (.sendStep .a .ok)) s = .next t ∧
      t.ch .a = { sendChannel s.params .a with state := .enabled } ∧ t.pa = paInitial ∧
      t.send .a = some { x with stage := .transmit } ∧ SameBut [.pa, .ch .a, .send .a, .issue] s t := by
  cases horder : x.order with
  | beforeConfig =>
    simp only [horder, resetsLate, Bool.false_eq_true, if_false] at hstage
    obtain ⟨u, hu, hpa, hsend, hframe⟩ := sendStep_paReset hx hfree hstage .ok
    simp only [horder, resetsLate, Bool.false_eq_true, if_false] at hsend
    have hch : u.ch .a = s.ch .a := hframe (.ch .a) (by simp)
    obtain ⟨t, ht, hcht, hsendt, hframet⟩ := sendConfigures hsend
      (hfree.of_channels (hframe (.ch .b) (by simp)) (by rw [hch, hidle])) rfl (by rw [hch, habsent])
    refine ⟨t, ?_, ?_, ?_, by simpa [resetsLate] using hsendt,
      (hframe.mono (by simp)).trans (hframet.mono (by simp))⟩
    · show runInputs (_ :: [_, _]) s = _
      rw [runInputs_cons_of hu, ht]
    · rw [hcht, show u.params = s.params from hframe .params (by simp)]
    · exact (hframet .pa (by simp)).trans hpa
  | beforeTransmit =>
    simp only [horder, resetsLate, if_true] at hstage
    obtain ⟨u, hu, hch, hsend, hframe⟩ := sendConfigures hx hfree hstage habsent
    simp only [horder, resetsLate, if_true] at hsend
    obtain ⟨t, ht, hpa, hsendt, hframet⟩ := sendStep_paReset hsend
      (hfree.of_channels (hframe (.ch .b) (by simp)) (by rw [hch]; rfl)) rfl .ok
    refine ⟨t, ?_, ?_, hpa, by simpa [resetsLate] using hsendt,
      (hframe.mono (by simp)).trans (hframet.mono (by simp))⟩
    · show runInputs ([_, _] ++ [_]) s = _
      rw [runInputs_append_of hu, runInputs_cons_of ht]
      rfl
    · rw [← hch]
      exact hframet (.ch .a) (by simp)

theorem packAll_length (p : Params) (bytes : List Byte) :
    (packAll p bytes).length = 3 * (bytes.length / 2) := by
  induction bytes using packAll.induct with
  | case1 b0 b1 bs ih =>
    simp only [packAll, List.length_cons, ih]
    omega
  | case2 bs hbs =>
    match bs with
    | [] => rfl
    | [_] => simp [packAll]
    | b0 :: b1 :: bs => exact absurd rfl (hbs b0 b1 bs)

theorem frameBytes_length {p : Params} {npre : Nat} {preByte : Byte} {bytes : List Byte}
    (h4 : 4 ≤ bytes.length) : (frameBytes p npre preByte bytes).length = frameLen npre bytes.length := by
  simp only [frameBytes, List.length_append, List.length_replicate, List.length_take, packAll_length,
    List.length_drop, frameLen]
  omega

/-- Groups packed in their places are the packed byte string (R105, R147). -/
theorem holdsBytes_packAll {p : Params} {m m' : Memory} {src : Space} {si i : Nat} {bytes : List Byte}
    (hsrc : HoldsBytes m src si bytes)
    (hgroups : ∀ g, g < bytes.length / 2 →
      (m'.byteAt .outB (i + 3 * g), m'.byteAt .outB (i + 3 * g + 1), m'.byteAt .outB (i + 3 * g + 2))
        = packTwo p (m.byteAt src (si + 2 * g)) (m.byteAt src (si + 2 * g + 1))) :
    HoldsBytes m' .outB i (packAll p bytes) := by
  induction bytes using packAll.induct generalizing si i with
  | case1 b0 b1 bs ih =>
    obtain ⟨hb, hbs⟩ := holdsBytes_append (xs := [b0, b1]).mp hsrc
    have h0 : m.byteAt src si = b0 := hb 0 (by simp)
    have h1 : m.byteAt src (si + 1) = b1 := hb 1 (by simp)
    have hfirst := hgroups 0 (by simp)
    simp only [Nat.mul_zero, Nat.add_zero, h0, h1] at hfirst
    have hgroup : HoldsBytes m' .outB i [(packTwo p b0 b1).1, (packTwo p b0 b1).2.1, (packTwo p b0 b1).2.2] := by
      rw [← hfirst]
      intro j hj
      match j with
      | 0 | 1 | 2 => rfl
      | j + 3 => simp at hj
    refine holdsBytes_append (xs := [_, _, _]).mpr ⟨hgroup, ih hbs fun g hg => ?_⟩
    have hnext := hgroups (g + 1) (by simp only [List.length_cons]; omega)
    rw [show i + 3 * (g + 1) = i + 3 + 3 * g by omega, show si + 2 * (g + 1) = si + 2 + 2 * g by omega] at hnext
    exact hnext
  | case2 bs hbs =>
    match bs with
    | [] => nofun
    | [_] => nofun
    | b0 :: b1 :: bs => exact absurd rfl (hbs b0 b1 bs)

/-- `PB_FRAME` of an aligned input that fits leaves its frame in `OUT_B`, loaded at its first bit (R111,
R195). -/
theorem execPbFrame_fits {s : State} {bytes : List Byte} (hempty : s.pb.st = .empty)
    (hok : s.mem.SpaceOk s.params .outB) (hin : HoldsBytes s.mem .inB 0 bytes)
    (hn : bytes.length ≤ s.params.bInCap) (h4 : 4 ≤ bytes.length) (heven : (bytes.length - 4) % 2 = 0)
    (hfits : frameLen s.pb.npre bytes.length ≤ s.params.bOutCap) :
    ∃ m, execPbFrame bytes.length s = .next (((s.setMem m).setPb { s.pb with
        st := .loaded, len := frameLen s.pb.npre bytes.length, bi := 0, k := 0 }).answer (.status .ok)) ∧
      HoldsBytes m .outB 0 (frameBytes s.params s.pb.npre s.pb.preByte bytes) ∧
      ∀ sp, sp ≠ .outB → ∀ i, m.byteAt sp i = s.mem.byteAt sp i := by
  obtain ⟨m, hwrite, -, hm, hpre, hstart, hgroups, -⟩ :=
    frameWrite_spec s.params s.pb bytes.length s.mem hok h4 hn heven hfits
  refine ⟨m, ?_, ?_, fun sp hsp i => ?_⟩
  · rw [execPbFrame, withOperands_ok (by simpa [wellFormed] using hn), if_neg (by simp [hempty]),
      if_neg (by omega), if_neg (by omega), if_neg (by omega), hwrite]
    rfl
  · rw [← List.take_append_drop 4 bytes] at hin
    obtain ⟨hfirst, hrest⟩ := holdsBytes_append.mp hin
    rw [List.length_take, Nat.min_eq_left h4] at hrest
    refine holdsBytes_append.mpr ⟨holdsBytes_append.mpr ⟨fun j hj => ?_, fun j hj => ?_⟩, ?_⟩
    · rw [List.length_replicate] at hj
      rw [Nat.zero_add, hpre j hj, List.getElem_replicate]
    · rw [List.length_replicate, Nat.zero_add, hstart j (by simp at hj; omega), ← hfirst j hj, Nat.zero_add]
    · rw [List.length_append, List.length_replicate, List.length_take, Nat.min_eq_left h4, Nat.zero_add]
      refine holdsBytes_packAll hrest fun g hg => ?_
      rw [Nat.zero_add]
      exact hgroups g (by simpa using hg)
  · rw [hm]
    cases sp with
    | outB => exact absurd rfl hsp
    | inA | inB | rxBuf => rfl

/-- `PB_SEND` frames the bytes it read (R203). -/
theorem sendStep_pbFrame {s : State} {x : Send} {bytes : List Byte} (hx : s.send .b = some x)
    (hfree : freeToSend s .b) (hstage : x.stage = .prepare) (hbytes : x.n = bytes.length)
    (hempty : s.pb.st = .empty) (hok : s.mem.SpaceOk s.params .outB) (hin : HoldsBytes s.mem .inB 0 bytes)
    (hn : bytes.length ≤ s.params.bInCap) (h4 : 4 ≤ bytes.length) (heven : (bytes.length - 4) % 2 = 0)
    (hfits : frameLen s.pb.npre bytes.length ≤ s.params.bOutCap) (f : Hw) :
    ∃ t, present (.sendStep .b f) s = .next t ∧
      t.pb = { s.pb with st := .loaded, len := frameLen s.pb.npre bytes.length, bi := 0, k := 0 } ∧
      t.send .b = some { x with stage := .config } ∧
      HoldsBytes t.mem .outB 0 (frameBytes s.params s.pb.npre s.pb.preByte bytes) ∧
      SameBut [.pb, .space .outB, .send .b, .issue] s t := by
  obtain ⟨m, hexec, hframe, hsame⟩ :=
    execPbFrame_fits (s := s.setIssue ⟨.txCaller .b, f⟩) hempty hok hin hn h4 heven hfits
  have hop : sendOp s.params .b x = some (.pbFrame bytes.length) := by simp [sendOp, hstage, hbytes]
  refine ⟨((((s.setIssue ⟨.txCaller .b, f⟩).setMem m).setPb { s.pb with
    st := .loaded, len := frameLen s.pb.npre bytes.length, bi := 0, k := 0 }).answer (.status .ok)).setSend .b
      (some { x with stage := .config }), ?_, rfl, rfl, hframe, ?_⟩
  · rw [present_sendStep hx hfree hop hexec]
    simp only [sendNext, hstage]
    rw [if_pos (by simp [resultStatus])]
    simp
  · exact ((SameBut.setIssue _ _).mono (by simp)).trans (((SameBut.setMem _ m .outB hsame).mono (by simp)).trans
      (((SameBut.setPb _ _).mono (by simp)).trans (((SameBut.answer _ _).mono (by simp)).trans
        ((SameBut.setSend _ _ _).mono (by simp)))))

/-- A `PB_SEND` of an input that fits is ready to transmit after three steps (R203). -/
theorem pbSend_readies {s : State} {x : Send} {bytes : List Byte} (hx : s.send .b = some x)
    (hfree : freeToSend s .b) (hstage : x.stage = .prepare) (hbytes : x.n = bytes.length)
    (habsent : (s.ch .b).state = .absent) (hidle : (s.ch .b).tx = none)
    (hempty : s.pb.st = .empty) (hok : s.mem.SpaceOk s.params .outB) (hin : HoldsBytes s.mem .inB 0 bytes)
    (hn : bytes.length ≤ s.params.bInCap) (h4 : 4 ≤ bytes.length) (heven : (bytes.length - 4) % 2 = 0)
    (hfits : frameLen s.pb.npre bytes.length ≤ s.params.bOutCap) :
    ∃ t, runInputs (List.replicate 3 (.sendStep .b .ok)) s = .next t ∧
      t.ch .b = { sendChannel s.params .b with state := .enabled } ∧
      t.pb = { s.pb with st := .loaded, len := frameLen s.pb.npre bytes.length, bi := 0, k := 0 } ∧
      HoldsBytes t.mem .outB 0 (frameBytes s.params s.pb.npre s.pb.preByte bytes) ∧
      t.send .b = some { x with stage := .transmit } ∧
      SameBut [.pb, .space .outB, .ch .b, .send .b, .issue] s t := by
  obtain ⟨u, hu, hpb, hsend, hbytesu, hframe⟩ :=
    sendStep_pbFrame hx hfree hstage hbytes hempty hok hin hn h4 heven hfits .ok
  have hch : u.ch .b = s.ch .b := hframe (.ch .b) (by simp)
  obtain ⟨t, ht, hcht, hsendt, hframet⟩ := sendConfigures hsend
    (hfree.of_channels (hframe (.ch .a) (by simp)) (by rw [hch, hidle])) rfl (by rw [hch, habsent])
  refine ⟨t, ?_, ?_, (hframet .pb (by simp)).trans hpb, fun j hj => ?_, by simpa using hsendt,
    (hframe.mono (by simp)).trans (hframet.mono (by simp))⟩
  · show runInputs (_ :: [_, _]) s = _
    rw [runInputs_cons_of hu, ht]
  · rw [hcht, show u.params = s.params from hframe .params (by simp)]
  · exact (hframet (.space .outB) (by simp) _).trans (hbytesu j hj)

/-! ## Whole sends -/

/-- A stream is its bytes': where they read the same, so does the stream. -/
theorem streamA_congr {m m' : Memory} (h : ∀ i, m'.byteAt .inA i = m.byteAt .inA i) (p : Params) (n : Nat) :
    streamA p m' n = streamA p m n := by
  have hbit : payloadBit m' = payloadBit m := funext fun j => by rw [payloadBit, h, payloadBit]
  rw [streamA, hbit, streamA]

theorem streamB_congr {m m' : Memory} (h : ∀ i, m'.byteAt .outB i = m.byteAt .outB i) (p : Params) (len : Nat) :
    streamB p m' len = streamB p m len := by
  have hbit : frameBit m' = frameBit m := funext fun j => by rw [frameBit, h, frameBit]
  rw [streamB, hbit, streamB]

/-- A send's channel call leaves what is ahead of a transmit. -/
theorem pairsAhead_of_frame {c : Chan} {s t : State} (h : SameBut [.ch c, .send c, .issue] s t)
    (x : Transmit) : pairsAhead t x = pairsAhead s x := by
  have hparams : t.params = s.params := h .params (by simp)
  cases henc : x.enc with
  | pa =>
    rw [pairsAhead_pa henc, pairsAhead_pa henc, streamA_congr (h (.space .inA) (by simp)), hparams,
      show t.pa = s.pa from h .pa (by simp)]
  | pb =>
    rw [pairsAhead_pb henc, pairsAhead_pb henc, streamB_congr (h (.space .outB) (by simp)), hparams,
      show t.pb = s.pb from h .pb (by simp)]

/-- A channel of a safe state that does not exist transmits nothing. -/
theorem tx_eq_none_of_absent {y : Channel} (h : y.Ok) (habsent : y.state = .absent) : y.tx = none := by
  have hidle := busy_false_of h (by rw [habsent]; simp)
  simpa [Channel.busy] using hidle

/-- What a send and its byte-source read may write up to its transmit. -/
def sendFrame (c : Chan) : List Part := .issue :: .send c :: .space (inputSpace c) :: sendParts c

/-- Caller `c`'s send `x`, which began in `s`, is ready in `t` to transmit the pairs. -/
structure SendReady (c : Chan) (x : Send) (pairs : List Pair) (s t : State) : Prop where
  send : t.send c = some x
  stage : x.stage = .transmit
  channel : t.ch c = { sendChannel s.params c with state := .enabled }
  loaded : c = .b → t.pb.st = .loaded
  config : pbEmptied t.pb = pbEmptied s.pb
  ahead : pairsAhead t (sendTransmit x.n c) = pairs
  frame : SameBut (sendFrame c) s t

/-- Its bytes read and its session reset, a `PA_SEND` is ready to transmit its payload (R104, R172). -/
theorem paSend_ready {s : State} (hs : s.Ok) (hblocked : callerBlocked s .a = false)
    (habsent : s.chA.state = .absent) (bytes : List Byte) (order : ResetOrder) :
    ∃ t, runInputs (.send .a bytes order :: List.replicate 3 (.sendStep .a .ok)) s = .next t ∧
      SendReady .a ⟨.transmit, sourceCount .a bytes s, sourceWarnings .a bytes s, false, order⟩
        ((bitsOf (bytes.take 512)).map (fun b => if b then sym1 s.params else sym0 s.params)
          ++ [symT s.params]) s t := by
  have hidle := tx_eq_none_of_absent (hs.chan .a) habsent
  have hread : sourceCount .a bytes s = (bytes.take 512).length := by
    rw [List.length_take, Nat.min_comm]
    rfl
  obtain ⟨u, hu, hsendu, hbytesu, hframeu⟩ := present_send (hs.mem .inA).1 hblocked bytes order
  have hchu : u.ch .a = s.ch .a := hframeu (.ch .a) (by simp)
  have hparamsu : u.params = s.params := hframeu .params (by simp)
  obtain ⟨t, ht, hch, hpa, hsend, hframe⟩ := paSend_readies hsendu
    ((callerBlocked_eq_false hblocked).of_channels (hframeu (.ch .b) (by simp)) (by rw [hchu, hidle])) rfl
    (by rw [hchu]; exact habsent) (by rw [hchu, hidle])
  have hbytes : HoldsBytes t.mem .inA 0 (bytes.take 512) := fun j hj =>
    (hframe (.space .inA) (by simp) _).trans (hbytesu j hj)
  refine ⟨t, by rw [runInputs_cons_of hu, ht], hsend, rfl, by rw [hch, hparamsu], nofun, ?_, ?_, ?_⟩
  · rw [show t.pb = s.pb from (hframe .pb (by simp)).trans (hframeu .pb (by simp))]
  · rw [pairsAhead_pa rfl, hpa, show t.params = s.params from (hframe .params (by simp)).trans hparamsu,
      ← streamA_eq s.params hbytes, ← hread]
    rfl
  · exact (hframeu.mono (by simp [sendFrame, sendParts, inputSpace])).trans
      (hframe.mono (by simp [sendFrame, sendParts]))

/-- Its bytes read and framed, a `PB_SEND` is ready to transmit its frame (R111, R203). -/
theorem pbSend_ready {s : State} (hs : s.Ok) (hblocked : callerBlocked s .b = false)
    (habsent : s.chB.state = .absent) (hempty : s.pb.st = .empty) {bytes : List Byte} {n : Nat}
    (hread : (bytes.take s.params.bInCap).length = n) (h4 : 4 ≤ n) (heven : (n - 4) % 2 = 0)
    (hfits : frameLen s.pb.npre n ≤ s.params.bOutCap) (order : ResetOrder) :
    ∃ t, runInputs (.send .b bytes order :: List.replicate 3 (.sendStep .b .ok)) s = .next t ∧
      SendReady .b ⟨.transmit, sourceCount .b bytes s, sourceWarnings .b bytes s, false, order⟩
        (pairsB s.params (frameBytes s.params s.pb.npre s.pb.preByte (bytes.take s.params.bInCap))) s t := by
  subst hread
  have hidle := tx_eq_none_of_absent (hs.chan .b) habsent
  have hcount : sourceCount .b bytes s = (bytes.take s.params.bInCap).length := by
    rw [List.length_take, Nat.min_comm]
    rfl
  obtain ⟨u, hu, hsendu, hbytesu, hframeu⟩ := present_send (hs.mem .inB).1 hblocked bytes order
  have hchu : u.ch .b = s.ch .b := hframeu (.ch .b) (by simp)
  have hpbu : u.pb = s.pb := hframeu .pb (by simp)
  have hparamsu : u.params = s.params := hframeu .params (by simp)
  obtain ⟨t, ht, hch, hpb, hbytes, hsend, hframe⟩ := pbSend_readies hsendu
    ((callerBlocked_eq_false hblocked).of_channels (hframeu (.ch .a) (by simp)) (by rw [hchu, hidle]))
    (by simp) hcount (by rw [hchu]; exact habsent) (by rw [hchu, hidle]) (by rw [hpbu, hempty])
    ((present_ok hs hu).mem .outB) hbytesu (by rw [hparamsu]; exact List.length_take_le _ _) h4 heven
    (by rw [hpbu, hparamsu]; exact hfits)
  rw [hpbu, hparamsu] at hbytes
  refine ⟨t, by rw [runInputs_cons_of hu, ht], hsend, rfl, by rw [hch, hparamsu], fun _ => by rw [hpb],
    ?_, ?_, ?_⟩
  · rw [hpb, hpbu]
    rfl
  · rw [pairsAhead_pb rfl, hpb, show t.params = s.params from (hframe .params (by simp)).trans hparamsu, hpbu,
      ← frameBytes_length h4, streamB_eq s.params hbytes]
    rfl
  · exact (hframeu.mono (by simp [sendFrame, inputSpace])).trans
      (hframe.mono (by simp [sendFrame, sendParts]))

/-- A send that is ready, with its pin free, delivers its pairs and returns (R172, R203, R264, R267). -/
theorem SendReady.delivers {c : Chan} {x : Send} {pairs : List Pair} {s t : State}
    (h : SendReady c x pairs s t) (ht : t.Ok) (hfree : freeToSend s c) (hlen : c = .a → x.n ≤ aMaxPayload)
    (hpin : ¬ ((s.ch c.other).busy = true ∧ (s.ch c.other).pin = (sendChannel s.params c).pin))
    {budgets : List Nat} (hqueue : ∀ b ∈ budgets, b ≤ s.params.queueDepth)
    (hlast : budgets.dropLast.sum < pairs.length) (hall : pairs.length ≤ budgets.sum) :
    ∃ u, runInputs (.sendStep c .ok ::
          (budgets.map (.txResume c .ok) ++ .txEnd c .ok :: List.replicate 3 (.sendStep c .ok))) t = .next u ∧
      u.out = ⟨.sent (if x.failed then .eHw else .ok) x.warn, false⟩ ∧
      (∀ q, lineGet u.obs.line q = lineGet s.obs.line q ++
        if q = (sendChannel s.params c).pin then pairs.map (sentBy (sendChannel s.params c)) else []) ∧
      (u.ch c).state = .absent ∧ (u.ch c).owner = none ∧ u.send c = none ∧ SessionReset c s u ∧
      u.ch c.other = s.ch c.other := by
  have hother : t.ch c.other = s.ch c.other :=
    h.frame (.ch c.other) (by cases c <;> simp [sendFrame, sendParts])
  have hidle : (t.ch c).tx = none := by
    rw [h.channel]
    cases c <;> rfl
  have hchpin : (t.ch c).pin = (sendChannel s.params c).pin := by rw [h.channel]
  obtain ⟨v, hv, hcall⟩ := sendStep_transmit h.send
    (freeToSend_of_idle hidle (hother ▸ hfree c.other)) h.stage hlen (by rw [h.channel])
    (by simp [Channel.busy, hidle]) h.loaded (by rw [hother, hchpin]; exact hpin)
  have hdepth : (v.ch c).depth = s.params.queueDepth := by
    rw [hcall.channel, h.channel]
    cases c <;> rfl
  have hparams : v.params = s.params := (hcall.frame .params (by simp)).trans
    (h.frame .params (by cases c <;> simp [sendFrame, sendParts]))
  have hahead : pairsAhead v (sendTransmit x.n c) = pairs :=
    (pairsAhead_of_frame hcall.frame _).trans h.ahead
  have hotherv : v.ch c.other = s.ch c.other := hcall.other.trans hother
  obtain ⟨u, hu, hout, hline, habsent, howner, hsend, hreset, hotheru⟩ :=
    sendDelivers (budgets := budgets) (present_ok ht hv) hcall.send rfl (by rw [hcall.channel])
      (by cases c <;> rfl) (hotherv ▸ hfree c.other) (by rw [hdepth]; exact hqueue)
      (by rw [hparams]; exact hqueue) (by rw [hahead]; exact hlast) (by rw [hahead]; exact hall)
  refine ⟨u, by rw [runInputs_cons_of hv, hu], hout, fun q => ?_, habsent, howner, hsend, ?_,
    hotheru.trans hotherv⟩
  · have hlinev : lineGet v.obs.line q = lineGet s.obs.line q := (hcall.frame (.line q) (by simp)).trans
      (h.frame (.line q) (by cases c <;> simp [sendFrame, sendParts]))
    rw [hline, hahead, hlinev, hcall.channel, h.channel]
    rfl
  · cases c with
    | a => exact hreset
    | b => exact hreset.trans ((congrArg pbEmptied (hcall.frame .pb (by simp))).trans h.config)

/-- Settles O37: the send gets ready in the order of its reset, and delivers the stream of its payload. -/
theorem paSendDeliversTheFrame : Obligations.PaSendDeliversTheFrame := by
  intro s bytes order budgets hs hblocked habsent hpin hqueue hlast hall
  have hlen : ((bitsOf (bytes.take 512)).map (fun b => if b then sym1 s.params else sym0 s.params)
      ++ [symT s.params]).length = 8 * min bytes.length 512 + 1 := by
    simp [Nat.min_comm]
  rw [← hlen] at hlast hall
  obtain ⟨s1, hrun, hready⟩ := paSend_ready hs hblocked habsent bytes order
  obtain ⟨t, ht, hout, hline, hrest⟩ := hready.delivers (runInputs_ok hs hrun)
    (callerBlocked_eq_false hblocked) (fun _ => Nat.min_le_right _ _) hpin hqueue hlast hall
  refine ⟨t, (runInputs_append_of hrun _).trans ht, ?_, hline, hrest⟩
  rw [hout]
  simp [sourceWarnings, sourceWarn, spaceSize, inputSpace]

/-- Settles O38: the send frames the bytes it read, and delivers the stream of its frame. -/
theorem pbSendDeliversTheFrame : Obligations.PbSendDeliversTheFrame := by
  intro s bytes order budgets n len hs hblocked habsent hempty hpin h4 heven hfits hqueue hlast hall
  have hread : (bytes.take s.params.bInCap).length = n := by rw [List.length_take, Nat.min_comm]
  have hlen : (pairsB s.params (frameBytes s.params s.pb.npre s.pb.preByte
      (bytes.take s.params.bInCap))).length = 8 * len := by
    rw [pairsB_length, frameBytes_length (hread.symm ▸ h4), hread, frameLen]
  rw [← hlen] at hlast hall
  obtain ⟨s1, hrun, hready⟩ := pbSend_ready hs hblocked habsent hempty hread h4 heven hfits order
  obtain ⟨t, ht, hout, hline, hrest⟩ := hready.delivers (runInputs_ok hs hrun)
    (callerBlocked_eq_false hblocked) nofun hpin hqueue hlast hall
  refine ⟨t, (runInputs_append_of hrun _).trans ht, ?_, hline, hrest⟩
  have hshort : bytes ≠ [] := List.ne_nil_of_length_pos (by omega)
  have hcap : 0 < s.params.bInCap := by omega
  rw [hout]
  simp [sourceWarnings, sourceWarn, spaceSize, inputSpace, hcap, hshort]

end Sys2Proof.Machine
end

section
/-! PROOFS of the family `40_nibble_codec`: the nibble code (`NibEncReturnsTableEntry`), the packed group's inverse
(`PackedGroupIsInvertible`) and what `PACK` rejects (`PackRejectsOddOrTooLong`). -/

namespace Sys2Proof.Machine

/-! ## The nibble code -/

/-- Settles O8: a nibble is within its port's range and the table; a larger value is beyond the range. -/
theorem nibEncReturnsTableEntry : Obligations.NibEncReturnsTableEntry := by
  intro s v
  refine ⟨fun hv => ?_, fun hv => withOperands_refused (by simpa [wellFormed] using hv)⟩
  have hwf : wellFormed s.params (.nibEnc v) = true := decide_eq_true (Nat.le_of_lt_succ hv)
  have hread : nibRead s.params v = some s.params.nibTable[v] := Vector.getElem?_eq_getElem hv
  refine ⟨s.answer (.code s.params.nibTable[v]), ?_, State.answer_out _ _, SameBut.answer _ _⟩
  rw [exec, execNibEnc, withOperands_ok hwf, hread, orOutOfRange_some]

/-! ## The inverse of a packed group -/

/-- R149's inverse: the four code words that three packed bytes hold. -/
def groupCodes (o : Byte × Byte × Byte) : CodeWord × CodeWord × CodeWord × CodeWord :=
  (o.1.extractLsb' 2 6, o.1.extractLsb' 0 2 ++ o.2.1.extractLsb' 4 4,
    o.2.1.extractLsb' 0 4 ++ o.2.2.extractLsb' 6 2, o.2.2.extractLsb' 0 6)

/-- Split into bytes, a group still holds its four code words, each in the six bits R105 gives it. -/
theorem groupCodes_splitGroup (ta tb tc td : CodeWord) :
    groupCodes (splitGroup (ta ++ tb ++ tc ++ td)) = (ta, tb, tc, td) := by
  simp only [groupCodes, splitGroup, Prod.mk.injEq]
  refine ⟨?_, ?_, ?_, ?_⟩
  all_goals
    refine BitVec.eq_of_getLsbD_eq fun i hi => ?_
    simp only [BitVec.getLsbD_extractLsb', BitVec.getLsbD_append]
    interval_cases i <;> simp

theorem groupCodes_packTwo (p : Params) (b0 b1 : Byte) :
    groupCodes (packTwo p b0 b1) = (nibCode p (hiNibble b0), nibCode p (loNibble b0),
      nibCode p (hiNibble b1), nibCode p (loNibble b1)) :=
  groupCodes_splitGroup _ _ _ _

/-- A byte is its two nibbles (R143). -/
theorem hiNibble_append_loNibble (x : Byte) : hiNibble x ++ loNibble x = x := by
  have hfield : hiNibble x ++ loNibble x = x.extractLsb' 0 8 :=
    BitVec.extractLsb'_append_extractLsb'_eq_extractLsb' rfl
  rw [hfield, BitVec.extractLsb'_eq_self]

/-- The code words of a byte's nibbles determine it. -/
theorem byte_eq_of_nibCodes {p : Params} {x y : Byte} (hhi : nibCode p (hiNibble x) = nibCode p (hiNibble y))
    (hlo : nibCode p (loNibble x) = nibCode p (loNibble y)) : x = y := by
  rw [← hiNibble_append_loNibble x, nibCode_inj hhi, nibCode_inj hlo, hiNibble_append_loNibble]

theorem packTwo_inj {p : Params} {b0 b1 c0 c1 : Byte} (h : packTwo p c0 c1 = packTwo p b0 b1) :
    c0 = b0 ∧ c1 = b1 := by
  have hcodes := congrArg groupCodes h
  simp only [groupCodes_packTwo, Prod.mk.injEq] at hcodes
  obtain ⟨hhi0, hlo0, hhi1, hlo1⟩ := hcodes
  exact ⟨byte_eq_of_nibCodes hhi0 hlo0, byte_eq_of_nibCodes hhi1 hlo1⟩

/-- Settles O10: the four fields are the group's code words, and no two nibbles share one. -/
theorem packedGroupIsInvertible : Obligations.PackedGroupIsInvertible := by
  intro p b0 b1 o
  have hcodes := groupCodes_packTwo p b0 b1
  simp only [groupCodes, Prod.mk.injEq] at hcodes
  obtain ⟨ha, hb, hc, hd⟩ := hcodes
  exact ⟨ha.symm, hb.symm, hc.symm, hd.symm, fun _ _ => packTwo_inj⟩

/-! ## What `PACK` rejects -/

/-- An odd length is rejected before anything is read (R146). -/
theorem execPack_odd {s : State} {src : Space} {src0 n dst0 dcap : Nat}
    (hwf : wellFormed s.params (.pack src src0 n .outB dst0 dcap) = true) (hodd : n % 2 = 1) :
    execPack src src0 n .outB dst0 dcap s = .next (s.answer (.packed .eAlign 0)) := by
  rw [execPack, withOperands_ok hwf, packRun, if_pos hodd]
  rfl

/-- An even length that does not fit is rejected at the first group without room, after `dcap / 3` groups
(R146). -/
theorem execPack_tooLong {s : State} {src : Space} {src0 n dst0 dcap : Nat}
    (hwf : wellFormed s.params (.pack src src0 n .outB dst0 dcap) = true)
    (hok : s.mem.SpaceOk s.params .outB) (heven : n % 2 = 0) (hlong : dcap < 3 * (n / 2)) :
    ∃ m, execPack src src0 n .outB dst0 dcap s
      = .next (packAnswer s (.eCapacity, 3 * (dcap / 3), m)) := by
  have hranges := hwf
  simp only [wellFormed, Bool.and_eq_true, fits_iff] at hranges
  obtain ⟨⟨⟨-, hsrc⟩, -⟩, hdst⟩ := hranges
  obtain ⟨m, hrun, -⟩ := packFrom_spec (src := src) hdst (n / 2) src0 0 s.mem (by omega) hok (by omega)
  have hwritten : min (n / 2) ((dcap - 0) / 3) = dcap / 3 := by omega
  simp only [hwritten, Nat.zero_add, if_neg (Nat.not_le.mpr hlong)] at hrun
  refine ⟨m, ?_⟩
  rw [execPack, withOperands_ok hwf, packRun, if_neg (by omega), hrun, orOutOfRange_some]

/-- Settles O12: the spaces of entry 18 are ill-formed; an odd length changes the outputs alone, and one too long
no more than `PACK` ever writes. -/
theorem packRejectsOddOrTooLong : Obligations.PackRejectsOddOrTooLong := by
  refine ⟨fun s src dst src0 n dst0 dcap hspaces => withOperands_refused ?_,
    fun s src src0 n dst0 dcap hwf => ⟨fun hodd => ?_, fun hok heven hlong => ?_⟩⟩
  · obtain rfl | hdst := hspaces
    · simp [wellFormed]
    · simp [wellFormed, hdst]
  · exact ⟨_, execPack_odd hwf hodd, State.answer_out _ _, SameBut.answer _ _⟩
  · obtain ⟨m, hexec⟩ := execPack_tooLong hwf hok heven hlong
    have hnext : exec (.pack src src0 n .outB dst0 dcap) s = .next _ := hexec
    exact ⟨_, hnext, State.answer_out _ _, exec_frame hnext⟩

end Sys2Proof.Machine
end

section
/-! PROOFS of the family `41_protocol_a`: one resume call and its resume step in a transmit
(`PaResumeEmitsTheNextPairs`), the calls of one frame joined (`PaResumptionLaw`, `FairBudgetsReachCompletion`), the
session between them (`PaSessionBetweenCalls`, `PaResetClearsTheSession`) and how long a frame lasts
(`FrameLineTimes`). -/

namespace Sys2Proof.Machine

/-! ## The reset -/

/-- Settles O13: the reset writes the session's initial value whatever it was, and its word needs only an agent
that may step. -/
theorem paResetClearsTheSession : Obligations.PaResetClearsTheSession := by
  refine ⟨fun s => ⟨(s.setPa paInitial).answer .none, rfl, rfl, rfl,
    (SameBut.setPa _ _).trans ((SameBut.answer _ _).mono (by simp)), rfl⟩, fun s ag ports f es hevents hag => ?_⟩
  have hissuer : mayIssue ag .paReset = true ∧ agentBlocked s ag = false ∧ ag ≠ .rxIsr := by
    obtain rfl | ⟨x, rfl, hfree⟩ := hag
    · exact ⟨rfl, rfl, nofun⟩
    · exact ⟨rfl, hfree, nofun⟩
  obtain ⟨hmay, hfree, hisr⟩ := hissuer
  have hstep := stepRunsTheDecodedOperation s ag 0x10 ports f es .paReset hevents rfl hmay hfree nofun
    (absurd · hisr)
  refine ⟨(((s.setEvents es).setIssue ⟨ag, f⟩).setPa paInitial).answer .none, hstep, rfl, rfl, ?_⟩
  exact ((SameBut.setEvents _ _).mono (by simp)).trans (((SameBut.setIssue _ _).mono (by simp)).trans
    (((SameBut.setPa _ _).mono (by simp)).trans ((SameBut.answer _ _).mono (by simp))))

/-! ## One resume call -/

theorem wellFormed_paResume {p : Params} {n b : Nat} :
    wellFormed p (.paResume n b) = true ↔ n ≤ aMaxPayload ∧ b ≤ p.queueDepth := by
  simp [wellFormed]

/-- `PA_RESUME` in a transmit that waits for its pairs is that transmit's resume step (R264). -/
theorem execPaResume_inside {n b : Nat} {s : State} {c : Chan} {x : Transmit}
    (hw : wellFormed s.params (.paResume n b) = true) (h : awaits s c x .pa) :
    execPaResume n b s = resumeStep c s.issue.f b s (paResumeCall n b s (stagePairs c x)) := by
  simp only [execPaResume, withOperands_ok hw, resumeTarget_of h]

/-- Settles O14: the call is `paResume`, whose pairs are returned outside a transmit and staged in one. -/
theorem paResumeEmitsTheNextPairs : Obligations.PaResumeEmitsTheNextPairs := by
  intro s n b hn hb at_ pairs
  have hw : wellFormed s.params (.paResume n b) = true := wellFormed_paResume.mpr ⟨hn, hb⟩
  obtain ⟨st, pa', hr, hcomplete, hreset, hyielded⟩ := paResume_spec s.params s.mem n b s.pa hn
  have hcall : ∀ k, paResumeCall n b s k = .next (k pairs st (s.setPa pa')) := fun k => by
    rw [paResumeCall, hr, orOutOfRange_some]
  refine ⟨st, pa', hcomplete, hreset, hyielded, fun hnone => ?_, fun c x hwaits => ?_⟩
  · exact ⟨_, execPaResume_outside hw hnone hr, rfl, rfl,
      (SameBut.setPa _ _).trans ((SameBut.answer _ _).mono (by simp))⟩
  · have hexec : exec (.paResume n b) s = _ := execPaResume_inside hw hwaits
    rw [hexec, hcall]
    refine ⟨fun hf hdepth => ?_, fun hf hdepth => ?_, fun hf => ?_⟩
    · rw [hf, resumeStep_ok hdepth]
      refine ⟨_, rfl, stagePairs_out .., stagePairs_pa .., ?_, fun hline => ?_, ?_⟩
      · rw [stagePairs_ch, State.setPa_ch]
      · rw [stagePairs_line (by simpa using hline), State.setPa_ch, if_pos rfl, State.setPa_obs]
        rfl
      · have hstaged := stagePairs_frame c x pairs st (s.setPa pa')
        rw [State.setPa_ch] at hstaged
        exact ((SameBut.setPa s pa').mono (by simp)).trans (hstaged.mono (by simp))
    · rw [hf, resumeStep, if_pos hdepth]
    · rw [hf]
      exact ⟨_, rfl, finishTransmit_out .., finishTransmit_ch .., finishTransmit_frame c .eHw s⟩

/-! ## The session between calls -/

theorem paInitial_between (n : Nat) : paInitial.Between n :=
  ⟨fun _ => .inr ⟨rfl, rfl⟩, nofun, rfl⟩

/-- Between calls the cursor is at a pair of the payload or right after it. -/
theorem PaSession.Between.cursor_le {n : Nat} {pa : PaSession} (h : pa.Between n) :
    8 * pa.bi + pa.k.val ≤ 8 * n := by
  have hk := pa.k.isLt
  obtain ⟨hpayload, hterminator, -⟩ := h
  cases hst : pa.st with
  | payload =>
    obtain hbi | ⟨hbi, hk0⟩ := hpayload hst
    · omega
    · simp [hbi, hk0]
  | terminator =>
    obtain ⟨hbi, hk0⟩ := hterminator hst
    simp [hbi, hk0]

theorem paTerminate_between {n : Nat} {pa : PaSession} (h : pa.Between n) (p : Params) (out : List Pair)
    (room : Nat) : (paTerminate p out room pa).2.2.Between n := by
  unfold paTerminate
  split
  · exact h
  · exact paInitial_between n

/-- A call of the encoder keeps R165: the bytes sub-encoder stops within the payload or exactly at its end, where
the session goes on to the terminator. -/
theorem paResume_between {p : Params} {m : Memory} {n b : Nat} {pa : PaSession}
    {r : List Pair × ResumeStatus × PaSession} (hn : n ≤ aMaxPayload) (h : pa.Between n)
    (hr : paResume p m n b pa = some r) : r.2.2.Between n := by
  unfold paResume at hr
  split at hr
  next hst =>
    have hcursor := h.cursor_le
    obtain ⟨-, -, htc⟩ := h
    obtain ⟨pa', hdata, hst', htc', hpos⟩ := paData_spec p m n hn b pa
    have hk := pa'.k.isLt
    simp only [hdata] at hr
    split at hr
    next hinside =>
      cases hr
      exact ⟨fun _ => .inl hinside, fun hterm => absurd ((hst'.trans hst).symm.trans hterm) nofun,
        htc'.trans htc⟩
    next hend =>
      cases hr
      have hbi : pa'.bi = n := by omega
      have hk0 : pa'.k = 0 := Fin.ext (by simp; omega)
      have hbetween : ({ pa' with st := .terminator } : PaSession).Between n :=
        ⟨nofun, fun _ => ⟨hbi, hk0⟩, htc'.trans htc⟩
      exact paTerminate_between hbetween ..
  next =>
    cases hr
    exact paTerminate_between h ..

/-- Settles O16: every way `PA_RESUME` can answer leaves the session as a call of the encoder does, or as it
was. -/
theorem paSessionBetweenCalls : Obligations.PaSessionBetweenCalls := by
  intro s n b hn hb
  refine ⟨⟨_, rfl, paInitial_between n⟩, fun hbetween => ⟨fun hnone => ?_, fun t ht => ?_⟩⟩
  · obtain ⟨st, pa', hr, -⟩ := paResume_spec s.params s.mem n b s.pa hn
    exact ⟨_, execPaResume_outside (wellFormed_paResume.mpr ⟨hn, hb⟩) hnone hr⟩
  · obtain ⟨-, ⟨-, r, hr, rfl⟩ | ⟨c, x, -, rfl | ⟨r, hr, rfl⟩⟩⟩ := execPaResume_next ht
    · exact paResume_between hn hbetween hr
    · rwa [finishTransmit_pa]
    · rw [stagePairs_pa]
      exact paResume_between hn hbetween hr

/-! ## How long a frame lasts -/

theorem lineTicks_append (xs ys : List Pair) : lineTicks (xs ++ ys) = lineTicks xs + lineTicks ys := by
  simp [lineTicks]

/-- The bits of each value last as long as that value's symbol. -/
theorem lineTicks_map_bits (bit : Nat → Bool) (x0 x1 : Pair) (js : List Nat) :
    lineTicks (js.map fun j => if bit j then x1 else x0)
      = (js.filter fun j => !bit j).length * pairTicks x0 + (js.filter bit).length * pairTicks x1 := by
  induction js with
  | nil => simp [lineTicks]
  | cons j js ih =>
    have hcons : lineTicks ((j :: js).map fun j => if bit j then x1 else x0)
        = pairTicks (if bit j then x1 else x0) + lineTicks (js.map fun j => if bit j then x1 else x0) := rfl
    rw [hcons, ih]
    cases hbit : bit j <;> simp [hbit] <;> ring

/-- Settles O17: `SYM0` lasts 2 `P`, `SYM1` 5 `P` and the terminator 4 `P`; both symbols of Protocol B last two
halves. -/
theorem frameLineTimes : Obligations.FrameLineTimes := by
  intro p m n
  constructor
  · have hterminator : lineTicks [symT p] = 4 * p.pTicks := by simp [lineTicks, pairTicks, symT]; ring
    rw [streamA, lineTicks_append, lineTicks_map_bits, hterminator]
    simp only [pairTicks, sym0, sym1]
    ring
  · have hcount := List.length_eq_length_filter_add (l := List.range (8 * n)) (frameBit m)
    rw [List.length_range] at hcount
    rw [streamB, lineTicks_map_bits]
    simp only [pairTicks, bsym0, bsym1]
    rw [← Nat.add_mul, Nat.add_comm, ← hcount]
    ring

/-! ## The calls of one frame -/

/-- A frame of `n` bytes of Protocol A, named by a transmit of it: whose, does not matter outside one. -/
def frameA (n : Nat) : Transmit := ⟨.pa, n, .a, false⟩

/-- The loaded frame of Protocol B, named by a transmit of it. -/
def frameB : Transmit := ⟨.pb, 0, .b, false⟩

/-- The resume operation that calls the encoder for a frame (R264). -/
def resumeOp (x : Transmit) (b : Nat) : Instr :=
  match x.enc with
  | .pa => .paResume x.len b
  | .pb => .pbResume b

/-- The encoder can be called for a frame outside a transmit, and the frame lies in its space. -/
structure Callable (x : Transmit) (s : State) : Prop where
  outside : noneAwaits s x.enc
  payload : x.enc = .pa → x.len ≤ aMaxPayload
  loaded : x.enc = .pb → s.pb.len ≤ s.params.bOutCap

/-- What calls of an encoder for a frame that take `b` pairs together do to the state: the session is at the first
pair not yet taken, or reset once none is left (R163, R200). -/
structure Taken (x : Transmit) (b : Nat) (s t : State) : Prop where
  ahead : b < (pairsAhead s x).length → pairsAhead t x = (pairsAhead s x).drop b
  reset : (pairsAhead s x).length ≤ b → SessionReset (chanOfEnc x.enc) s t
  config : pbEmptied t.pb = pbEmptied s.pb
  shorter : t.pb.len ≤ s.pb.len
  frame : SameBut [sessionPart x.enc] s t

theorem Taken.refl {x : Transmit} {s : State} (hmore : 0 < (pairsAhead s x).length) : Taken x 0 s s where
  ahead _ := rfl
  reset h := absurd hmore (Nat.not_lt.mpr h)
  config := rfl
  shorter := le_refl _
  frame := SameBut.refl _ _

theorem Taken.trans {x : Transmit} {b b' : Nat} {s u t : State} (h : Taken x b s u)
    (hmore : b < (pairsAhead s x).length) (h' : Taken x b' u t) : Taken x (b + b') s t where
  ahead hsum := by
    rw [h'.ahead (by rw [h.ahead hmore, List.length_drop]; omega), h.ahead hmore, List.drop_drop]
  reset hall := by
    have hreset := h'.reset (by rw [h.ahead hmore, List.length_drop]; omega)
    cases henc : x.enc with
    | pa =>
      rw [henc] at hreset
      exact hreset
    | pb =>
      rw [henc] at hreset
      exact Eq.trans hreset h.config
  config := h'.config.trans h.config
  shorter := h'.shorter.trans h.shorter
  frame := h.frame.trans h'.frame

/-- Once no pair is left, a larger budget takes no more. -/
theorem Taken.mono {x : Transmit} {b b' : Nat} {s t : State} (h : Taken x b s t)
    (hall : (pairsAhead s x).length ≤ b) (hle : b ≤ b') : Taken x b' s t :=
  { h with ahead := fun hmore => by omega, reset := fun _ => h.reset hall }

theorem Callable.of_taken {x : Transmit} {b : Nat} {s t : State} (h : Callable x s) (ht : Taken x b s t) :
    Callable x t where
  outside c u hu := by
    have hch : t.ch c = s.ch c := ht.frame (.ch c) (by cases x.enc <;> simp [sessionPart])
    exact h.outside c u (hch ▸ hu)
  payload := h.payload
  loaded henc := by
    have hparams : t.params = s.params := ht.frame .params (by cases x.enc <;> simp [sessionPart])
    rw [hparams]
    exact ht.shorter.trans (h.loaded henc)

/-- The status of a call with budget `b` where `left` pairs are left (R161, R199). -/
def statusOf (left b : Nat) : ResumeStatus := if left ≤ b then .complete else .yielded

theorem eq_statusOf {st : ResumeStatus} {left b : Nat} (h : st = .complete ↔ left ≤ b) : st = statusOf left b := by
  unfold statusOf
  split
  next hle => exact h.mpr hle
  next hlt =>
    cases st with
    | yielded => rfl
    | complete => exact absurd (h.mp rfl) hlt

theorem statusOf_of_le {left b : Nat} (h : left ≤ b) : statusOf left b = .complete := if_pos h

theorem statusOf_of_lt {left b : Nat} (h : b < left) : statusOf left b = .yielded := if_neg (Nat.not_le.mpr h)

theorem execPaResume_taken {x : Transmit} {b : Nat} {s : State} (henc : x.enc = .pa) (hs : Callable x s)
    (hb : b ≤ s.params.queueDepth) :
    ∃ t, execPaResume x.len b s = .next t ∧ Taken x b s t ∧
      t.out.result = .pairs ((pairsAhead s x).take b) (statusOf (pairsAhead s x).length b) := by
  have hlen := hs.payload henc
  obtain ⟨st, pa', hr, hcomplete, hreset, hyielded⟩ := paResume_spec s.params s.mem x.len b s.pa hlen
  have hahead := pairsAhead_pa henc s
  have hst : st = statusOf (pairsAhead s x).length b := eq_statusOf (by simpa [hahead] using hcomplete)
  refine ⟨(s.setPa pa').answer _,
    execPaResume_outside (wellFormed_paResume.mpr ⟨hlen, hb⟩) (henc ▸ hs.outside) hr,
    ⟨fun hmore => ?_, fun hall => ?_, rfl, le_refl _, ?_⟩, by rw [State.answer_out, ← hst, hahead]⟩
  · obtain ⟨hpos, -⟩ := hyielded (hst.trans (statusOf_of_lt hmore))
    rw [pairsAhead_pa henc, hahead, List.drop_drop, ← hpos]
    simp
  · rw [henc]
    exact hreset (hst.trans (statusOf_of_le hall))
  · rw [henc]
    exact (SameBut.setPa _ _).trans ((SameBut.answer _ _).mono (by simp))

theorem execPbResume_taken {x : Transmit} {b : Nat} {s : State} (henc : x.enc = .pb) (hs : Callable x s)
    (hb : b ≤ s.params.queueDepth) :
    ∃ t, execPbResume b s = .next t ∧ Taken x b s t ∧
      t.out.result = .pairs ((pairsAhead s x).take b) (statusOf (pairsAhead s x).length b) := by
  have hwf : wellFormed s.params (.pbResume b) = true := by simp [wellFormed, hb]
  obtain ⟨st, pb', hr, hcomplete, hemptied, hyielded⟩ :=
    pbResume_spec s.params s.mem b s.pb (hs.loaded henc)
  have hahead := pairsAhead_pb henc s
  have hst : st = statusOf (pairsAhead s x).length b := eq_statusOf (by simpa [hahead] using hcomplete)
  have hkept : pbEmptied pb' = pbEmptied s.pb ∧ pb'.len ≤ s.pb.len := by
    cases st with
    | complete => rw [hemptied rfl]; exact ⟨rfl, Nat.zero_le _⟩
    | yielded => rw [(hyielded rfl).1]; exact ⟨rfl, le_refl _⟩
  obtain ⟨hconfig, hshorter⟩ := hkept
  refine ⟨(s.setPb pb').answer _, execPbResume_outside hwf (henc ▸ hs.outside) hr,
    ⟨fun hmore => ?_, fun hall => ?_, hconfig, hshorter, ?_⟩,
    by rw [State.answer_out, ← hst, hahead]⟩
  · obtain ⟨hpb, hpos⟩ := hyielded (hst.trans (statusOf_of_lt hmore))
    have hlen : pb'.len = s.pb.len := by rw [hpb]
    rw [pairsAhead_pb henc, hahead, List.drop_drop, ← hpos]
    simp [hlen]
  · rw [henc]
    exact hemptied (hst.trans (statusOf_of_le hall))
  · rw [henc]
    exact (SameBut.setPb _ _).trans ((SameBut.answer _ _).mono (by simp))

/-- One call: it returns the next pairs ahead, and `COMPLETE` exactly when none is left. -/
theorem resumeOp_taken {x : Transmit} {b : Nat} {s : State} (hs : Callable x s) (hb : b ≤ s.params.queueDepth) :
    ∃ t, exec (resumeOp x b) s = .next t ∧ Taken x b s t ∧
      t.out.result = .pairs ((pairsAhead s x).take b) (statusOf (pairsAhead s x).length b) := by
  cases henc : x.enc with
  | pa =>
    rw [resumeOp, henc]
    exact execPaResume_taken henc hs hb
  | pb =>
    rw [resumeOp, henc]
    exact execPbResume_taken henc hs hb

theorem resumeCalls_cons_of_complete {call : Nat → Instr} {b : Nat} {s t : State} {out : List Pair}
    (h : exec (call b) s = .next t) (hout : t.out.result = .pairs out .complete) (bs : List Nat) :
    resumeCalls call (b :: bs) s = some (out, true, t) := by
  simp only [resumeCalls, h, hout]

theorem resumeCalls_cons_of_yielded {call : Nat → Instr} {b : Nat} {bs : List Nat} {s t u : State}
    {out rest : List Pair} {done : Bool} (h : exec (call b) s = .next t)
    (hout : t.out.result = .pairs out .yielded) (hrest : resumeCalls call bs t = some (rest, done, u)) :
    resumeCalls call (b :: bs) s = some (out ++ rest, done, u) := by
  simp only [resumeCalls, h, hout, hrest]

/-- The calls of one frame: whatever the budgets, they return together the pairs that were ahead, as many as the
budgets' sum (R163, R200). -/
theorem resumeCalls_taken {x : Transmit} {budgets : List Nat} {s : State} (hs : Callable x s)
    (hmore : 0 < (pairsAhead s x).length) (hqueue : ∀ b ∈ budgets, b ≤ s.params.queueDepth) :
    ∃ t, resumeCalls (resumeOp x) budgets s
        = some ((pairsAhead s x).take budgets.sum, decide ((pairsAhead s x).length ≤ budgets.sum), t) ∧
      Taken x budgets.sum s t := by
  induction budgets generalizing s with
  | nil => exact ⟨s, by simp [resumeCalls, List.length_pos_iff.mp hmore], Taken.refl hmore⟩
  | cons b bs ih =>
    obtain ⟨hb, hbs⟩ := List.forall_mem_cons.mp hqueue
    obtain ⟨u, hu, htaken, hout⟩ := resumeOp_taken hs hb
    obtain ⟨total, htotal⟩ : ∃ total, (b :: bs).sum = total := ⟨_, rfl⟩
    rw [htotal]
    rw [List.sum_cons] at htotal
    by_cases hall : (pairsAhead s x).length ≤ b
    · have hsum : (pairsAhead s x).length ≤ total := by omega
      rw [statusOf_of_le hall, List.take_of_length_le hall] at hout
      refine ⟨u, ?_, htaken.mono hall (by omega)⟩
      rw [resumeCalls_cons_of_complete hu hout, List.take_of_length_le hsum, decide_eq_true hsum]
    · replace hall := Nat.lt_of_not_le hall
      have hparams : u.params = s.params := htaken.frame .params (by cases x.enc <;> simp [sessionPart])
      have hahead := htaken.ahead hall
      have hleft : (pairsAhead u x).length = (pairsAhead s x).length - b := by rw [hahead, List.length_drop]
      obtain ⟨t, ht, hrest⟩ := ih (hs.of_taken htaken) (by omega) (hparams ▸ hbs)
      have hdone : (pairsAhead u x).length ≤ bs.sum ↔ (pairsAhead s x).length ≤ total := by omega
      have htake : (pairsAhead s x).take total
          = (pairsAhead s x).take b ++ ((pairsAhead s x).drop b).take bs.sum := by rw [← htotal, List.take_add]
      rw [statusOf_of_lt hall] at hout
      refine ⟨t, ?_, htotal ▸ htaken.trans hall hrest⟩
      rw [resumeCalls_cons_of_yielded hu hout ht, decide_eq_decide.mpr hdone, hahead, htake]

/-! ### From the first pair of a frame -/

theorem pairsAhead_frameA {s : State} (n : Nat) (hpa : s.pa = paInitial) :
    pairsAhead s (frameA n) = streamA s.params s.mem n := by
  rw [pairsAhead_pa rfl, hpa]
  simp [paPosition, paInitial, frameA]

theorem pairsAhead_frameB {s : State} (hbi : s.pb.bi = 0) (hk : s.pb.k = 0) :
    pairsAhead s frameB = streamB s.params s.mem s.pb.len := by
  rw [pairsAhead_pb rfl, hbi, hk]
  rfl

theorem callable_frameA {s : State} {n : Nat} (hn : n ≤ aMaxPayload) (hnone : noneAwaits s .pa) :
    Callable (frameA n) s := ⟨hnone, fun _ => hn, nofun⟩

theorem callable_frameB {s : State} (hlen : s.pb.len ≤ s.params.bOutCap) (hnone : noneAwaits s .pb) :
    Callable frameB s := ⟨hnone, nofun, fun _ => hlen⟩

/-- Settles O15: the calls of a frame, from a session with the whole stream ahead. -/
theorem paResumptionLaw : Obligations.PaResumptionLaw := by
  intro s n budgets hn hqueue hpa hnone
  have hahead := pairsAhead_frameA n hpa
  obtain ⟨t, ht, htaken⟩ := resumeCalls_taken (callable_frameA hn hnone) (by simp [hahead]) hqueue
  rw [hahead, streamA_length] at ht
  exact ⟨streamA_length .., t, ht, htaken.frame, fun hall => htaken.reset (by rwa [hahead, streamA_length])⟩

/-- Budgets of which infinitely many are at least one exceed every bound together (R270). -/
theorem exists_le_sum_range {f : Nat → Nat} (hfair : ∀ m, ∃ k, m ≤ k ∧ 1 ≤ f k) (bound : Nat) :
    ∃ k, bound ≤ ((List.range k).map f).sum := by
  have hmono : Monotone fun k => ((List.range k).map f).sum :=
    monotone_nat_of_le_succ fun k => by simp [List.range_succ]
  induction bound with
  | zero => exact ⟨0, Nat.zero_le _⟩
  | succ bound ih =>
    obtain ⟨m, hm⟩ := ih
    obtain ⟨k, hk, hf⟩ := hfair m
    have hmk : ((List.range m).map f).sum ≤ ((List.range k).map f).sum := hmono hk
    refine ⟨k + 1, ?_⟩
    rw [List.range_succ, List.map_append, List.sum_append, List.map_singleton, List.sum_singleton]
    omega

/-- Under fair budgets finitely many calls return all pairs ahead, and `COMPLETE`. -/
theorem resumeCalls_complete {x : Transmit} {f : Nat → Nat} {s : State} (hs : Callable x s)
    (hmore : 0 < (pairsAhead s x).length) (hqueue : ∀ k, f k ≤ s.params.queueDepth)
    (hfair : ∀ m, ∃ k, m ≤ k ∧ 1 ≤ f k) :
    ∃ k t, resumeCalls (resumeOp x) ((List.range k).map f) s = some (pairsAhead s x, true, t) := by
  obtain ⟨k, hk⟩ := exists_le_sum_range hfair (pairsAhead s x).length
  obtain ⟨t, ht, -⟩ := resumeCalls_taken hs hmore (budgets := (List.range k).map f) (by simp [hqueue])
  rw [List.take_of_length_le hk, decide_eq_true hk] at ht
  exact ⟨k, t, ht⟩

/-- Settles O24: both encoders have their whole frame ahead, and it is not empty. -/
theorem fairBudgetsReachCompletion : Obligations.FairBudgetsReachCompletion := by
  intro s n f hqueue hfair
  refine ⟨fun hn hpa hnone => ?_, fun _ hpos hlen hbi hk hnone => ?_⟩
  · have hahead := pairsAhead_frameA n hpa
    rw [← hahead]
    exact resumeCalls_complete (callable_frameA hn hnone) (by simp [hahead]) hqueue hfair
  · have hahead := pairsAhead_frameB hbi hk
    rw [← hahead]
    exact resumeCalls_complete (callable_frameB hlen hnone) (by simp [hahead, hpos]) hqueue hfair

end Sys2Proof.Machine
end

section
/-! PROOFS of the family `42_protocol_b`: what `PB_FRAME` builds (`PbFrameBuildsTheFrame`) and what it rejects
(`PbFrameRejectsBeforeWriting`), on its own and in a send (`PbSendRejectsBeforeTransmission`), one resume call and
its resume step in a transmit (`PbResumeEmitsTheNextPairs`), the calls of one frame joined (`PbResumptionLaw`) and
the reset (`PbResetEmptiesTheSession`). -/

namespace Sys2Proof.Machine

/-! ## One resume call -/

theorem wellFormed_pbResume {p : Params} {b : Nat} :
    wellFormed p (.pbResume b) = true ↔ b ≤ p.queueDepth := by
  simp [wellFormed]

/-- `PB_RESUME` in a transmit that waits for its pairs is that transmit's resume step (R264). -/
theorem execPbResume_inside {b : Nat} {s : State} {c : Chan} {x : Transmit}
    (hw : wellFormed s.params (.pbResume b) = true) (h : awaits s c x .pb) :
    execPbResume b s = resumeStep c s.issue.f b s (pbResumeCall b s (stagePairs c x)) := by
  simp only [execPbResume, withOperands_ok hw, resumeTarget_of h]

/-- The frame of a resume step: a call of the encoder that moved its session alone, then its pairs staged. -/
theorem SameBut.staged {q : Part} {s u : State} {c : Chan} (h : SameBut [q] s u) (hch : u.ch c = s.ch c)
    (x : Transmit) (out : List Pair) (st : ResumeStatus) :
    SameBut [q, .ch c, .line (s.ch c).pin] s (stagePairs c x out st u) := by
  have hstaged := stagePairs_frame c x out st u
  rw [hch] at hstaged
  exact (h.mono (by simp)).trans (hstaged.mono (by simp))

/-- Settles O22: the call is `pbResume`, whose pairs are returned outside a transmit and staged in one. -/
theorem pbResumeEmitsTheNextPairs : Obligations.PbResumeEmitsTheNextPairs := by
  intro s b hb hlen at_ pairs
  have hw : wellFormed s.params (.pbResume b) = true := wellFormed_pbResume.mpr hb
  obtain ⟨st, pb', hr, hcomplete, hemptied, hyielded⟩ := pbResume_spec s.params s.mem b s.pb hlen
  have hcall : ∀ k, pbResumeCall b s k = .next (k pairs st (s.setPb pb')) := fun k => by
    rw [pbResumeCall, hr, orOutOfRange_some]
  refine ⟨st, pb', hcomplete, hemptied, hyielded, fun hnone => ?_, fun c x hwaits => ?_⟩
  · exact ⟨_, execPbResume_outside hw hnone hr, rfl, rfl,
      (SameBut.setPb _ _).trans ((SameBut.answer _ _).mono (by simp))⟩
  · have hexec : exec (.pbResume b) s = _ := execPbResume_inside hw hwaits
    have hch : (s.setPb pb').ch c = s.ch c := State.setPb_ch ..
    rw [hexec, hcall]
    refine ⟨fun hf hdepth => ?_, fun hf hdepth => ?_, fun hf => ?_⟩
    · rw [hf, resumeStep_ok hdepth]
      refine ⟨_, rfl, stagePairs_out .., stagePairs_pb .., ?_, fun hline => ?_,
        (SameBut.setPb s pb').staged hch x pairs st⟩
      · rw [stagePairs_ch, hch]
      · rw [stagePairs_line (by simpa using hline), hch, if_pos rfl, State.setPb_obs]
        rfl
    · rw [hf, resumeStep, if_pos hdepth]
    · rw [hf]
      exact ⟨_, rfl, finishTransmit_out .., finishTransmit_ch .., finishTransmit_frame c .eHw s⟩

/-! ## The calls of one frame -/

/-- Settles O23: the calls of a frame, from a session with the whole frame ahead. -/
theorem pbResumptionLaw : Obligations.PbResumptionLaw := by
  intro s budgets _ hpos hlen hbi hk hqueue hnone
  have hahead := pairsAhead_frameB hbi hk
  obtain ⟨t, ht, htaken⟩ := resumeCalls_taken (callable_frameB hlen hnone) (by simp [hahead, hpos]) hqueue
  rw [hahead, streamB_length] at ht
  exact ⟨streamB_length .., t, ht, htaken.frame, fun hall => htaken.reset (by rwa [hahead, streamB_length])⟩

/-! ## The framer -/

theorem wellFormed_pbFrame {p : Params} {n : Nat} : wellFormed p (.pbFrame n) = true ↔ n ≤ p.bInCap := by
  simp [wellFormed]

/-- While a frame is loaded the framer has no step (R195). -/
theorem execPbFrame_loaded {n : Nat} {s : State} (hn : n ≤ s.params.bInCap) (hloaded : s.pb.st = .loaded) :
    execPbFrame n s = .refused .frameLoaded := by
  rw [execPbFrame, withOperands_ok (wellFormed_pbFrame.mpr hn), if_pos hloaded]

/-- An aligned input that fits is framed (R195). -/
theorem execPbFrame_aligned {n : Nat} {s : State} (hempty : s.pb.st = .empty) (hn : n ≤ s.params.bInCap)
    (h4 : 4 ≤ n) (heven : (n - 4) % 2 = 0) (hfits : frameLen s.pb.npre n ≤ s.params.bOutCap) :
    execPbFrame n s
      = orOutOfRange (frameWrite s.params s.pb n s.mem) fun r => .next (frameAnswer s n r) := by
  rw [execPbFrame, withOperands_ok (wellFormed_pbFrame.mpr hn), if_neg (by simp [hempty]), if_neg (by omega),
    if_neg (by omega), if_neg (by omega)]

/-- The framer's error for an input of `n` bytes it rejects: alignment comes first (R194). -/
def framerError (n : Nat) : Status := if n < 4 ∨ (n - 4) % 2 = 1 then .eAlign else .eCapacity

theorem framerError_ne_ok (n : Nat) : framerError n ≠ .ok := by
  unfold framerError
  split <;> nofun

/-- The inputs the framer rejects: no word-aligned frame, or one that does not fit (R191 to R193). -/
def Rejects (s : State) (n : Nat) : Prop :=
  n < 4 ∨ (n - 4) % 2 = 1 ∨ s.params.bOutCap < frameLen s.pb.npre n

/-- A rejected input empties the session and answers the error (R195). -/
theorem execPbFrame_rejects {n : Nat} {s : State} (hempty : s.pb.st = .empty) (hn : n ≤ s.params.bInCap)
    (h : Rejects s n) :
    execPbFrame n s = .next ((s.setPb (pbRejected s.pb)).answer (.status (framerError n))) := by
  rw [execPbFrame, withOperands_ok (wellFormed_pbFrame.mpr hn), if_neg (by simp [hempty])]
  by_cases hshort : n < 4
  · rw [if_pos hshort, framerError, if_pos (.inl hshort)]
  by_cases hodd : (n - 4) % 2 = 1
  · rw [if_neg hshort, if_pos hodd, framerError, if_pos (.inr hodd)]
  have hlong : s.params.bOutCap < frameLen s.pb.npre n := (h.resolve_left hshort).resolve_left hodd
  rw [if_neg hshort, if_neg hodd, if_pos hlong, framerError, if_neg (by tauto)]

/-- What is left of the state after a rejected input: all but the session. -/
theorem exists_exec_pbFrame_rejected {n : Nat} {s : State} (hempty : s.pb.st = .empty) (hn : n ≤ s.params.bInCap)
    (h : Rejects s n) : ∃ t, exec (.pbFrame n) s = .next t ∧ t.out = ⟨.status (framerError n), false⟩ ∧
      t.pb = pbRejected s.pb ∧ SameBut [.pb] s t :=
  ⟨_, execPbFrame_rejects hempty hn h, rfl, rfl, (SameBut.setPb _ _).trans ((SameBut.answer _ _).mono (by simp))⟩

/-- Settles O19: the framer's bytes are those of `frameWrite`, and the session is loaded with their number. -/
theorem pbFrameBuildsTheFrame : Obligations.PbFrameBuildsTheFrame := by
  intro s n hempty hok hn h4 heven hfits
  obtain ⟨m, hwrite, -, hm, hpre, hstart, hgroups, hkept⟩ :=
    frameWrite_spec s.params s.pb n s.mem hok h4 hn heven hfits
  have hexec : exec (.pbFrame n) s = .next (frameAnswer s n (.ok, 3 * ((n - 4) / 2), m)) := by
    rw [exec, execPbFrame_aligned hempty hn h4 heven hfits, hwrite, orOutOfRange_some]
  refine ⟨_, hexec, rfl, ?_, rfl, hpre, hstart, fun g hg => ?_, hkept⟩
  · exact ((SameBut.setOutB s m hm).mono (by simp)).trans
      (((SameBut.setPb _ _).mono (by simp)).trans ((SameBut.answer _ _).mono (by simp)))
  · have h5 : s.pb.npre + 5 + 3 * g = s.pb.npre + 4 + 3 * g + 1 := by omega
    have h6 : s.pb.npre + 6 + 3 * g = s.pb.npre + 4 + 3 * g + 2 := by omega
    have hsecond : 5 + 2 * g = 4 + 2 * g + 1 := by omega
    rw [h5, h6, hsecond]
    exact hgroups g hg

/-- Settles O20: both errors are the framer's one rejection, which comes before `frameWrite`. -/
theorem pbFrameRejectsBeforeWriting : Obligations.PbFrameRejectsBeforeWriting := by
  intro s n hn
  refine ⟨execPbFrame_loaded hn, fun hempty hmisaligned => ?_, fun hempty h4 heven hlong => ?_⟩
  · have herror : framerError n = .eAlign := if_pos hmisaligned
    rw [← herror]
    exact exists_exec_pbFrame_rejected hempty hn (hmisaligned.imp_right .inl)
  · have herror : framerError n = .eCapacity := if_neg (by omega)
    rw [← herror]
    exact exists_exec_pbFrame_rejected hempty hn (.inr (.inr hlong))

/-! ## The last step of `PB_SEND` -/

/-- A free caller's send takes its next step, whatever its operation answers. -/
theorem present_sendStep_eq {s : State} {c : Chan} {x : Send} {i : Instr} (hx : s.send c = some x)
    (hfree : freeToSend s c) (hop : sendOp s.params c x = some i) (f : Hw) :
    present (.sendStep c f) s = andThen (exec i (s.setIssue ⟨.txCaller c, f⟩)) (sendNext c x) := by
  have hA : transmitBlocks c s.chA.tx = false := hfree.not_blocks .a
  have hB : transmitBlocks c s.chB.tx = false := hfree.not_blocks .b
  simp only [present, sendAdvance, hx, hop, hA, hB, Bool.or_false, Bool.false_eq_true, if_false]

/-- A `PB_SEND` whose operation moves the session alone, and that returns on its answer, has changed nothing else
with that step. -/
theorem pbSend_returns {s : State} {x : Send} {i : Instr} {f : Hw} {pb : PbSession} {r : Result} {st : Status}
    (hx : s.send .b = some x) (hfree : freeToSend s .b) (hop : sendOp s.params .b x = some i)
    (hexec : exec i (s.setIssue ⟨.txCaller .b, f⟩)
      = .next (((s.setIssue ⟨.txCaller .b, f⟩).setPb pb).answer r))
    (hreturn : ∀ u : State, u.out.result = r → sendNext .b x u = sendReturn .b st x.warn u) :
    ∃ t, present (.sendStep .b f) s = .next t ∧ t.sendB = none ∧ t.out = ⟨.sent st x.warn, false⟩ ∧
      t.pb = pb ∧ SameBut [.pb, .send .b, .issue] s t := by
  have hstep := (present_sendStep hx hfree hop hexec).trans (hreturn _ rfl)
  refine ⟨_, hstep, rfl, rfl, rfl, ?_⟩
  exact ((SameBut.setIssue _ _).mono (by simp)).trans (((SameBut.setPb _ _).mono (by simp)).trans
    (((SameBut.answer _ r).mono (by simp)).trans (((SameBut.setSend _ .b none).mono (by simp)).trans
      ((SameBut.answer _ _).mono (by simp)))))

/-- Settles O36: the send's framing is `PB_FRAME` of the bytes read, and its error ends the send before any channel
call. -/
theorem pbSendRejectsBeforeTransmission : Obligations.PbSendRejectsBeforeTransmission := by
  intro s x f hx hstage hfree hn
  have hsend : s.send .b = some x := hx
  have hop : sendOp s.params .b x = some (.pbFrame x.n) := by simp [sendOp, hstage]
  refine ⟨fun hempty hrejects => ?_, fun hloaded => ?_⟩
  · refine pbSend_returns hsend hfree hop
      (execPbFrame_rejects (s := s.setIssue ⟨.txCaller .b, f⟩) hempty hn hrejects) fun u hu => ?_
    have hstatus : resultStatus u.out.result = framerError x.n := by rw [hu, resultStatus]
    simp only [sendNext, hstage, hstatus, if_neg (framerError_ne_ok x.n)]
    rfl
  · have hrefused : exec (.pbFrame x.n) (s.setIssue ⟨.txCaller .b, f⟩) = .refused .frameLoaded :=
      execPbFrame_loaded (s := s.setIssue ⟨.txCaller .b, f⟩) hn hloaded
    rw [present_sendStep_eq hsend hfree hop, hrefused, andThen]

/-! ## The reset -/

/-- The reset's word needs only an agent that may step. -/
theorem step_pbReset {s : State} {ag : Agent} {ports : Ports} {f : Hw} {es : List Event}
    (hevents : s.events = .op ag 0x21 ports f :: es)
    (hag : ag = .txPeriph ∨ ∃ x, ag = .txCaller x ∧ callerBlocked s x = false) :
    step s = exec .pbReset ((s.setEvents es).setIssue ⟨ag, f⟩) := by
  have hissuer : mayIssue ag .pbReset = true ∧ agentBlocked s ag = false ∧ ag ≠ .rxIsr := by
    obtain rfl | ⟨x, rfl, hfree⟩ := hag
    · exact ⟨rfl, rfl, nofun⟩
    · exact ⟨rfl, hfree, nofun⟩
  obtain ⟨hmay, hfree, hisr⟩ := hissuer
  exact stepRunsTheDecodedOperation s ag 0x21 ports f es .pbReset hevents rfl hmay hfree nofun (absurd · hisr)

/-- Settles O21: the reset empties the session whatever it was, as a word of its own and as a send's last step. -/
theorem pbResetEmptiesTheSession : Obligations.PbResetEmptiesTheSession := by
  have hframe (s : State) : SameBut [.pb] s ((s.setPb (pbEmptied s.pb)).answer .none) :=
    (SameBut.setPb _ _).trans ((SameBut.answer _ _).mono (by simp))
  refine ⟨fun s => ⟨_, rfl, rfl, rfl, hframe s, rfl⟩, fun s ag ports f es hevents hag => ?_,
    fun s x f hx hstage hfree => ?_⟩
  · refine ⟨_, step_pbReset hevents hag, rfl, rfl, ?_⟩
    exact ((SameBut.setEvents _ es).mono (by simp)).trans (((SameBut.setIssue _ ⟨ag, f⟩).mono (by simp)).trans
      ((hframe _).mono (by simp)))
  · have hsend : s.send .b = some x := hx
    have hop : sendOp s.params .b x = some .pbReset := by simp [sendOp, hstage]
    exact pbSend_returns hsend hfree hop rfl fun u _ => by simp only [sendNext, hstage]

end Sys2Proof.Machine
end

section
/-! PROOFS of the family `43_rx_decoder`, operation by operation: reset and ticks (`RxResetArmsTheReceiver`,
`RxTickCountsTheTimer`, `OverflowComesAfterTheTimersPeriod`), the overflow handler
(`OverflowHandlerClearsTheCounters`), edges (`FallingEdgeDecodesTheGap`, `RisingEdgeRecordsOrSeals`,
`BootCommandJumps`), the two states that ignore them (`BackPressureIgnoresEdges`, `BootedReceiverIsInert`), the
main loop's accesses (`ClaimTakesTheFrame`, `MainLoopAccessesReadTheState`) and what no operation can do
(`BootJumpExactlyOnce`, `SealedFrameIsStable`). First one equation an operation and branch; the statements cite
these. -/

namespace Sys2Proof.Machine

/-! ## Reset and ticks -/

theorem exec_rxReset (s : State) : exec .rxReset s = .next ((s.setRx rxInitial).answer .none) := rfl

/-- Settles O39: a second reset writes the same values again. -/
theorem rxResetArmsTheReceiver : Obligations.RxResetArmsTheReceiver := fun s =>
  ⟨_, exec_rxReset s, rfl, rfl, rfl, SameBut.setRx_answer _ _ _, rfl⟩

/-- The receiver after one tick (R221). -/
def tickRx (tmrMax : Nat) (rx : Rx) : Rx :=
  if rx.tmr = tmrMax then { rx with tmr := 0, ovfPend := true } else { rx with tmr := rx.tmr + 1 }

theorem exec_rxTick (s : State) :
    exec .rxTick s = .next ((s.setRx (tickRx s.params.tmrMax s.rx)).answer .none) := by
  simp only [exec, execRxTick, tickTimer, tickOverflow, tickRx]
  by_cases hwrap : s.rx.tmr = s.params.tmrMax <;> simp [hwrap]

/-- Settles O40: the tick's two branches are `tickRx`. -/
theorem rxTickCountsTheTimer : Obligations.RxTickCountsTheTimer := fun s =>
  ⟨_, exec_rxTick s, rfl, SameBut.setRx_answer _ _ _, rfl⟩

/-! ## Runs of ticks -/

/-- The receiver `k` ticks later: the timer modulo its period, the overflow pending once it has wrapped. -/
def rxAfterTicks (tmrMax : Nat) (rx : Rx) (k : Nat) : Rx :=
  { rx with tmr := (rx.tmr + k) % (tmrMax + 1), ovfPend := rx.ovfPend || decide (tmrMax < rx.tmr + k) }

theorem rxAfterTicks_zero {tmrMax : Nat} {rx : Rx} (h : rx.tmr ≤ tmrMax) : rxAfterTicks tmrMax rx 0 = rx := by
  have hmod : rx.tmr % (tmrMax + 1) = rx.tmr := Nat.mod_eq_of_lt (by omega)
  simp [rxAfterTicks, hmod, Nat.not_lt.mpr h]

/-- One tick before `k` others makes `k + 1` ticks. -/
theorem rxAfterTicks_tickRx (tmrMax : Nat) (rx : Rx) (k : Nat) :
    rxAfterTicks tmrMax (tickRx tmrMax rx) k = rxAfterTicks tmrMax rx (k + 1) := by
  unfold tickRx
  split
  next hwrap =>
    have hmod : (tmrMax + (k + 1)) % (tmrMax + 1) = k % (tmrMax + 1) := by
      rw [show tmrMax + (k + 1) = k + (tmrMax + 1) by omega, Nat.add_mod_right]
    simp [rxAfterTicks, hwrap, hmod]
  next => simp [rxAfterTicks, show rx.tmr + (k + 1) = rx.tmr + 1 + k by omega]

theorem tickRx_tmr_le {tmrMax : Nat} {rx : Rx} (h : rx.tmr ≤ tmrMax) : (tickRx tmrMax rx).tmr ≤ tmrMax := by
  unfold tickRx
  split
  · exact Nat.zero_le _
  · exact show rx.tmr + 1 ≤ tmrMax by omega

/-- What a run of ticks answers: beside the outputs, only the timer and the pending flag have moved. -/
theorem runOps_ticks {s : State} (h : s.rx.tmr ≤ s.params.tmrMax) (k : Nat) :
    ∃ o, runOps (List.replicate k .rxTick) s
      = .next ((s.setRx (rxAfterTicks s.params.tmrMax s.rx k)).setOut o) := by
  induction k generalizing s with
  | zero => exact ⟨s.out, by rw [rxAfterTicks_zero h]; rfl⟩
  | succ k ih =>
    obtain ⟨o, ho⟩ := ih (s := (s.setRx (tickRx s.params.tmrMax s.rx)).answer .none) (tickRx_tmr_le h)
    refine ⟨o, ?_⟩
    rw [List.replicate_succ, runOps, exec_rxTick, andThen_next_eq, ho]
    simp only [State.answer_rx, State.setRx_rx, State.answer_params, State.setRx_params,
      rxAfterTicks_tickRx]
    rfl

theorem SameBut.setRx_setOut (s : State) (x : Rx) (o : Outputs) : SameBut [.rx] s ((s.setRx x).setOut o) :=
  (SameBut.setRx _ _).trans ((SameBut.setOut _ _).mono (by simp))

/-- The same by field and frame. -/
theorem runOps_ticks_rx {s : State} (h : s.rx.tmr ≤ s.params.tmrMax) (k : Nat) :
    ∃ t, runOps (List.replicate k .rxTick) s = .next t ∧ t.rx = rxAfterTicks s.params.tmrMax s.rx k ∧
      SameBut [.rx] s t := by
  obtain ⟨o, ho⟩ := runOps_ticks h k
  exact ⟨_, ho, rfl, SameBut.setRx_setOut _ _ _⟩

theorem runOps_append_of {is js : List Instr} {s t : State} (h : runOps is s = .next t) :
    runOps (is ++ js) s = runOps js t := by
  induction is generalizing s with
  | nil => cases h; rfl
  | cons i is ih =>
    obtain ⟨u, hu, hrest⟩ := andThen_next.mp h
    rw [List.cons_append, runOps, hu, andThen_next_eq, ih hrest]

theorem runOps_cons_of {i : Instr} {is : List Instr} {s t : State} (h : exec i s = .next t) :
    runOps (i :: is) s = runOps is t := by
  rw [runOps, h, andThen_next_eq]

/-! ## The overflow handler -/

theorem exec_rxOvf {s : State} (hbooted : s.rx.booted = false) (hpend : s.rx.ovfPend = true) :
    exec .rxOvf s = .next ((s.setRx (overflowCleared s.rx)).answer .none) := by
  simp [exec, execRxOvf, hbooted, hpend]

theorem exec_rxOvf_booted {s : State} (hbooted : s.rx.booted = true) (hpend : s.rx.ovfPend = true) :
    exec .rxOvf s = .next ((s.setRx { s.rx with ovfPend := false }).answer .none) := by
  simp [exec, execRxOvf, hbooted, hpend]

theorem exec_rxOvf_idle {s : State} (hpend : s.rx.ovfPend = false) :
    exec .rxOvf s = .refused .overflowNotPending := by
  simp [exec, execRxOvf, hpend]

/-- Of what the ticks count, the handler clears the pending flag and keeps the timer, whether the node has jumped
or not (R236). -/
theorem exec_rxOvf_timer {s : State} (hpend : s.rx.ovfPend = true) :
    ∃ t, exec .rxOvf s = .next t ∧ t.rx.tmr = s.rx.tmr ∧ t.rx.ovfPend = false ∧ SameBut [.rx] s t := by
  cases hbooted : s.rx.booted with
  | true => exact ⟨_, exec_rxOvf_booted hbooted hpend, rfl, rfl, SameBut.setRx_answer _ _ _⟩
  | false => exact ⟨_, exec_rxOvf hbooted hpend, rfl, rfl, SameBut.setRx_answer _ _ _⟩

theorem overflowCleared_eq {rx : Rx} (hbooted : rx.booted = false) :
    overflowCleared rx = ⟨rx.tmr, false, 0, 0, 0, 0, rx.rxBufLen, false, false⟩ := by
  simp [overflowCleared, hbooted]

/-- With the counters at zero only the length tells the receiver's state (R53). -/
theorem rxView_counters_zero (tmr len : Nat) (pend active : Bool) :
    rxView ⟨tmr, pend, 0, 0, 0, 0, len, active, false⟩ = if len = 0 then .idleArmed else .frameReady := by
  by_cases hlen : len = 0 <;> simp [rxView, hlen]

/-- Settles O47: the handler clears the counters of a node that runs its application. -/
theorem overflowHandlerClearsTheCounters : Obligations.OverflowHandlerClearsTheCounters := by
  refine fun s hbooted => ⟨fun hpend => ?_, exec_rxOvf_idle⟩
  have hrx := overflowCleared_eq hbooted
  refine ⟨_, exec_rxOvf hbooted hpend, rfl, hrx, ?_, SameBut.setRx_answer _ _ _⟩
  rw [State.answer_rx, State.setRx_rx, hrx, rxView_counters_zero]

/-! ## Falling edges -/

theorem exec_rxFall_ignored {s : State} (h : edgesIgnored s.rx = true) :
    exec .rxFall s = .next (s.answer .none) := by
  simp [exec, execRxFall, h]

/-- The first falling edge of a frame: with no reference there is no gap to decode (R226). -/
theorem exec_rxFall_first {s : State} (h : edgesIgnored s.rx = false) (href : s.rx.ref = 0) :
    exec .rxFall s = .next ((s.setRx { s.rx with tmr := 0, commActive := true }).answer .none) := by
  simp [exec, execRxFall, h, href]

/-- The byte a falling edge leaves: the decoded bit at the place of the bit count (R227, R228). -/
def fallByte (rx : Rx) : Byte := placeBit rx.rxByte (bitOf rx.tmr rx.ref) rx.rxBits

/-- A bit before the eighth goes into the current byte. -/
theorem exec_rxFall_places {s : State} (h : edgesIgnored s.rx = false) (href : s.rx.ref ≠ 0)
    (hbits : s.rx.rxBits ≠ 7) :
    exec .rxFall s = .next ((s.setRx { s.rx with
      tmr := 0, commActive := true, rxByte := fallByte s.rx, rxBits := s.rx.rxBits + 1 }).answer .none) := by
  simp only [exec, execRxFall, h, href, appendBit_eq, State.setRx_rx, hbits, fallByte]
  rfl

/-- The eighth bit stores the byte while the buffer has room (R230). -/
theorem exec_rxFall_stores {s : State} (h : edgesIgnored s.rx = false) (href : s.rx.ref ≠ 0)
    (hbits : s.rx.rxBits = 7) (hroom : s.rx.rxIdx < rxCap) :
    exec .rxFall s = .next (((s.setMem
      (s.mem.setBank .rxBuf (bankSet s.mem.rxBuf s.rx.rxIdx (fallByte s.rx)))).setRx { s.rx with
      tmr := 0, commActive := true, rxByte := 0, rxBits := 0, rxIdx := s.rx.rxIdx + 1 }).answer .none) := by
  simp only [exec, execRxFall, h, href, appendBit_eq, State.setRx_rx, hbits, hroom, fallByte]
  rfl

/-- The eighth bit of a byte beyond the buffer's capacity drops the byte (R230). -/
theorem exec_rxFall_drops {s : State} (h : edgesIgnored s.rx = false) (href : s.rx.ref ≠ 0)
    (hbits : s.rx.rxBits = 7) (hfull : ¬ s.rx.rxIdx < rxCap) :
    exec .rxFall s = .next ((s.setRx { s.rx with
      tmr := 0, commActive := true, rxByte := 0, rxBits := 0 }).answer .none) := by
  simp only [exec, execRxFall, h, href, appendBit_eq, State.setRx_rx, hbits, hfull]
  rfl

/-- The buffer reads as before but at the index written. -/
theorem byteAt_rxBuf_stored {m : Memory} (hm : Bank.wf m.rxBuf) (i j : Nat) (x : Byte) :
    (m.setBank .rxBuf (bankSet m.rxBuf i x)).byteAt .rxBuf j = if j = i then x else m.byteAt .rxBuf j :=
  bankGet_bankSet hm i j x

/-- Settles O42: the four branches of a processed falling edge, in the order of the statement. -/
theorem fallingEdgeDecodesTheGap : Obligations.FallingEdgeDecodesTheGap := by
  intro s hbooted hlen hmem byte
  have hedge : edgesIgnored s.rx = false := edgesIgnored_eq_false.mpr ⟨hbooted, hlen⟩
  have hbyte : fallByte s.rx = byte := placeBit_eq _ _ _ _
  by_cases href : s.rx.ref = 0
  · refine ⟨_, exec_rxFall_first hedge href, rfl, ?_⟩
    rw [if_pos href]
    exact ⟨rfl, SameBut.setRx_answer _ _ _⟩
  by_cases hbits : s.rx.rxBits = 7
  · by_cases hroom : s.rx.rxIdx < 10
    · have hexec := exec_rxFall_stores hedge href hbits hroom
      refine ⟨_, hexec, rfl, ?_⟩
      rw [if_neg href, if_neg (not_not.mpr hbits), if_pos hroom]
      refine ⟨rfl, ?_, fun i hi => ?_, exec_frame hexec⟩
      · exact (byteAt_rxBuf_stored hmem.1 _ _ _).trans ((if_pos rfl).trans hbyte)
      · exact (byteAt_rxBuf_stored hmem.1 _ _ _).trans (if_neg hi)
    · refine ⟨_, exec_rxFall_drops hedge href hbits hroom, rfl, ?_⟩
      rw [if_neg href, if_neg (not_not.mpr hbits), if_neg hroom]
      exact ⟨rfl, SameBut.setRx_answer _ _ _⟩
  · refine ⟨_, exec_rxFall_places hedge href hbits, rfl, ?_⟩
    rw [if_neg href, if_pos hbits, hbyte]
    exact ⟨rfl, SameBut.setRx_answer _ _ _⟩

/-! ## Rising edges -/

theorem exec_rxRise_ignored {s : State} (h : edgesIgnored s.rx = true) :
    exec .rxRise s = .next (s.answer .none) := by
  simp [exec, execRxRise, h]

theorem isTerm_iff {e ref : Nat} : isTerm e ref = true ↔ ref ≠ 0 ∧ 2 * ref < e := by
  simp [isTerm]

/-- A pulse that is no terminator becomes the reference (R231). -/
theorem exec_rxRise_records {s : State} (h : edgesIgnored s.rx = false)
    (hpulse : ¬ (s.rx.ref ≠ 0 ∧ 2 * s.rx.ref < s.rx.tmr)) :
    exec .rxRise s = .next ((s.setRx { s.rx with tmr := 0, ref := s.rx.tmr }).answer .none) := by
  simp only [exec, execRxRise, h, isTerm_iff, hpulse]
  rfl

/-- A terminator seals a frame that is not the boot command (R233). -/
theorem exec_rxRise_seals {s : State} (h : edgesIgnored s.rx = false) (href : s.rx.ref ≠ 0)
    (hpulse : 2 * s.rx.ref < s.rx.tmr) (hboot : bootMatch s.params s.mem s.rx.rxIdx = false) :
    exec .rxRise s = .next ((s.setRx (sealFrame { s.rx with tmr := 0 })).answer .none) := by
  simp only [exec, execRxRise, h, isTerm_iff.mpr ⟨href, hpulse⟩, hboot]
  rfl

/-- A terminator that seals the boot command jumps (R241). -/
theorem exec_rxRise_jumps {s : State} (h : edgesIgnored s.rx = false) (href : s.rx.ref ≠ 0)
    (hpulse : 2 * s.rx.ref < s.rx.tmr) (hboot : bootMatch s.params s.mem s.rx.rxIdx = true) :
    exec .rxRise s = .next (bootJump (s.setRx (sealFrame { s.rx with tmr := 0 }))) := by
  simp only [exec, execRxRise, h, isTerm_iff.mpr ⟨href, hpulse⟩, hboot]
  rfl

/-- Settles O43: recording and sealing are the branches of `is_term`. -/
theorem risingEdgeRecordsOrSeals : Obligations.RisingEdgeRecordsOrSeals := by
  intro s hbooted hlen
  have hedge : edgesIgnored s.rx = false := edgesIgnored_eq_false.mpr ⟨hbooted, hlen⟩
  refine ⟨fun hpulse => ?_, fun href hpulse hother => ?_⟩
  · exact ⟨_, exec_rxRise_records hedge hpulse, rfl, SameBut.setRx_answer _ _ _, rfl⟩
  · have hboot : bootMatch s.params s.mem s.rx.rxIdx = false := by
      rw [← Bool.not_eq_true, bootMatch_iff]
      exact fun ⟨hidx, hbytes⟩ => hother hidx hbytes
    exact ⟨_, exec_rxRise_seals hedge href hpulse hboot, rfl, SameBut.setRx_answer _ _ _, rfl⟩

/-- Settles O44: the jump is the seal's branch where the boot command matches. -/
theorem bootCommandJumps : Obligations.BootCommandJumps := by
  intro s hbooted hlen href hpulse hidx hbytes
  have hedge : edgesIgnored s.rx = false := edgesIgnored_eq_false.mpr ⟨hbooted, hlen⟩
  have hexec := exec_rxRise_jumps hedge href hpulse (bootMatch_iff _ _ _ |>.mpr ⟨hidx, hbytes⟩)
  exact ⟨_, hexec, rfl, rfl, rfl, exec_frame hexec⟩

/-! ## The timer between edges -/

/-- A processed edge restarts the timer and leaves the pending flag, whatever it decodes (R225). -/
theorem exec_edge_timer {s : State} {i : Instr} (hi : i ∈ ([.rxFall, .rxRise] : List Instr))
    (h : edgesIgnored s.rx = false) :
    ∃ t, exec i s = .next t ∧ t.rx.tmr = 0 ∧ t.rx.ovfPend = s.rx.ovfPend := by
  simp only [List.mem_cons, List.not_mem_nil, or_false] at hi
  obtain rfl | rfl := hi
  · by_cases href : s.rx.ref = 0
    · exact ⟨_, exec_rxFall_first h href, rfl, rfl⟩
    by_cases hbits : s.rx.rxBits = 7
    · by_cases hroom : s.rx.rxIdx < rxCap
      · exact ⟨_, exec_rxFall_stores h href hbits hroom, rfl, rfl⟩
      · exact ⟨_, exec_rxFall_drops h href hbits hroom, rfl, rfl⟩
    · exact ⟨_, exec_rxFall_places h href hbits, rfl, rfl⟩
  · by_cases hpulse : s.rx.ref ≠ 0 ∧ 2 * s.rx.ref < s.rx.tmr
    · cases hboot : bootMatch s.params s.mem s.rx.rxIdx with
      | true => exact ⟨_, exec_rxRise_jumps h hpulse.1 hpulse.2 hboot, rfl, rfl⟩
      | false => exact ⟨_, exec_rxRise_seals h hpulse.1 hpulse.2 hboot, rfl, rfl⟩
    · exact ⟨_, exec_rxRise_records h hpulse, rfl, rfl⟩

/-- A counter modulo `n + 1` that stands at `k % (n + 1)` wraps within `m` steps exactly where a multiple of
`n + 1` lies between `k` and `k + m`. -/
theorem wraps_iff_div_lt (n k m : Nat) :
    n < k % (n + 1) + m ↔ k / (n + 1) < (k + m) / (n + 1) := by
  have hk : (n + 1) * (k / (n + 1)) + k % (n + 1) = k := Nat.div_add_mod k (n + 1)
  have hle : k / (n + 1) + 1 ≤ (k + m) / (n + 1) ↔ (k / (n + 1) + 1) * (n + 1) ≤ k + m :=
    Nat.le_div_iff_mul_le n.succ_pos
  rw [Nat.succ_mul, Nat.mul_comm] at hle
  omega

/-- Settles O41: runs of ticks count modulo the period, and the handler between two runs clears the pending flag
alone of what they count. -/
theorem overflowComesAfterTheTimersPeriod : Obligations.OverflowComesAfterTheTimersPeriod := by
  refine ⟨fun s k htmr => ?_, fun s k m htmr hpend => ?_, fun s i hi hbooted hlen => ?_, fun s => ?_⟩
  · obtain ⟨t, ht, hrx, hframe⟩ := runOps_ticks_rx (s := s) (by omega) k
    refine ⟨t, ht, ?_, hframe⟩
    rw [hrx, rxAfterTicks, htmr, Nat.zero_add]
  · obtain ⟨u, hu, hurx, huframe⟩ := runOps_ticks_rx (s := s) (by omega) k
    have hutmr : u.rx.tmr = k % (s.params.tmrMax + 1) := by simp [hurx, rxAfterTicks, htmr]
    have hupend : u.rx.ovfPend = true := by simpa [hurx, rxAfterTicks, htmr] using hpend
    obtain ⟨v, hv, hvtmr, hvpend, hvframe⟩ := exec_rxOvf_timer hupend
    have hparams : v.params = s.params := huframe.trans hvframe .params (by simp)
    have hvle : v.rx.tmr ≤ v.params.tmrMax := by
      rw [hvtmr, hutmr, hparams]
      exact Nat.le_of_lt_succ (Nat.mod_lt _ (Nat.succ_pos _))
    obtain ⟨t, ht, hrx, hframe⟩ := runOps_ticks_rx hvle m
    refine ⟨t, by rw [runOps_append_of hu, runOps_cons_of hv, ht], ?_, ?_,
      huframe.trans (hvframe.trans hframe)⟩
    · simp only [hrx, rxAfterTicks, hparams, hvtmr, hutmr, Nat.mod_add_mod]
    · simp only [hrx, rxAfterTicks, hparams, hvtmr, hutmr, hvpend, Bool.false_or, wraps_iff_div_lt]
  · exact exec_edge_timer hi (edgesIgnored_eq_false.mpr ⟨hbooted, hlen⟩)
  · exact ⟨_, exec_rxReset s, rfl, rfl⟩

/-! ## The states that ignore edges -/

/-- Settles O45: the equations of the ignored edge; a tick and the handler go on as ever. -/
theorem backPressureIgnoresEdges : Obligations.BackPressureIgnoresEdges := by
  intro s hlen
  have hedge : edgesIgnored s.rx = true := by simp [edgesIgnored, hlen]
  refine ⟨⟨_, exec_rxFall_ignored hedge, rfl, SameBut.answer _ _⟩,
    ⟨_, exec_rxRise_ignored hedge, rfl, SameBut.answer _ _⟩,
    ⟨_, exec_rxTick s, SameBut.setRx_answer _ _ _, rfl⟩, fun hbooted hpend => ?_⟩
  exact ⟨_, exec_rxOvf hbooted hpend, SameBut.setRx_answer _ _ _, overflowCleared_eq hbooted⟩

theorem mainLoopAccess_booted {s : State} {k : StepOut State} (h : s.rx.booted = true) :
    mainLoopAccess s k = .refused .booted := by
  simp [mainLoopAccess, h]

/-- Settles O46: the same equations of the ignored edge, and the main loop's guard. -/
theorem bootedReceiverIsInert : Obligations.BootedReceiverIsInert := by
  intro s hbooted
  have hedge : edgesIgnored s.rx = true := by simp [edgesIgnored, hbooted]
  refine ⟨⟨_, exec_rxFall_ignored hedge, rfl, SameBut.answer _ _⟩,
    ⟨_, exec_rxRise_ignored hedge, rfl, SameBut.answer _ _⟩,
    fun hpend => ⟨_, exec_rxOvf_booted hbooted hpend, rfl, rfl, SameBut.setRx_answer _ _ _⟩,
    fun i hi => ?_, ⟨_, exec_rxTick s, SameBut.setRx_answer _ _ _, rfl⟩,
    ⟨_, exec_rxReset s, rfl, SameBut.setRx_answer _ _ _⟩⟩
  have hwf : wellFormed s.params (.rxReadBuf i) = true := by simpa [wellFormed] using hi
  exact ⟨mainLoopAccess_booted hbooted, mainLoopAccess_booted hbooted,
    (withOperands_ok hwf).trans (mainLoopAccess_booted hbooted), mainLoopAccess_booted hbooted,
    mainLoopAccess_booted hbooted⟩

/-! ## The main loop -/

/-- `RX_CLAIM` reads within the buffer, since no sealed frame is longer than it. -/
theorem exec_rxClaim {s : State} (hbooted : s.rx.booted = false) (hlen : s.rx.rxBufLen ≤ rxCap) :
    exec .rxClaim s = .next ((s.setRx { s.rx with rxBufLen := 0 }).answer
      (.claimed s.rx.rxBufLen ((List.range s.rx.rxBufLen).map (s.mem.byteAt .rxBuf)))) := by
  have hfits : 0 + s.rx.rxBufLen ≤ spaceSize s.params .rxBuf := by rwa [Nat.zero_add]
  simp only [exec, execRxClaim, mainLoopAccess_ok hbooted, memReadList_eq (.inr hfits), orOutOfRange_some,
    Nat.zero_add]

/-- Settles O51: it is the equation of `RX_CLAIM`. -/
theorem claimTakesTheFrame : Obligations.ClaimTakesTheFrame := fun _ hbooted hlen =>
  ⟨_, exec_rxClaim hbooted hlen, rfl, rfl, SameBut.setRx_answer _ _ _⟩

theorem exec_rxReadBuf {s : State} {i : Nat} (hbooted : s.rx.booted = false) (hi : i < rxCap) :
    exec (.rxReadBuf i) s = .next (s.answer (.byte (s.mem.byteAt .rxBuf i))) := by
  have hwf : wellFormed s.params (.rxReadBuf i) = true := by simpa [wellFormed] using hi
  have hread : memRead s.params s.mem .rxBuf i = some (s.mem.byteAt .rxBuf i) := memRead_eq hi
  simp only [exec, execRxReadBuf, withOperands_ok hwf, mainLoopAccess_ok hbooted, hread, orOutOfRange_some]

/-- Settles O52: outside the bootloader the main loop's guard lets every access through. -/
theorem mainLoopAccessesReadTheState : Obligations.MainLoopAccessesReadTheState := fun _ hbooted =>
  ⟨⟨_, mainLoopAccess_ok hbooted, rfl, SameBut.answer _ _⟩,
    fun _ hi => ⟨_, exec_rxReadBuf hbooted hi, rfl, SameBut.answer _ _⟩,
    ⟨_, mainLoopAccess_ok hbooted, rfl, SameBut.answer _ _⟩,
    ⟨_, mainLoopAccess_ok hbooted, rfl, rfl, SameBut.setRx_answer _ _ _⟩⟩

/-! ## What no operation does -/

/-- Settles O53: the length changes only at a rising edge that finds it zero and by the three consumers, and the
buffer only at a falling edge that finds it zero (`ReceiverFieldOwnership`, R54). -/
theorem sealedFrameIsStable : Obligations.SealedFrameIsStable := by
  intro i s t h hlen
  refine ⟨fun j => ?_, fun hclaim hclear hreset => ?_⟩
  · by_contra hj
    exact hlen (exec_rxBuf_changed h hj).2
  · by_contra hne
    obtain ⟨-, hzero⟩ | ⟨hi, -⟩ := exec_rxBufLen_changed h hne
    · exact hlen hzero
    · simp [hclaim, hclear, hreset] at hi

theorem packAnswer_bootJump (s : State) (r : Status × Nat × Memory) :
    (packAnswer s r).out.bootJump = false := by
  obtain ⟨st, -⟩ := r
  cases st <;> rfl

theorem frameAnswer_bootJump (s : State) (n : Nat) (r : Status × Nat × Memory) :
    (frameAnswer s n r).out.bootJump = false := by
  obtain ⟨st, -⟩ := r
  cases st <;> rfl

/-- Every operation but a rising edge ends in an answer without the strobe. -/
theorem exec_bootJump {i : Instr} {s t : State} (h : exec i s = .next t) (hi : i ≠ .rxRise) :
    t.out.bootJump = false := by
  cases i with
  | nibEnc v =>
    obtain ⟨-, h⟩ := withOperands_next.mp h
    obtain ⟨_, -, h⟩ := orOutOfRange_next.mp h
    cases h; rfl
  | pack2 b0 b1 =>
    simp only [exec, execPack2, withOperands_next] at h
    obtain ⟨-, h⟩ := h
    cases h; rfl
  | pack =>
    obtain ⟨-, -, r, -, rfl⟩ := execPack_next h
    exact packAnswer_bootJump s r
  | paReset | pbReset | rxReset | rxTick => cases h; rfl
  | paResume =>
    obtain ⟨-, ⟨-, r, -, rfl⟩ | ⟨c, x, -, rfl | ⟨r, -, rfl⟩⟩⟩ := execPaResume_next h <;> simp
  | pbResume =>
    obtain ⟨-, ⟨-, r, -, rfl⟩ | ⟨c, x, -, rfl | ⟨r, -, rfl⟩⟩⟩ := execPbResume_next h <;> simp
  | pbFrame n =>
    obtain ⟨-, -, ⟨st, -, rfl⟩ | ⟨-, -, -, r, -, rfl⟩⟩ := execPbFrame_next h
    · rfl
    · exact frameAnswer_bootJump s n r
  | chConfig => obtain ⟨-, -, ⟨-, rfl⟩ | ⟨-, rfl⟩⟩ := execChConfig_next h <;> rfl
  | chEnable => obtain ⟨-, ⟨-, rfl⟩ | ⟨-, rfl⟩⟩ := execChEnable_next h <;> rfl
  | chTransmit => obtain ⟨-, -, -, -, -, rfl⟩ := execChTransmit_next h; rfl
  | chDisable => obtain ⟨-, -, ⟨-, rfl⟩ | ⟨-, rfl⟩⟩ := execChDisable_next h <;> rfl
  | chDelete => obtain ⟨-, rfl⟩ := execChDelete_next h; rfl
  | rxFall => obtain ⟨-, rfl⟩ | ⟨-, -, rfl⟩ | ⟨-, -, u, -, rfl⟩ := fall_cases h <;> rfl
  | rxRise => exact absurd rfl hi
  | rxOvf => obtain ⟨-, ⟨-, rfl⟩ | ⟨-, rfl⟩⟩ := ovf_cases h <;> rfl
  | rxClaim => obtain ⟨-, r, rfl⟩ := claim_cases h; rfl
  | rxClearLen => obtain ⟨-, rfl⟩ := clear_cases h; rfl
  | rxReadLen | rxReadActive =>
    obtain ⟨-, h⟩ := mainLoopAccess_next.mp h
    cases h; rfl
  | rxReadBuf j =>
    obtain ⟨-, h⟩ := withOperands_next.mp h
    obtain ⟨-, h⟩ := mainLoopAccess_next.mp h
    obtain ⟨_, -, h⟩ := orOutOfRange_next.mp h
    cases h; rfl

/-- The jumps are counted by the rising edge alone. -/
theorem nboot_mem_writes {i : Instr} {s : State} (hw : Part.nboot ∈ writes s i) : i = .rxRise := by
  have hi : isReceiver i = true := isReceiver_of_mem_writes hw (by simp [transmittingParts])
  cases i with
  | rxRise => rfl
  | rxReset | rxTick | rxFall | rxOvf | rxClaim | rxClearLen | rxReadLen | rxReadBuf | rxReadActive =>
    simp [writes] at hw
  | nibEnc | pack2 | pack | paReset | paResume | pbFrame | pbReset | pbResume | chConfig | chEnable
  | chTransmit | chDisable | chDelete => simp [isReceiver, opWord, opUnit] at hi

/-- A rising edge without the seal of the boot command counts no jump and raises no strobe (R239, R241). -/
theorem execRxRise_jump {s t : State} (h : execRxRise s = .next t) :
    (t.obs.nboot = s.obs.nboot ∧ t.out.bootJump = false) ∨
      (s.rx.booted = false ∧ s.rx.ref ≠ 0 ∧ 2 * s.rx.ref < s.rx.tmr ∧ t.obs.nboot = s.obs.nboot + 1 ∧
        t.out.bootJump = true ∧ t.rx.booted = true ∧ t.rx.rxBufLen = 0) := by
  obtain ⟨-, rfl⟩ | ⟨hedge, hterm, -, rfl⟩ | ⟨-, -, -, rfl⟩ | ⟨-, -, rfl⟩ := rise_cases h
  · exact .inl ⟨rfl, rfl⟩
  · obtain ⟨href, hpulse⟩ := isTerm_iff.mp hterm
    exact .inr ⟨(edgesIgnored_eq_false.mp hedge).1, href, hpulse, rfl, rfl, rfl, rfl⟩
  · exact .inl ⟨rfl, rfl⟩
  · exact .inl ⟨rfl, rfl⟩

/-- Nothing but a reset brings a booted node back: its edges and its main loop are inert, and ticks and the
overflow handler leave the mark (R223, R242). -/
theorem exec_booted {i : Instr} {s t : State} (h : exec i s = .next t) (hbooted : s.rx.booted = true)
    (hi : i ≠ .rxReset) : t.rx.booted = true := by
  by_cases hw : Part.rx ∈ writes s i
  · have hedge : edgesIgnored s.rx = true := by simp [edgesIgnored, hbooted]
    have hmem := rx_mem_writes hw
    simp only [List.mem_cons, List.not_mem_nil, or_false] at hmem
    obtain rfl | rfl | rfl | rfl | rfl | rfl | rfl := hmem
    · exact absurd rfl hi
    · cases h; exact hbooted
    · rw [exec_rxFall_ignored hedge] at h; cases h; exact hbooted
    · rw [exec_rxRise_ignored hedge] at h; cases h; exact hbooted
    · obtain ⟨-, ⟨-, rfl⟩ | ⟨-, rfl⟩⟩ := ovf_cases h <;> exact hbooted
    · rw [(claim_cases h).1] at hbooted; cases hbooted
    · rw [(clear_cases h).1] at hbooted; cases hbooted
  · rw [rx_of_frame h hw, hbooted]

/-- Settles O50: a jump is counted by the rising edge that seals, which a booted node ignores. -/
theorem bootJumpExactlyOnce : Obligations.BootJumpExactlyOnce := by
  intro i s t h
  by_cases hi : i = .rxRise
  · subst hi
    refine ⟨(execRxRise_jump h).imp_right fun hjump => ⟨rfl, hjump⟩,
      fun hbooted hreset => ⟨exec_booted h hbooted hreset, ?_⟩⟩
    obtain ⟨hnboot, -⟩ | ⟨happ, -⟩ := execRxRise_jump h
    · exact hnboot
    · rw [hbooted] at happ; cases happ
  · have hnboot : t.obs.nboot = s.obs.nboot := exec_frame h .nboot fun hw => hi (nboot_mem_writes hw)
    exact ⟨.inl ⟨hnboot, exec_bootJump h hi⟩,
      fun hbooted hreset => ⟨exec_booted h hbooted hreset, hnboot⟩⟩

end Sys2Proof.Machine
end

section
/-! PROOFS of the family `43_rx_decoder`, whole frames: the receiver decodes measured pulses within the ratio
bounds (`DecoderToleratesTiming`) and so the transmitter's own stream (`DecoderRoundTrip`). `Decoding` is what
the receiver holds after the first bits of a frame; each event of a frame has a lemma about it, one induction over
the measured pairs puts them together, and the nominal stream is one such list of pairs. -/

namespace Sys2Proof.Machine

/-! ## Bits of a byte string -/

/-- Bit `j` of a byte string, in transmission order (R228). -/
def bitAt (bytes : List Byte) (j : Nat) : Bool := (bytes.getD (j / 8) 0).getLsbD (j % 8)

theorem getElem?_bitsOf (bytes : List Byte) {i k : Nat} (hk : k < 8) :
    (bitsOf bytes)[8 * i + k]? = bytes[i]?.map (·.getLsbD k) := by
  have hlength (x : Byte) : ((List.range 8).map x.getLsbD).length = 8 := by simp
  induction bytes generalizing i with
  | nil => rfl
  | cons x xs ih =>
    rw [bitsOf, List.flatMap_cons]
    cases i with
    | zero =>
      rw [Nat.mul_zero, Nat.zero_add, List.getElem?_append_left (by rw [hlength]; exact hk)]
      simp [List.getElem?_range hk]
    | succ i =>
      rw [List.getElem?_append_right (by rw [hlength]; omega), hlength,
        show 8 * (i + 1) + k - 8 = 8 * i + k by omega]
      exact ih

/-- The bits from `j` on begin with bit `j`. -/
theorem bitsOf_drop_eq_cons {bytes : List Byte} {j : Nat} {b : Bool} {bs : List Bool}
    (h : (bitsOf bytes).drop j = b :: bs) : b = bitAt bytes j ∧ bs = (bitsOf bytes).drop (j + 1) := by
  have hget : (bitsOf bytes)[j]? = some b := by
    rw [← Nat.add_zero j, ← List.getElem?_drop, h]
    rfl
  refine ⟨?_, by rw [← List.tail_drop, h, List.tail_cons]⟩
  rw [← Nat.div_add_mod j 8, getElem?_bitsOf bytes (Nat.mod_lt j (by decide)), Option.map_eq_some_iff] at hget
  obtain ⟨x, hx, rfl⟩ := hget
  rw [bitAt, List.getD_eq_getElem?_getD, hx, Option.getD_some]

theorem placeBit_getLsbD (x : Byte) (bit : Bool) (k : Fin 8) (i : Nat) :
    (placeBit x bit k).getLsbD i = (x.getLsbD i || (decide (i = k.val) && bit)) := by
  have hk := k.isLt
  rw [placeBit, BitVec.getLsbD_or, BitVec.getLsbD_shiftLeft, BitVec.getLsbD_setWidth, BitVec.getLsbD_ofBool]
  congr 1
  cases bit with
  | false => simp
  | true =>
    rw [Bool.eq_iff_iff]
    simp
    omega

/-! ## What the receiver holds in a frame -/

/-- The receiver has decoded the first `j` bits of a frame of `bytes`: the whole bytes among them stand in the
buffer as far as it has room, the bits of the next in the current byte. `start` is the state before the frame. -/
structure Decoding (bytes : List Byte) (start : State) (j : Nat) (s : State) : Prop where
  params : s.params = start.params
  nboot : s.obs.nboot = start.obs.nboot
  booted : s.rx.booted = false
  unsealed : s.rx.rxBufLen = 0
  bits : s.rx.rxBits.val = j % 8
  byte : ∀ k, s.rx.rxByte.getLsbD k = (decide (k < j % 8) && (bytes.getD (j / 8) 0).getLsbD k)
  idx : s.rx.rxIdx = min (j / 8) rxCap
  canonical : Bank.wf s.mem.rxBuf
  stored : ∀ i, i < min (j / 8) rxCap → s.mem.byteAt .rxBuf i = bytes.getD i 0

/-- A safe receiver that is `IDLE/ARMED` has decoded nothing yet. -/
theorem Decoding.start {s : State} (hs : s.Ok) (hidle : rxView s.rx = .idleArmed) (bytes : List Byte) :
    Decoding bytes s 0 s ∧ s.rx.ref = 0 := by
  obtain ⟨-, -, -, -, -, -, hbyte⟩ := hs.rx
  have hview : s.rx.booted = false ∧ s.rx.rxBufLen = 0 ∧ s.rx.ref = 0 ∧ s.rx.rxBits = 0 ∧ s.rx.rxIdx = 0 := by
    unfold rxView at hidle
    split at hidle
    · cases hidle
    · split at hidle
      · cases hidle
      · split at hidle
        · simp_all
        · cases hidle
  obtain ⟨hbooted, hlen, href, hbits, hidx⟩ := hview
  have hzero : s.rx.rxByte = 0 := by
    rw [hbits] at hbyte
    exact BitVec.eq_of_toNat_eq (by simpa using hbyte)
  refine ⟨⟨rfl, rfl, hbooted, hlen, ?_, ?_, ?_, (hs.mem .rxBuf).1, ?_⟩, href⟩
  · simp [hbits]
  · simp [hzero]
  · simp [hidx]
  · simp

section
variable {bytes : List Byte} {start s : State} {j : Nat}

theorem Decoding.edge (h : Decoding bytes start j s) : edgesIgnored s.rx = false :=
  edgesIgnored_eq_false.mpr ⟨h.booted, h.unsealed⟩

/-- Neither the timer nor the reference, nor the pending and the activity flag, are part of what is decoded. -/
theorem Decoding.retimed (h : Decoding bytes start j s) (tmr ref : Nat) (pend active : Bool) (o : Outputs) :
    Decoding bytes start j
      ((s.setRx { s.rx with tmr := tmr, ovfPend := pend, ref := ref, commActive := active }).setOut o) :=
  ⟨h.params, h.nboot, h.booted, h.unsealed, h.bits, h.byte, h.idx, h.canonical, h.stored⟩

/-- Ticks short of an overflow measure the time since the last edge and nothing else. -/
theorem Decoding.ticks (h : Decoding bytes start j s) {k : Nat} (hzero : s.rx.tmr = 0)
    (hk : k ≤ s.params.tmrMax) :
    ∃ t, runOps (List.replicate k .rxTick) s = .next t ∧ Decoding bytes start j t ∧ t.rx.tmr = k ∧
      t.rx.ref = s.rx.ref := by
  obtain ⟨o, ho⟩ := runOps_ticks (s := s) (by omega) k
  refine ⟨_, ho, h.retimed _ _ _ _ o, ?_, rfl⟩
  simp only [State.setOut_rx, State.setRx_rx, rxAfterTicks, hzero, Nat.zero_add]
  exact Nat.mod_eq_of_lt (by omega)

/-- A pulse that is no terminator is recorded as the reference. -/
theorem Decoding.records (h : Decoding bytes start j s) {a : Nat} (hzero : s.rx.tmr = 0)
    (ha : a ≤ s.params.tmrMax) (hpulse : ¬ (s.rx.ref ≠ 0 ∧ 2 * s.rx.ref < a)) :
    ∃ t, (∀ is, runOps (List.replicate a .rxTick ++ .rxRise :: is) s = runOps is t) ∧
      Decoding bytes start j t ∧ t.rx.tmr = 0 ∧ t.rx.ref = a := by
  obtain ⟨u, hu, hdec, htmr, href⟩ := h.ticks hzero ha
  have hrise := exec_rxRise_records hdec.edge (by rwa [href, htmr])
  exact ⟨_, fun is => (runOps_append_of hu).trans (runOps_cons_of hrise), hdec.retimed 0 u.rx.tmr _ _ _, rfl,
    htmr⟩

/-- The byte after a decoded bit holds one bit more of the frame's. -/
theorem Decoding.fallByte_getLsbD (h : Decoding bytes start j s)
    (hbit : bitOf s.rx.tmr s.rx.ref = bitAt bytes j) (k : Nat) :
    (fallByte s.rx).getLsbD k = (decide (k < j % 8 + 1) && (bytes.getD (j / 8) 0).getLsbD k) := by
  rw [fallByte, placeBit_getLsbD, h.byte, h.bits, hbit, bitAt]
  rcases Nat.lt_trichotomy k (j % 8) with hlt | rfl | hgt
  · simp [hlt, hlt.ne, Nat.lt_succ_of_lt hlt]
  · simp
  · simp [hgt.ne', Nat.not_lt.mpr hgt.le, Nat.not_lt.mpr (Nat.succ_le_of_lt hgt)]

/-- With its eighth bit the current byte is the frame's. -/
theorem Decoding.fallByte_closed (h : Decoding bytes start j s)
    (hbit : bitOf s.rx.tmr s.rx.ref = bitAt bytes j) (hlast : j % 8 = 7) :
    fallByte s.rx = bytes.getD (j / 8) 0 := by
  refine BitVec.eq_of_getLsbD_eq fun k hk => ?_
  rw [h.fallByte_getLsbD hbit, hlast, decide_eq_true (by omega), Bool.true_and]

/-- A falling edge decodes the gap before it as the frame's next bit. -/
theorem Decoding.fall (h : Decoding bytes start j s) (href : s.rx.ref ≠ 0)
    (hbit : bitOf s.rx.tmr s.rx.ref = bitAt bytes j) :
    ∃ t, exec .rxFall s = .next t ∧ Decoding bytes start (j + 1) t ∧ t.rx.tmr = 0 ∧ t.rx.ref = s.rx.ref := by
  have hbits := h.bits
  by_cases hlast : j % 8 = 7
  · have hseven : s.rx.rxBits = 7 := Fin.ext (by rw [hbits, hlast]; rfl)
    have hdiv : (j + 1) / 8 = j / 8 + 1 := by omega
    have hmod : (j + 1) % 8 = 0 := by omega
    by_cases hroom : s.rx.rxIdx < rxCap
    · refine ⟨_, exec_rxFall_stores h.edge href hseven hroom, ?_, rfl, rfl⟩
      have hidx : s.rx.rxIdx = j / 8 := by rw [h.idx] at hroom ⊢; omega
      refine ⟨h.params, h.nboot, h.booted, h.unsealed, by simp [hmod], by simp [hmod], ?_,
        bankSet_wf h.canonical _ _, fun i hi => ?_⟩
      · rw [hdiv, State.answer_rx, State.setRx_rx, hidx]
        rw [hidx] at hroom
        exact (min_eq_left hroom).symm
      · rw [hdiv] at hi
        refine (byteAt_rxBuf_stored h.canonical _ _ _).trans ?_
        split
        next heq => rw [h.fallByte_closed hbit hlast, heq, hidx]
        next hne => exact h.stored i (by omega)
    · refine ⟨_, exec_rxFall_drops h.edge href hseven hroom, ?_, rfl, rfl⟩
      have hfull : min ((j + 1) / 8) rxCap = min (j / 8) rxCap := by rw [h.idx] at hroom; omega
      exact ⟨h.params, h.nboot, h.booted, h.unsealed, by simp [hmod], by simp [hmod], h.idx.trans hfull.symm,
        h.canonical, fun i hi => h.stored i (hfull ▸ hi)⟩
  · have hseven : s.rx.rxBits ≠ 7 := fun heq => hlast (by rw [← hbits, heq]; rfl)
    have hdiv : (j + 1) / 8 = j / 8 := by omega
    have hmod : (j + 1) % 8 = j % 8 + 1 := by omega
    refine ⟨_, exec_rxFall_places h.edge href hseven, ?_, rfl, rfl⟩
    refine ⟨h.params, h.nboot, h.booted, h.unsealed, ?_, fun k => ?_, h.idx.trans (by rw [hdiv]), h.canonical,
      fun i hi => h.stored i (hdiv ▸ hi)⟩
    · simp only [State.answer_rx, State.setRx_rx, Fin.val_add, hbits]
      omega
    · rw [hdiv, hmod]
      exact h.fallByte_getLsbD hbit k

end

/-! ## The end of a frame -/

/-- What a whole frame of `bytes`, received from state `s` on, has left: the jump on the boot command, else the
first ten bytes sealed. -/
def Received (bytes : List Byte) (s t : State) : Prop :=
  if bytes = [0x42, 0x4F, 0x4F, 0x54] then
    t.obs.nboot = s.obs.nboot + 1 ∧ t.rx.booted = true ∧ t.rx.rxBufLen = 0
  else
    t.obs.nboot = s.obs.nboot ∧ t.rx.booted = false ∧ t.rx.rxBufLen = min bytes.length 10 ∧
    ∀ i, i < 10 → ∀ h : i < bytes.length, t.mem.byteAt .rxBuf i = bytes[i]

/-- What has been received is no matter of the timer. -/
theorem Received.ticks {bytes : List Byte} {s t : State} (h : Received bytes s t)
    (hle : t.rx.tmr ≤ t.params.tmrMax) (k : Nat) :
    ∃ u, runOps (List.replicate k .rxTick) t = .next u ∧ Received bytes s u := by
  obtain ⟨o, ho⟩ := runOps_ticks hle k
  exact ⟨_, ho, h⟩

/-- A list whose elements are those of a function is the function's list. -/
theorem range_map_eq_of_getElem {α : Type} {xs : List α} {f : Nat → α}
    (h : ∀ i (hi : i < xs.length), f i = xs[i]) : (List.range xs.length).map f = xs :=
  List.ext_getElem (by simp) fun i _ hi => by simp [h i hi]

section
variable {bytes : List Byte} {start s : State}

/-- Once every bit is decoded the buffer holds the frame's bytes, as far as it has room. -/
theorem Decoding.byteAt_whole (h : Decoding bytes start (8 * bytes.length) s) {i : Nat} (hcap : i < 10)
    (hi : i < bytes.length) : s.mem.byteAt .rxBuf i = bytes[i] := by
  have hstored : i < min (8 * bytes.length / 8) rxCap := by
    rw [Nat.mul_div_cancel_left _ (by decide)]
    exact lt_min hi hcap
  rw [h.stored i hstored, List.getD_eq_getElem _ _ hi]

/-- The receiver's boot test is that of the frame. -/
theorem Decoding.bootMatch_whole (h : Decoding bytes start (8 * bytes.length) s) :
    bootMatch s.params s.mem s.rx.rxIdx = true ↔ bytes = [0x42, 0x4F, 0x4F, 0x54] := by
  have hidx : s.rx.rxIdx = min bytes.length 10 := by
    rw [h.idx, Nat.mul_div_cancel_left _ (by decide)]
  have hread (hfour : bytes.length = 4) : (List.range 4).map (s.mem.byteAt .rxBuf) = bytes := by
    rw [← hfour]
    exact range_map_eq_of_getElem fun i hi => h.byteAt_whole (by omega) hi
  rw [bootMatch_iff]
  constructor
  · rintro ⟨hfour, hbytes⟩
    rw [← hbytes, hread (by omega)]
  · intro hboot
    have hfour : bytes.length = 4 := by rw [hboot]; rfl
    exact ⟨by omega, (hread hfour).trans hboot⟩

/-- The terminator after the last bit seals the frame, or jumps on the boot command. -/
theorem Decoding.terminated (h : Decoding bytes start (8 * bytes.length) s) {term : Nat} (hzero : s.rx.tmr = 0)
    (hle : term ≤ s.params.tmrMax) (href : s.rx.ref ≠ 0) (hterm : 2 * s.rx.ref < term) :
    ∃ t, runOps (List.replicate term .rxTick ++ [.rxRise]) s = .next t ∧ Received bytes start t ∧
      t.rx.tmr = 0 ∧ t.params = start.params := by
  obtain ⟨u, hu, hdec, htmr, hrefu⟩ := h.ticks hzero hle
  rw [← hrefu] at href hterm
  rw [← htmr] at hterm
  have hrun {t : State} (ht : exec .rxRise u = .next t) :
      runOps (List.replicate term .rxTick ++ [.rxRise]) s = .next t := by
    rw [runOps_append_of hu, runOps_cons_of ht, runOps]
  by_cases hboot : bytes = [0x42, 0x4F, 0x4F, 0x54]
  · refine ⟨_, hrun (exec_rxRise_jumps hdec.edge href hterm (hdec.bootMatch_whole.mpr hboot)), ?_, rfl,
      hdec.params⟩
    rw [Received, if_pos hboot]
    exact ⟨congrArg (· + 1) hdec.nboot, rfl, rfl⟩
  · have hother : bootMatch u.params u.mem u.rx.rxIdx = false :=
      Bool.eq_false_iff.mpr fun hmatch => hboot (hdec.bootMatch_whole.mp hmatch)
    refine ⟨_, hrun (exec_rxRise_seals hdec.edge href hterm hother), ?_, rfl, hdec.params⟩
    rw [Received, if_neg hboot]
    refine ⟨hdec.nboot, hdec.booted, ?_, fun i hcap hi => hdec.byteAt_whole hcap hi⟩
    exact hdec.idx.trans (by rw [Nat.mul_div_cancel_left _ (by decide)])

end

/-! ## Measured frames -/

/-- The bounds on the first of several measured pairs, and those on what follows it (R244). -/
theorem tolerated_cons {tmrMax p g term : Nat} {xs : List (Nat × Nat)} {bits : List Bool}
    (h : tolerated tmrMax ((p, g) :: xs) bits term) :
    ∃ b bs, bits = b :: bs ∧ 1 ≤ p ∧ p ≤ tmrMax ∧ g ≤ tmrMax ∧ (b = true ↔ 2 * p < g) ∧
      (xs = [] → bs = [] ∧ 2 * p < term ∧ term ≤ tmrMax) ∧
      ∀ q g' ys, xs = (q, g') :: ys → q ≤ 2 * p ∧ tolerated tmrMax xs bs term := by
  cases bits with
  | nil => simp [tolerated] at h
  | cons b bs =>
    cases xs with
    | nil =>
      obtain ⟨hp, hpmax, hgmax, hbit, hlast⟩ := h
      exact ⟨b, bs, rfl, hp, hpmax, hgmax, hbit, fun _ => hlast, nofun⟩
    | cons x ys =>
      obtain ⟨hp, hpmax, hgmax, hbit, hq, hnext⟩ := h
      refine ⟨b, bs, rfl, hp, hpmax, hgmax, hbit, nofun, fun q g' zs heq => ?_⟩
      cases heq
      exact ⟨hq, hnext⟩

theorem measuredOps_nil (term : Nat) :
    measuredOps [] term = .rxFall :: (List.replicate term .rxTick ++ [.rxRise]) := rfl

theorem measuredOps_cons (p g : Nat) (xs : List (Nat × Nat)) (term : Nat) :
    measuredOps ((p, g) :: xs) term = .rxFall :: (List.replicate p .rxTick ++
      .rxRise :: (List.replicate g .rxTick ++ measuredOps xs term)) := by
  simp [measuredOps, pairOps]

/-- A gap within the bounds and the falling edge that ends it decode the frame's next bit. -/
theorem Decoding.gap {bytes : List Byte} {start s : State} {j g : Nat} {b : Bool}
    (h : Decoding bytes start j s) (hzero : s.rx.tmr = 0) (href : 1 ≤ s.rx.ref) (hg : g ≤ s.params.tmrMax)
    (hgap : b = true ↔ 2 * s.rx.ref < g) (hb : b = bitAt bytes j) :
    ∃ t, (∀ is, runOps (List.replicate g .rxTick ++ .rxFall :: is) s = runOps is t) ∧
      Decoding bytes start (j + 1) t ∧ t.rx.tmr = 0 ∧ t.rx.ref = s.rx.ref := by
  obtain ⟨u, hu, hdec, htmr, hrefu⟩ := h.ticks hzero hg
  have hbit : bitOf u.rx.tmr u.rx.ref = bitAt bytes j := by
    rw [← hb, htmr, hrefu, bitOf, Bool.eq_iff_iff, hgap, decide_eq_true_iff]
  obtain ⟨t, ht, hdect, htmrt, hreft⟩ := hdec.fall (by omega) hbit
  exact ⟨t, fun is => by rw [runOps_append_of hu, runOps_cons_of ht], hdect, htmrt, hreft.trans hrefu⟩

/-- From the gap after a recorded pulse on: each gap decodes to its bit at the next falling edge, each further
pulse becomes the reference, and the terminator ends the frame. -/
theorem Decoding.measured {bytes : List Byte} {start : State} {term : Nat} {pairs : List (Nat × Nat)}
    {s : State} {j g : Nat} (h : Decoding bytes start j s) (hzero : s.rx.tmr = 0)
    (htol : tolerated start.params.tmrMax ((s.rx.ref, g) :: pairs) ((bitsOf bytes).drop j) term) :
    ∃ t, runOps (List.replicate g .rxTick ++ measuredOps pairs term) s = .next t ∧
      Received bytes start t ∧ t.rx.tmr = 0 ∧ t.params = start.params := by
  induction pairs generalizing s j g with
  | nil =>
    obtain ⟨b, bs, hbits, href, -, hg, hgap, hlast, -⟩ := tolerated_cons htol
    obtain ⟨hb, hbs⟩ := bitsOf_drop_eq_cons hbits
    obtain ⟨hnil, hterm, hterm_le⟩ := hlast rfl
    obtain ⟨u, hu, hdec, hzerou, hrefu⟩ := h.gap hzero href (by rwa [h.params]) hgap hb
    have hwhole : j + 1 = 8 * bytes.length := by
      have hcons := congrArg List.length hbits
      have htail := congrArg List.length (hbs.symm.trans hnil)
      simp only [List.length_drop, bitsOf_length, List.length_cons, List.length_nil] at hcons htail
      omega
    rw [hwhole] at hdec
    rw [measuredOps_nil, hu]
    exact hdec.terminated hzerou (by rwa [hdec.params]) (by omega) (by rwa [hrefu])
  | cons x xs ih =>
    obtain ⟨q, g'⟩ := x
    obtain ⟨b, bs, hbits, href, -, hg, hgap, -, hnext⟩ := tolerated_cons htol
    obtain ⟨hb, rfl⟩ := bitsOf_drop_eq_cons hbits
    obtain ⟨hq, htol'⟩ := hnext q g' xs rfl
    obtain ⟨-, -, -, -, hq_le, -⟩ := tolerated_cons htol'
    obtain ⟨u, hu, hdec, hzerou, hrefu⟩ := h.gap hzero href (by rwa [h.params]) hgap hb
    obtain ⟨v, hv, hdecv, hzerov, hrefv⟩ :=
      hdec.records hzerou (a := q) (by rwa [hdec.params]) (by omega)
    rw [measuredOps_cons, hu, hv]
    exact ih hdecv hzerov (by rwa [hrefv])

/-- A frame of measured durations within the bounds is received from a safe receiver that is `IDLE/ARMED`, and
ends with the timer restarted. The terminator of an empty payload finds no reference, and becomes one. -/
theorem measured_received {s : State} {bytes : List Byte} {pairs : List (Nat × Nat)} {term : Nat} (hs : s.Ok)
    (hidle : rxView s.rx = .idleArmed) (htol : tolerated s.params.tmrMax pairs (bitsOf bytes) term) :
    ∃ t, runOps (measuredOps pairs term) s = .next t ∧ Received bytes s t ∧ t.rx.tmr = 0 ∧
      t.params = s.params := by
  obtain ⟨hstart, href⟩ := Decoding.start hs hidle bytes
  have hfall := exec_rxFall_first hstart.edge href
  have hdec := hstart.retimed 0 s.rx.ref s.rx.ovfPend true ⟨.none, false⟩
  cases pairs with
  | nil =>
    have hempty : bytes = [] ∧ term ≤ s.params.tmrMax := by
      cases hbits : bitsOf bytes with
      | nil =>
        rw [hbits] at htol
        have hlen := congrArg List.length hbits
        rw [bitsOf_length, List.length_nil] at hlen
        exact ⟨List.eq_nil_of_length_eq_zero (by omega), htol⟩
      | cons b bs =>
        rw [hbits] at htol
        exact htol.elim
    obtain ⟨rfl, hterm⟩ := hempty
    obtain ⟨t, ht, hdect, hzero, -⟩ := hdec.records rfl hterm fun h => h.1 href
    refine ⟨t, ?_, ?_, hzero, hdect.params⟩
    · rw [measuredOps_nil, runOps_cons_of hfall]
      exact ht []
    · rw [Received, if_neg (by simp)]
      exact ⟨hdect.nboot, hdect.booted, hdect.unsealed, nofun⟩
  | cons x xs =>
    obtain ⟨p, g⟩ := x
    obtain ⟨-, -, -, -, hp_le, -⟩ := tolerated_cons htol
    obtain ⟨u, hu, hdecu, hzero, hrefu⟩ := hdec.records rfl hp_le fun h => h.1 href
    rw [measuredOps_cons, runOps_cons_of hfall]
    obtain ⟨t, ht, hreceived⟩ := hdecu.measured hzero (g := g) (pairs := xs) (term := term) (by rwa [hrefu])
    exact ⟨t, (hu _).trans ht, hreceived⟩

/-- Settles O49: the frame is received from its first falling edge on. -/
theorem decoderToleratesTiming : Obligations.DecoderToleratesTiming := by
  intro s bytes pairs term hs hidle htol
  obtain ⟨t, ht, hreceived, -⟩ := measured_received hs hidle htol
  exact ⟨t, ht, hreceived⟩

/-! ## The transmitter's own stream -/

/-- The pulse and gap of a bit at the receiver, where the reference pulse lasts `pr` ticks (R103, R243). -/
def nominalPair (pr : Nat) (b : Bool) : Nat × Nat := (pr, if b then 4 * pr else pr)

/-- The transmitter's durations stand in the ratios the receiver tests for. -/
theorem tolerated_nominal {tmrMax pr : Nat} (hpr : 1 ≤ pr) (hmax : 4 * pr ≤ tmrMax) (bits : List Bool) :
    tolerated tmrMax (bits.map (nominalPair pr)) bits (3 * pr) := by
  induction bits with
  | nil => exact show 3 * pr ≤ tmrMax by omega
  | cons b bs ih =>
    have hgap : (nominalPair pr b).2 ≤ tmrMax ∧ (b = true ↔ 2 * pr < (nominalPair pr b).2) := by
      cases b <;> simp [nominalPair] <;> omega
    refine ⟨hpr, by omega, hgap.1, hgap.2, ?_⟩
    cases bs with
    | nil => exact ⟨rfl, by omega, by omega⟩
    | cons c cs => exact ⟨show pr ≤ 2 * pr by omega, ih⟩

theorem receiverTicks_mul {p : Params} (pr k : Nat) : receiverTicks p pr (k * p.pTicks) = k * pr := by
  rw [receiverTicks, Nat.mul_div_cancel _ (params_durations p).1]

/-- A Protocol-A stream at the receiver: its bits' nominal pairs, the terminator's pulse and the gap after it. -/
theorem streamOps_eq (p : Params) (pr : Nat) (bits : List Bool) :
    streamOps p pr (bits.map (fun b => if b then sym1 p else sym0 p) ++ [symT p])
      = measuredOps (bits.map (nominalPair pr)) (3 * pr) ++ List.replicate pr .rxTick := by
  have hone : receiverTicks p pr p.pTicks = pr := by simpa using receiverTicks_mul (p := p) pr 1
  have hpair (b : Bool) : pairOps (receiverTicks p pr (if b then sym1 p else sym0 p).d0)
      (receiverTicks p pr (if b then sym1 p else sym0 p).d1)
        = pairOps (nominalPair pr b).1 (nominalPair pr b).2 := by
    cases b <;> simp [nominalPair, sym0, sym1, hone, receiverTicks_mul]
  have hterm : pairOps (receiverTicks p pr (symT p).d0) (receiverTicks p pr (symT p).d1)
      = .rxFall :: (List.replicate (3 * pr) .rxTick ++ .rxRise :: List.replicate pr .rxTick) := by
    simp only [pairOps, symT, hone, receiverTicks_mul]
  simp only [streamOps, measuredOps, List.flatMap_append, List.flatMap_map, hpair, List.flatMap_singleton,
    hterm]
  simp

/-- The `n` bytes a space holds from its start. -/
theorem holdsBytes_range (m : Memory) (sp : Space) (n : Nat) :
    HoldsBytes m sp 0 ((List.range n).map (m.byteAt sp)) := by
  intro j hj
  simp

/-- Settles O48: the stream's events are those of nominal durations, which are within the bounds, and the gap after
the terminator changes nothing received. -/
theorem decoderRoundTrip : Obligations.DecoderRoundTrip := by
  intro s n pr hs hidle hpr hmax _
  have hstream := streamA_eq s.params (holdsBytes_range s.mem .inA n)
  rw [List.length_map, List.length_range] at hstream
  obtain ⟨t, ht, hreceived, hzero, hparams⟩ := measured_received hs hidle
    (tolerated_nominal hpr hmax (bitsOf ((List.range n).map (s.mem.byteAt .inA))))
  obtain ⟨u, hu, hreceivedu⟩ := hreceived.ticks (by omega) pr
  refine ⟨u, by rw [hstream, streamOps_eq, runOps_append_of ht, hu], ?_⟩
  have hboot : (List.range n).map (s.mem.byteAt .inA) = [0x42, 0x4F, 0x4F, 0x54] ↔
      n = 4 ∧ (List.range 4).map (s.mem.byteAt .inA) = [0x42, 0x4F, 0x4F, 0x54] := by
    constructor
    · intro h
      have hfour : n = 4 := by simpa using congrArg List.length h
      exact ⟨hfour, hfour ▸ h⟩
    · rintro ⟨rfl, h⟩
      exact h
  by_cases hcmd : n = 4 ∧ (List.range 4).map (s.mem.byteAt .inA) = [0x42, 0x4F, 0x4F, 0x54]
  · rw [if_pos hcmd]
    rwa [Received, if_pos (hboot.mpr hcmd)] at hreceivedu
  · rw [if_neg hcmd]
    rw [Received, if_neg (mt hboot.mp hcmd)] at hreceivedu
    obtain ⟨hnboot, hbooted, hlen, hbytes⟩ := hreceivedu
    refine ⟨hnboot, hbooted, by simpa using hlen, fun i hi => ?_⟩
    have hlt : i < ((List.range n).map (s.mem.byteAt .inA)).length := by simp; omega
    rw [hbytes i (by omega) hlt, List.getElem_map, List.getElem_range]

end Sys2Proof.Machine
end

section
/-! PROOFS of the family `44_tx_channel`: the channel operations branch by branch (`ChConfigConfigures`,
`ChEnableEnables`, `ChTransmitBegins`, `ChDisableDisables`, `ChDeleteDeletes`), the caller blocked by its transmit
(`TransmittingCallerTakesNoStep`), what a transmit puts on the line (`TransmitPutsTheStreamOnTheLine`), its end
(`TransmitEndsWithTheDrawnStatus`) and the release of a send's channel (`SendReleasesItsChannel`). The operations
that succeed, and a send's three releasing steps from an enabled channel, stand with the sends of
`30_encoding`. -/

namespace Sys2Proof.Machine

/-! ## Channel operations that fail or are refused -/

section
variable {s : State} {c : Chan}

theorem execChConfig_fails {carrier res depth pin : Nat} {duty : Duty} (hdepth : 1 ≤ depth)
    (habsent : (s.ch c).state = .absent) (hf : s.issue.f = .eHw) :
    execChConfig c carrier duty res depth pin s = .next (s.answer (.status .eHw)) := by
  rw [execChConfig, withOperands_ok (by simpa [wellFormed] using hdepth), if_neg (by simp [habsent])]
  simp only [hf]

theorem execChConfig_refused {carrier res depth pin : Nat} {duty : Duty} (hdepth : 1 ≤ depth)
    (hpresent : (s.ch c).state ≠ .absent) :
    execChConfig c carrier duty res depth pin s = .refused .lifecycle := by
  rw [execChConfig, withOperands_ok (by simpa [wellFormed] using hdepth), if_pos hpresent]

theorem execChEnable_fails (hdisabled : (s.ch c).state = .disabled) (hf : s.issue.f = .eHw) :
    execChEnable c s = .next (s.answer (.status .eHw)) := by
  rw [execChEnable, withOperands_ok rfl, if_neg (by simp [hdisabled])]
  simp only [hf]

theorem execChEnable_refused (hne : (s.ch c).state ≠ .disabled) :
    execChEnable c s = .refused .lifecycle := by
  rw [execChEnable, withOperands_ok rfl, if_pos hne]

theorem execChDisable_disabled (hdisabled : (s.ch c).state = .disabled) (hidle : (s.ch c).busy = false) :
    execChDisable c s = .next (s.answer (.status .ok)) := by
  rw [execChDisable, withOperands_ok rfl, if_neg (by simp [hdisabled]), if_neg (by simp [hidle]),
    if_pos hdisabled]

theorem execChDisable_absent (habsent : (s.ch c).state = .absent) :
    execChDisable c s = .refused .lifecycle := by
  rw [execChDisable, withOperands_ok rfl, if_pos habsent]

theorem execChDisable_busy (hpresent : (s.ch c).state ≠ .absent) (hbusy : (s.ch c).busy = true) :
    execChDisable c s = .refused .channelBusy := by
  rw [execChDisable, withOperands_ok rfl, if_neg hpresent, if_pos hbusy]

theorem execChDelete_refused (hne : (s.ch c).state ≠ .disabled) :
    execChDelete c s = .refused .lifecycle := by
  rw [execChDelete, withOperands_ok rfl, if_pos hne]

/-- The preconditions of a transmit's begin step, in the order R264 tests them. -/
theorem execChTransmit_eq {enc : Enc} {n : Nat} (hn : n ≤ aMaxPayload) :
    execChTransmit c enc n s =
      if (s.ch c).state ≠ .enabled then .refused .lifecycle
      else if (s.ch c).busy then .refused .channelBusy
      else if enc = .pb ∧ s.pb.st ≠ .loaded then .refused .frameNotLoaded
      else if pinTaken s c then .fault .pinConflict
      else .next ((s.setCh c { s.ch c with
        tx := some ⟨enc, n, callerOf s.issue.agent c, false⟩ }).answer .none) := by
  rw [execChTransmit, withOperands_ok (by simp [wellFormed, hn])]

theorem pinTaken_iff : pinTaken s c = true ↔ (s.ch c.other).busy = true ∧ (s.ch c.other).pin = (s.ch c).pin := by
  simp [pinTaken]

end

theorem statusOfDraw_eq (f : Hw) : statusOfDraw f = if f = .ok then .ok else .eHw := by
  cases f <;> rfl

/-! ## Channel operations -/

/-- Settles O25: the three branches of `CH_CONFIG`, whose depth is in its port's range. -/
theorem chConfigConfigures : Obligations.ChConfigConfigures := by
  intro s c x carrier res depth pin duty hagent hdepth
  refine ⟨fun habsent hf => ?_, fun habsent hf => ?_, execChConfig_refused hdepth⟩
  · have hcaller : callerOf s.issue.agent c = x := by rw [hagent]; rfl
    exact ⟨_, hcaller ▸ execChConfig_absent hdepth habsent hf, rfl, by simp, by simp [Channel.busy],
      SameBut.setCh_answer _ _ _ _⟩
  · exact ⟨_, execChConfig_fails hdepth habsent hf, rfl, SameBut.answer _ _⟩

/-- Settles O26: the three branches of `CH_ENABLE`. -/
theorem chEnableEnables : Obligations.ChEnableEnables := fun s c =>
  ⟨fun hdisabled hf => ⟨_, execChEnable_disabled hdisabled hf, rfl, by simp, SameBut.setCh_answer _ _ _ _⟩,
    fun hdisabled hf => ⟨_, execChEnable_fails hdisabled hf, rfl, SameBut.answer _ _⟩, execChEnable_refused⟩

/-- Settles O27: each precondition of the begin step, with those before it met. -/
theorem chTransmitBegins : Obligations.ChTransmitBegins := by
  intro s c x enc n hagent hn
  have hexec : exec (.chTransmit c enc n) s = _ := execChTransmit_eq hn
  refine ⟨fun hstate => ?_, fun hstate hbusy => ?_, fun hstate hidle hpb hempty => ?_,
    fun hstate hidle hloaded => ?_⟩
  · rw [hexec, if_pos hstate]
  · rw [hexec, if_neg (not_not.mpr hstate), if_pos hbusy]
  · rw [hexec, if_neg (not_not.mpr hstate), if_neg (by simp [hidle]), if_pos (by simp [hpb, hempty])]
  · have hframe : ¬ (enc = .pb ∧ s.pb.st ≠ .loaded) := fun ⟨hpb, hne⟩ => hne (hloaded hpb)
    have hcaller : callerOf s.issue.agent c = x := by rw [hagent]; rfl
    rw [if_neg (not_not.mpr hstate), if_neg (by simp [hidle]), if_neg hframe, hcaller] at hexec
    split
    next htaken => rw [hexec, if_pos (pinTaken_iff.mpr htaken)]
    next hfree =>
      rw [if_neg (mt pinTaken_iff.mp hfree)] at hexec
      exact ⟨_, hexec, rfl, by simp [Channel.busy], by simp, SameBut.setCh_answer _ _ _ _⟩

/-- Settles O28: the four branches of `CH_DISABLE`. -/
theorem chDisableDisables : Obligations.ChDisableDisables := fun s c =>
  ⟨fun henabled hidle => ⟨_, execChDisable_enabled henabled hidle, by simp [statusOfDraw_eq], by simp,
      SameBut.setCh_answer _ _ _ _⟩,
    fun hdisabled hidle => ⟨_, execChDisable_disabled hdisabled hidle, rfl, SameBut.answer _ _⟩,
    execChDisable_absent, execChDisable_busy⟩

/-- Settles O29: the two branches of `CH_DELETE`. -/
theorem chDeleteDeletes : Obligations.ChDeleteDeletes := by
  refine fun s c => ⟨fun hdisabled => ?_, execChDelete_refused⟩
  have hch : (((s.setCh c (channelAbsent s.fresh)).setFresh (s.fresh + 1)).answer
      (.status (statusOfDraw s.issue.f))).ch c = channelAbsent s.fresh := by simp
  refine ⟨_, execChDelete_disabled hdisabled, by simp [statusOfDraw_eq], by rw [hch]; rfl, by rw [hch]; rfl,
    by rw [hch]; rfl, ?_⟩
  exact ((SameBut.setCh _ _ _).mono (by simp)).trans (((SameBut.setFresh _ _).mono (by simp)).trans
    ((SameBut.answer _ _).mono (by simp)))

/-! ## The caller of a transmit -/

theorem runInstr_blocked {ag : Agent} {i : Instr} {f : Hw} {s : State} (hmay : mayIssue ag i = true)
    (hblocked : agentBlocked s ag = true) : runInstr ag i f s = .refused .callerBlocked := by
  simp [runInstr, hmay, hblocked]

/-- Whatever a blocked agent issues is refused: its operation is not listed for it, or it is blocked. -/
theorem exists_runInstr_refused {ag : Agent} {s : State} (hblocked : agentBlocked s ag = true) (i : Instr)
    (f : Hw) : ∃ r, runInstr ag i f s = .refused r := by
  cases hmay : mayIssue ag i with
  | false => exact ⟨_, runInstr_unlisted hmay⟩
  | true => exact ⟨_, runInstr_blocked hmay hblocked⟩

/-- A transmit in progress blocks its caller, on whichever channel it is. -/
theorem transmitBlocks_of_tx {s : State} {c : Chan} {t : Transmit} (htx : (s.ch c).tx = some t) :
    (transmitBlocks t.caller s.chA.tx || transmitBlocks t.caller s.chB.tx) = true := by
  have hblocks : transmitBlocks t.caller (s.ch c).tx = true := by simp [htx, transmitBlocks]
  cases c with
  | a => exact Bool.or_eq_true_iff.mpr (.inl hblocks)
  | b => exact Bool.or_eq_true_iff.mpr (.inr hblocks)

theorem callerBlocked_of_tx {s : State} {c : Chan} {t : Transmit} (htx : (s.ch c).tx = some t) :
    callerBlocked s t.caller = true := by
  rw [callerBlocked, Bool.or_assoc, transmitBlocks_of_tx htx, Bool.or_true]

/-- A send whose caller a transmit blocks takes no step, if there is one. -/
theorem sendAdvance_blocked {s : State} {c : Chan} (f : Hw)
    (hblocks : (transmitBlocks c s.chA.tx || transmitBlocks c s.chB.tx) = true) :
    sendAdvance c f s = .refused .noSendStep := by
  unfold sendAdvance
  split
  · rfl
  · split
    · rfl
    · rw [if_pos hblocks]

/-- Settles O6: the transmit blocks its caller whatever the input; each listed word names an operation its row lists
for a caller. -/
theorem transmittingCallerTakesNoStep : Obligations.TransmittingCallerTakesNoStep := by
  intro s c x t e es htx hx hevents
  subst hx
  have htx' : ((s.setEvents es).ch c).tx = some t := by simpa using htx
  have hblocked : callerBlocked (s.setEvents es) t.caller = true := callerBlocked_of_tx htx'
  have hagent : agentBlocked (s.setEvents es) (.txCaller t.caller) = true := hblocked
  have hstep : step s = present e (s.setEvents es) := by simp only [step, hevents]
  refine ⟨fun w ports f he => ?_, fun bytes he => ?_, fun bytes order he => ?_, fun f he => ?_⟩ <;> subst he
  · have hissue : ∀ {i}, decodeOp w ports = .ok i →
        step s = runInstr (.txCaller t.caller) i f (s.setEvents es) := by
      intro i hi
      rw [step_op hevents]
      simp only [runWord, decode, hi]
    constructor
    · cases hdecode : decodeOp w ports with
      | ok i =>
        rw [hissue hdecode]
        exact exists_runInstr_refused hagent i f
      | error err =>
        rw [step_op hevents]
        exact ⟨.undecodable err, by simp only [runWord, decode, hdecode]⟩
    · intro hw
      have hlisted : ∀ {i}, decodeOp w ports = .ok i → mayIssue (.txCaller t.caller) i = true →
          step s = .refused .callerBlocked := fun hi hmay => (hissue hi).trans (runInstr_blocked hmay hagent)
      simp only [List.mem_cons, List.not_mem_nil, or_false] at hw
      obtain rfl | rfl | rfl | rfl | rfl | rfl | rfl | rfl | rfl | rfl | rfl := hw <;> exact hlisted rfl rfl
  · rw [hstep, present, readSource, if_pos hblocked]
  · rw [hstep, present, sendBegin, if_pos hblocked]
  · rw [hstep, present, sendAdvance_blocked f (transmitBlocks_of_tx htx')]

/-! ## A transmit's pairs on the line -/

/-- What a transmit's pairs can be drawn from, in a state that need not be safe: its frame lies in its space, and the
observed line is in canonical form. -/
structure Sendable (x : Transmit) (s : State) : Prop where
  line : lineWf s.obs.line
  payload : x.enc = .pa → x.len ≤ aMaxPayload
  loaded : x.enc = .pb → s.pb.len ≤ s.params.bOutCap

/-- A call of `PA_RESUME` for a frame, whatever becomes of its pairs. -/
theorem paResumeCall_taken {x : Transmit} (henc : x.enc = .pa) {s : State} (hlen : x.len ≤ aMaxPayload) (b : Nat) :
    ∃ u, Taken x b s u ∧ u.obs = s.obs ∧ ∀ k, paResumeCall x.len b s k
      = .next (k ((pairsAhead s x).take b) (statusOf (pairsAhead s x).length b) u) := by
  obtain ⟨st, pa', hr, hcomplete, hreset, hyielded⟩ := paResume_spec s.params s.mem x.len b s.pa hlen
  have hahead := pairsAhead_pa henc s
  rw [← hahead] at hr
  obtain rfl : st = statusOf (pairsAhead s x).length b := eq_statusOf (by simpa [hahead] using hcomplete)
  refine ⟨s.setPa pa', ⟨fun hmore => ?_, fun hall => ?_, rfl, le_refl _, ?_⟩, rfl, fun k => ?_⟩
  · obtain ⟨hpos, -⟩ := hyielded (statusOf_of_lt hmore)
    rw [pairsAhead_pa henc, hahead, List.drop_drop, ← hpos]
    simp
  · rw [henc]
    exact hreset (statusOf_of_le hall)
  · rw [henc]
    exact SameBut.setPa _ _
  · rw [paResumeCall, hr, orOutOfRange_some]

/-- A call of `PB_RESUME` for the loaded frame, whatever becomes of its pairs. -/
theorem pbResumeCall_taken {x : Transmit} (henc : x.enc = .pb) {s : State} (hlen : s.pb.len ≤ s.params.bOutCap)
    (b : Nat) :
    ∃ u, Taken x b s u ∧ u.obs = s.obs ∧ ∀ k, pbResumeCall b s k
      = .next (k ((pairsAhead s x).take b) (statusOf (pairsAhead s x).length b) u) := by
  obtain ⟨st, pb', hr, hcomplete, hemptied, hyielded⟩ := pbResume_spec s.params s.mem b s.pb hlen
  have hahead := pairsAhead_pb henc s
  rw [← hahead] at hr
  obtain rfl : st = statusOf (pairsAhead s x).length b := eq_statusOf (by simpa [hahead] using hcomplete)
  have hkept : pbEmptied pb' = pbEmptied s.pb ∧ pb'.len ≤ s.pb.len := by
    by_cases hall : (pairsAhead s x).length ≤ b
    · rw [hemptied (statusOf_of_le hall)]
      exact ⟨rfl, Nat.zero_le _⟩
    · rw [(hyielded (statusOf_of_lt (Nat.lt_of_not_le hall))).1]
      exact ⟨rfl, le_refl _⟩
  obtain ⟨hconfig, hshorter⟩ := hkept
  refine ⟨s.setPb pb', ⟨fun hmore => ?_, fun hall => ?_, hconfig, hshorter, ?_⟩, rfl, fun k => ?_⟩
  · obtain ⟨hpb, hpos⟩ := hyielded (statusOf_of_lt hmore)
    have hlen : pb'.len = s.pb.len := by rw [hpb]
    rw [pairsAhead_pb henc, hahead, List.drop_drop, ← hpos]
    simp [hlen]
  · rw [henc]
    exact hemptied (statusOf_of_le hall)
  · rw [henc]
    exact SameBut.setPb _ _
  · rw [pbResumeCall, hr, orOutOfRange_some]

/-- A resume step is a call of the transmit's encoder, whose pairs are staged. -/
theorem txResume_taken {s : State} {c : Chan} {x : Transmit} {b : Nat} (hs : Sendable x s)
    (htx : (s.ch c).tx = some x) (hstaged : x.staged = false) (hdepth : b ≤ (s.ch c).depth)
    (hqueue : b ≤ s.params.queueDepth) :
    ∃ u, Taken x b s u ∧ u.obs = s.obs ∧ txResume c .ok b s
      = .next (stagePairs c x ((pairsAhead s x).take b) (statusOf (pairsAhead s x).length b) u) := by
  cases henc : x.enc with
  | pa =>
    have hlen := hs.payload henc
    obtain ⟨u, htaken, hobs, hcall⟩ := paResumeCall_taken henc hlen b
    refine ⟨u, htaken, hobs, ?_⟩
    simp only [txResume, htx, hstaged, henc, resumeStep_ok hdepth,
      withOperands_ok (wellFormed_paResume.mpr ⟨hlen, hqueue⟩), hcall, Bool.false_eq_true, if_false]
  | pb =>
    obtain ⟨u, htaken, hobs, hcall⟩ := pbResumeCall_taken henc (hs.loaded henc) b
    refine ⟨u, htaken, hobs, ?_⟩
    simp only [txResume, htx, hstaged, henc, resumeStep_ok hdepth,
      withOperands_ok (wellFormed_pbResume.mpr hqueue), hcall, Bool.false_eq_true, if_false]

theorem statusOf_eq_complete_iff {left b : Nat} : statusOf left b = .complete ↔ left ≤ b := by
  simp [statusOf]

theorem Sendable.of_taken {x : Transmit} {b : Nat} {s u : State} (h : Sendable x s) (ht : Taken x b s u)
    (hobs : u.obs = s.obs) : Sendable x u where
  line := hobs ▸ h.line
  payload := h.payload
  loaded henc := by
    have hparams : u.params = s.params := ht.frame .params (by cases x.enc <;> simp [sessionPart])
    rw [hparams]
    exact ht.shorter.trans (h.loaded henc)

theorem Sendable.stagePairs {x : Transmit} {s : State} (h : Sendable x s) (c : Chan) (out : List Pair)
    (st : ResumeStatus) : Sendable x (stagePairs c x out st s) where
  line := by
    rw [stagePairs_obs]
    exact lineAppend_wf h.line _ _
  payload := h.payload
  loaded := by simpa using h.loaded

/-- A resume step sends the next pairs, and what is left can still be sent. -/
theorem txResume_sendable {s : State} {c : Chan} {x : Transmit} {b : Nat} (hs : Sendable x s)
    (htx : (s.ch c).tx = some x) (hstaged : x.staged = false) (hdepth : b ≤ (s.ch c).depth)
    (hqueue : b ≤ s.params.queueDepth) :
    ∃ t, present (.txResume c .ok b) s = .next t ∧ Resumed c x b s t ∧ Sendable x t := by
  obtain ⟨u, htaken, hobs, hresume⟩ := txResume_taken hs htx hstaged hdepth hqueue
  have hu := hs.of_taken htaken hobs
  refine ⟨_, hresume, resumed_of_stagePairs hu.line htaken.frame htaken.config statusOf_eq_complete_iff
    fun hyielded => htaken.ahead (Nat.lt_of_not_le fun hall => ?_), hu.stagePairs c _ _⟩
  rw [statusOf_of_le hall] at hyielded
  cases hyielded

/-- Resume steps one after the other are one of the budgets' sum, whatever the budgets, as long as only the last can
reach the end (R163, R200, R264): the safe states' `runInputs_txResume` for every state that can send. -/
theorem runInputs_txResume_sendable {s : State} {c : Chan} {x : Transmit} {budgets : List Nat} (hs : Sendable x s)
    (htx : (s.ch c).tx = some x) (hstaged : x.staged = false)
    (hbounds : ∀ b ∈ budgets, b ≤ (s.ch c).depth ∧ b ≤ s.params.queueDepth)
    (hlast : budgets.dropLast.sum < (pairsAhead s x).length) :
    ∃ t, runInputs (budgets.map (.txResume c .ok)) s = .next t ∧ Resumed c x budgets.sum s t ∧ Sendable x t := by
  induction budgets using List.reverseRecOn with
  | nil => exact ⟨s, rfl, Resumed.refl htx hstaged hlast, hs⟩
  | append_singleton init b ih =>
    simp only [List.forall_mem_append, List.forall_mem_singleton] at hbounds
    obtain ⟨hinit, hdepth, hqueue⟩ := hbounds
    rw [List.dropLast_concat] at hlast
    have hle : init.dropLast.sum ≤ init.sum :=
      (List.dropLast_sublist init).sum_le_sum fun _ _ => Nat.zero_le _
    obtain ⟨u, hu, hresumed, hsendable⟩ := ih hinit (hle.trans_lt hlast)
    have htxu : (u.ch c).tx = some x := by
      rw [hresumed.channel, decide_eq_false (Nat.not_le.mpr hlast), ← hstaged]
    have hparams : u.params = s.params := hresumed.frame .params (by cases x.enc <;> simp [sessionPart])
    obtain ⟨t, ht, hstep, hsendablet⟩ := txResume_sendable hsendable htxu hstaged
      (by rw [hresumed.channel]; exact hdepth) (hparams ▸ hqueue)
    refine ⟨t, ?_, ?_, hsendablet⟩
    · rw [List.map_append, runInputs_append_of hu, List.map_singleton, runInputs_cons_of ht]
      rfl
    · rw [List.sum_append, List.sum_singleton]
      exact hresumed.trans hlast hstep

theorem segmentCarrier_eq (l : Level) (carrierHz : Nat) (duty : Duty) :
    segmentCarrier l carrierHz duty = if l = .act ∧ carrierHz ≠ 0 then some (carrierHz, duty) else none := by
  cases l <;> simp [segmentCarrier]

/-- Settles O30: the whole stream is ahead of the transmit, and its resume steps send as much of it as the budgets'
sum. -/
theorem transmitPutsTheStreamOnTheLine : Obligations.TransmitPutsTheStreamOnTheLine := by
  constructor
  · intro s c tx budgets sent hline htx hstaged hbounds
    refine ⟨fun henc hlen hpa hlast => ?_, fun henc _ hlen hbi hk hlast => ?_⟩
    · have hahead : pairsAhead s tx = streamA s.params s.mem tx.len := by
        rw [pairsAhead_pa henc, hpa]
        simp [paPosition]
      obtain ⟨t, ht, hresumed, -⟩ := runInputs_txResume_sendable
        ⟨hline, fun _ => hlen, fun h => absurd (henc.symm.trans h) nofun⟩ htx hstaged hbounds
        (by rwa [hahead, streamA_length])
      have hchannel := hresumed.channel
      rw [hahead, streamA_length] at hchannel
      exact ⟨t, ht, hahead ▸ hresumed.line, hchannel⟩
    · have hahead : pairsAhead s tx = streamB s.params s.mem s.pb.len := by
        rw [pairsAhead_pb henc, hbi, hk]
        rfl
      obtain ⟨t, ht, hresumed, -⟩ := runInputs_txResume_sendable
        ⟨hline, fun h => absurd (henc.symm.trans h) nofun, fun _ => hlen⟩ htx hstaged hbounds
        (by rwa [hahead, streamB_length])
      have hchannel := hresumed.channel
      rw [hahead, streamB_length] at hchannel
      exact ⟨t, ht, hahead ▸ hresumed.line, hchannel⟩
  · intro y carrier
    simp only [Sent.segments, segmentCarrier_eq, carrier]

/-! ## The end of a transmit -/

/-- The level of a line, told by one channel and the other. -/
theorem restLevel_eq (s : State) (c : Chan) (pin : Nat) : restLevel s pin =
    if transmitsOn (s.ch c) pin || transmitsOn (s.ch c.other) pin then none else some .inact := by
  cases c with
  | a => rfl
  | b => rw [Bool.or_comm]; rfl

theorem restLevel_of_tx {s : State} {c : Chan} {x : Transmit} (htx : (s.ch c).tx = some x) :
    restLevel s (s.ch c).pin = none := by
  rw [restLevel_eq s c, if_pos (by simp [transmitsOn, Channel.busy, htx])]

theorem restLevel_finishTransmit {s : State} {c : Chan} (st : Status)
    (hother : (s.ch c.other).busy = false ∨ (s.ch c.other).pin ≠ (s.ch c).pin) :
    restLevel (finishTransmit c st s) (s.ch c).pin = some .inact := by
  have hquiet : transmitsOn (s.ch c.other) (s.ch c).pin = false := by
    obtain hidle | hpin := hother
    · simp [transmitsOn, hidle]
    · simp [transmitsOn, hpin]
  rw [restLevel_eq _ c, finishTransmit_ch, finishTransmit_ch_other, hquiet]
  rfl

theorem sendAfterTransmit_some (st : Status) (x : Send) : sendAfterTransmit st (some x)
    = some (if x.stage = .blocked then
        { x with stage := .disable, failed := x.failed || decide (st = .eHw) } else x) := by
  rw [sendAfterTransmit]
  split <;> rfl

/-- A resume step that draws `E_HW` ends the transmit, whatever its budget (R264, R268). -/
theorem present_txResume_eHw {s : State} {c : Chan} {x : Transmit} (htx : (s.ch c).tx = some x)
    (hstaged : x.staged = false) (b : Nat) :
    present (.txResume c .eHw b) s = .next (finishTransmit c .eHw s) := by
  simp only [present, txResume, htx, hstaged, Bool.false_eq_true, if_false]
  cases x.enc <;> rfl

theorem present_txResume_staged {s : State} {c : Chan} {x : Transmit} (htx : (s.ch c).tx = some x)
    (hstaged : x.staged = true) (f : Hw) (b : Nat) :
    present (.txResume c f b) s = .refused .noTransmitStep := by
  simp only [present, txResume, htx, hstaged, if_true]

theorem present_txEnd_unstaged {s : State} {c : Chan} {x : Transmit} (htx : (s.ch c).tx = some x)
    (hstaged : x.staged = false) (f : Hw) : present (.txEnd c f) s = .refused .noTransmitStep := by
  simp only [present, txEnd, htx, hstaged, Bool.false_eq_true, if_false]

/-- Settles O31: both ends of a transmit are `finishTransmit`, with the drawn status. -/
theorem transmitEndsWithTheDrawnStatus : Obligations.TransmitEndsWithTheDrawnStatus := by
  intro s c tx f b htx ended
  have hended : ∀ st, ended st (finishTransmit c st s) := fun st =>
    ⟨finishTransmit_out .., finishTransmit_ch .., by rw [finishTransmit_ch]; rfl,
      ⟨restLevel_of_tx htx, restLevel_finishTransmit st⟩,
      fun x hx => by rw [finishTransmit_send, hx, sendAfterTransmit_some],
      fun hnone => by rw [finishTransmit_send, hnone, sendAfterTransmit], finishTransmit_frame c st s⟩
  exact ⟨fun hstaged => ⟨_, present_txResume_eHw htx hstaged b, hended .eHw⟩,
    fun hstaged => present_txEnd_unstaged htx hstaged f,
    fun hstaged => ⟨_, present_txEnd htx hstaged f, statusOfDraw_eq f ▸ hended (statusOfDraw f)⟩,
    fun hstaged => present_txResume_staged htx hstaged f b⟩

/-! ## The release of a send's channel -/

section
variable {s : State} {c : Chan} {x : Send}

/-- A send that waits learns the status of its transmit's end. -/
theorem finishTransmit_send_waiting (hx : s.send c = some x) (hstage : x.stage = .blocked) (st : Status) :
    (finishTransmit c st s).send c
      = some { x with stage := .disable, failed := x.failed || decide (st = .eHw) } := by
  rw [finishTransmit_send, hx, sendAfterTransmit_some, if_pos hstage]

theorem sendMove_eHw {okStage failStage : SendStage} (h : resultStatus s.out.result = .eHw) :
    sendMove c x okStage failStage s
      = .next (s.setSend c (some { x with stage := failStage, failed := true })) := by
  rw [sendMove, if_pos h]

/-- A send's call that answers and leaves its channel as it was, failed or with nothing to do. -/
theorem sendStep_answered {i : Instr} {f : Hw} {r : Result} {y : Send} (hx : s.send c = some x)
    (hfree : freeToSend s c) (hop : sendOp s.params c x = some i)
    (hexec : exec i (s.setIssue ⟨.txCaller c, f⟩) = .next ((s.setIssue ⟨.txCaller c, f⟩).answer r))
    (hnext : ∀ u : State, u.out.result = r → sendNext c x u = .next (u.setSend c (some y))) :
    ∃ t, present (.sendStep c f) s = .next t ∧ SendCalled c (s.ch c) r y s t := by
  refine ⟨_, (present_sendStep hx hfree hop hexec).trans (hnext _ rfl), by simp, by simp, by simp, ?_⟩
  exact ((SameBut.setIssue _ _).mono (by simp)).trans (((SameBut.answer _ _).mono (by simp)).trans
    ((SameBut.setSend _ _ _).mono (by simp)))

theorem sendStep_enable_fails (hx : s.send c = some x) (hfree : freeToSend s c) (hstage : x.stage = .enable)
    (hdisabled : (s.ch c).state = .disabled) :
    ∃ t, present (.sendStep c .eHw) s = .next t ∧
      SendCalled c (s.ch c) (.status .eHw) { x with stage := .disable, failed := true } s t := by
  have hop : sendOp s.params c x = some (.chEnable c) := by simp [sendOp, hstage]
  refine sendStep_answered hx hfree hop (execChEnable_fails (by simpa using hdisabled) rfl) fun u hu => ?_
  simp only [sendNext, hstage]
  exact sendMove_eHw (by rw [hu, resultStatus])

theorem sendStep_config_fails (hx : s.send c = some x) (hfree : freeToSend s c) (hstage : x.stage = .config)
    (habsent : (s.ch c).state = .absent) :
    ∃ t, present (.sendStep c .eHw) s = .next t ∧
      SendCalled c (s.ch c) (.status .eHw) { x with stage := .release, failed := true } s t := by
  have hdepth : 1 ≤ (sendChannel s.params c).depth := by
    cases c <;> exact one_le_queueDepth s.params
  refine sendStep_answered hx hfree (sendOp_config _ c hstage)
    (execChConfig_fails hdepth (by simpa using habsent) rfl) fun u hu => ?_
  simp only [sendNext, hstage]
  exact sendMove_eHw (by rw [hu, resultStatus])

theorem sendStep_disable_disabled (hx : s.send c = some x) (hfree : freeToSend s c)
    (hstage : x.stage = .disable) (hdisabled : (s.ch c).state = .disabled) (hidle : (s.ch c).busy = false)
    (f : Hw) :
    ∃ t, present (.sendStep c f) s = .next t ∧
      SendCalled c (s.ch c) (.status .ok) { x with stage := .delete } s t := by
  have hop : sendOp s.params c x = some (.chDisable c) := by simp [sendOp, hstage]
  refine sendStep_answered hx hfree hop (execChDisable_disabled (by simpa using hdisabled) (by simpa using hidle))
    fun u hu => ?_
  simp only [sendNext, hstage]
  exact sendMove_of_ne_eHw (by rw [hu]; simp [resultStatus])

/-- A send leaves its channel disabled, with the failure noted of a call that was drawn (R265). -/
theorem sendStep_disables (hx : s.send c = some x) (hfree : freeToSend s c) (hstage : x.stage = .disable)
    (hpresent : (s.ch c).state ≠ .absent) (hidle : (s.ch c).busy = false) (f : Hw) :
    ∃ r t, present (.sendStep c f) s = .next t ∧ SendCalled c { s.ch c with state := .disabled } r
      { x with
        stage := .delete
        failed := x.failed || decide ((s.ch c).state = .enabled ∧ f = .eHw) } s t := by
  cases hstate : (s.ch c).state with
  | absent => exact absurd hstate hpresent
  | disabled =>
    obtain ⟨t, ht, hcall⟩ := sendStep_disable_disabled hx hfree hstage hstate hidle f
    have hkeep : { s.ch c with state := .disabled } = s.ch c := by rw [← hstate]
    refine ⟨.status .ok, t, ht, ?_⟩
    rw [hkeep]
    simpa using hcall
  | enabled =>
    obtain ⟨t, ht, hcall⟩ := sendStep_disable hx hfree hstage hstate hidle f
    exact ⟨_, t, ht, by simpa using hcall⟩

/-- A send whose disabled channel is still to be deleted deletes it, resets its encoder and returns, whatever is
drawn (R267). -/
theorem sendDeletes (hx : s.send c = some x) (hfree : freeToSend s c) (hstage : x.stage = .delete)
    (hdisabled : (s.ch c).state = .disabled) (f f' : Hw) :
    ∃ t, runInputs [.sendStep c f, .sendStep c f'] s = .next t ∧ (∃ d, t.ch c = channelAbsent d) ∧
      t.send c = none ∧
      t.out = ⟨.sent (if x.failed || decide (f = .eHw) then .eHw else .ok) x.warn, false⟩ ∧
      SessionReset c s t := by
  obtain ⟨u, hu, hchu, hsendu, hframeu⟩ := sendStep_delete hx hfree hstage hdisabled f
  have hfreeu : freeToSend u c := hfree.of_channels (hframeu (.ch c.other) (by simp)) (by rw [hchu]; rfl)
  obtain ⟨t, ht, hout, hsend, hch, hreset⟩ := sendStep_release hsendu hfreeu rfl f'
  refine ⟨t, ?_, ⟨s.fresh, by rw [hch, hchu]⟩, hsend, hout, ?_⟩
  · rw [runInputs_cons_of hu, runInputs_cons_of ht]
    rfl
  · have hpb : u.pb = s.pb := hframeu .pb (by simp)
    cases c with
    | a => exact hreset
    | b => exact hreset.trans (congrArg pbEmptied hpb)

/-- A caller stays free where its call leaves its channel as it was. -/
theorem SendCalled.freeToSend_same {r : Result} {y : Send} {t : State} (h : SendCalled c (s.ch c) r y s t)
    (hfree : Machine.freeToSend s c) : Machine.freeToSend t c := by
  have hch : ∀ d, t.ch d = s.ch d := fun d => by
    by_cases hd : d = c
    · rw [hd, h.channel]
    · exact h.frame (.ch d) (by simp [hd])
  exact fun d y hy => hfree d y (hch d ▸ hy)

end

/-- Settles O33: a waiting send learns its transmit's end; from there or from a failed `CH_ENABLE` it disables and
deletes its channel, and after a failed `CH_CONFIG` it returns. -/
theorem sendReleasesItsChannel : Obligations.SendReleasesItsChannel := by
  intro s c x f1 f2 f3 hx
  refine ⟨fun tx b hstage htx => ⟨fun hstaged => ?_, fun hstaged => ?_⟩,
    fun hfree => ⟨fun hstage hpresent hidle => ?_, fun hstage hdisabled hf => ?_, fun hstage habsent hf => ?_⟩⟩
  · refine ⟨_, present_txResume_eHw htx hstaged b, ?_⟩
    rw [finishTransmit_send_waiting hx hstage]
    simp
  · refine ⟨_, present_txEnd htx hstaged f1, ?_⟩
    rw [finishTransmit_send_waiting hx hstage]
    cases f1 <;> simp [statusOfDraw]
  · have htx : (s.ch c).tx = none := by simpa [Channel.busy] using hidle
    obtain ⟨r, u, hu, hcall⟩ := sendStep_disables hx hfree hstage hpresent hidle f1
    obtain ⟨t, ht, ⟨d, hch⟩, hsend, hout, hreset⟩ :=
      sendDeletes hcall.send (hcall.freeToSend hfree htx) rfl (by rw [hcall.channel]) f2 f3
    have hpb : u.pb = s.pb := hcall.frame .pb (by simp)
    refine ⟨t, by rw [runInputs_cons_of hu, ht], by rw [hch]; rfl, by rw [hch]; rfl, by rw [hch]; rfl, hsend,
      by simpa [or_assoc] using hout, ?_, ?_⟩
    · rintro rfl
      exact hreset
    · rintro rfl
      exact Eq.trans hreset (congrArg pbEmptied hpb)
  · subst hf
    obtain ⟨t, ht, hcall⟩ := sendStep_enable_fails hx hfree hstage hdisabled
    exact ⟨t, ht, hcall.channel, hcall.send⟩
  · subst hf
    obtain ⟨u, hu, hcall⟩ := sendStep_config_fails hx hfree hstage habsent
    obtain ⟨t, ht, hout, hsend, hch, -⟩ := sendStep_release hcall.send (hcall.freeToSend_same hfree) rfl f2
    refine ⟨t, ?_, hch.trans hcall.channel, hsend, hout⟩
    rw [runInputs_cons_of hu, runInputs_cons_of ht]
    rfl

end Sys2Proof.Machine
end

section
/-! PROOFS of the family `70_reset_and_hazards`: power-on of one node (`PowerOnResetsOneNode`). The reset values
are fields of the state a power-on answers; what it leaves of the other node goes piece by piece, and the lines
are at rest because a channel that is absent transmits on no pin. -/

namespace Sys2Proof.Machine

/-! ## Power-on of the transmitting node -/

@[simp] theorem transmitsOn_channelAbsent (d pin : Nat) : transmitsOn (channelAbsent d) pin = false := rfl

/-- Both channels come up absent; what has no power-on value reads as some draw (R42). -/
theorem powerOnTx_ch (s : State) (c : Chan) : ∃ d, (powerOnTx s).ch c = channelAbsent d := by
  cases c with
  | a => exact ⟨_, powerOnTx_chA s⟩
  | b => exact ⟨_, powerOnTx_chB s⟩

@[simp] theorem powerOnTx_send (s : State) (c : Chan) : (powerOnTx s).send c = none := by
  cases c with
  | a => exact powerOnTx_sendA s
  | b => exact powerOnTx_sendB s

/-- No channel transmits after power-on, so every line is at rest (R269). -/
theorem restLevel_powerOnTx (s : State) (pin : Nat) : restLevel (powerOnTx s) pin = some .inact := by
  simp [restLevel]

/-- The receive buffer is the other node's. -/
theorem powerOnTx_byteAt_rxBuf (s : State) (i : Nat) :
    (powerOnTx s).mem.byteAt .rxBuf i = s.mem.byteAt .rxBuf i :=
  congrArg (bankGet · i) (powerOnTx_rxBuf s)

/-! ## Power-on of the receiving node -/

@[simp] theorem powerOnRx_ch (s : State) (c : Chan) : (powerOnRx s).ch c = s.ch c := by
  cases c with
  | a => exact powerOnRx_chA s
  | b => exact powerOnRx_chB s

@[simp] theorem powerOnRx_send (s : State) (c : Chan) : (powerOnRx s).send c = s.send c := by
  cases c with
  | a => exact powerOnRx_sendA s
  | b => exact powerOnRx_sendB s

/-- The encoders' spaces are the other node's. -/
theorem powerOnRx_byteAt_ne (s : State) {sp : Space} (h : sp ≠ .rxBuf) (i : Nat) :
    (powerOnRx s).mem.byteAt sp i = s.mem.byteAt sp i := by
  rw [powerOnRx_mem]
  exact Memory.byteAt_setBank_ne s.mem _ i h

/-- Power-on of the receiving node changes nothing of the transmitting node (R331). -/
theorem powerOnRx_frame (s : State) : SameBut [.rx, .crit, .nboot, .space .rxBuf, .fresh] s (powerOnRx s) := by
  intro q hq
  cases q with
  | space sp => exact powerOnRx_byteAt_ne s (by simpa using hq)
  | rx | crit | nboot | fresh => simp at hq
  | params | pa | pb | ch | line | send | issue | events => simp [Part.Same]

/-- Settles O57: the transmitting node's reset values field by field with both its channels absent and unsent,
the receiving node's with its frame. -/
theorem powerOnResetsOneNode : Obligations.PowerOnResetsOneNode := by
  intro s
  constructor
  · refine ⟨powerOnTx s, rfl, powerOnTx_pa s, powerOnTx_pb s, fun c => ?channel, fun pin => ?line,
      powerOnTx_params s, powerOnTx_rx s, powerOnTx_crit s, ?nboot, powerOnTx_events s,
      powerOnTx_byteAt_rxBuf s⟩
    case channel =>
      obtain ⟨d, hd⟩ := powerOnTx_ch s c
      rw [hd]
      exact ⟨rfl, rfl, powerOnTx_send s c⟩
    case line => exact ⟨by rw [powerOnTx_obs]; rfl, restLevel_powerOnTx s pin⟩
    case nboot => rw [powerOnTx_obs]
  · exact ⟨powerOnRx s, rfl, powerOnRx_rx s, powerOnRx_crit s, by rw [powerOnRx_obs], powerOnRx_frame s⟩

end Sys2Proof.Machine
end
